-- ==== Sys2Proof/Word.lean ====
section
/-! DEFINITION. The word types of the 8-bit machine (00_scope.md R6, R9). -/

namespace Sys2Proof

/-- `Byte = Bits 8`: every bus transfer, register, PC value, IR value and program-memory cell (R6, R9). -/
abbrev Byte := BitVec 8

/-- A packed control word, 24 bits (R48). -/
abbrev Word24 := BitVec 24

end Sys2Proof
end

