-- ==== Sys2Proof/Syntax.lean ====
section
/-! DEFINITION. The syntax of the block: registers, bus components, the control word (10_state.md R14 to R22)
and the instruction model (30_encoding.md R54). -/

namespace Sys2Proof

/-- The four general-purpose registers (R14). -/
inductive Reg where
  | A | B | C | D
  deriving DecidableEq, Repr

/-- The components `read_from` can name (R15). -/
inductive ReadSrc where
  | reg (r : Reg)
  | pc
  | mem
  | acc
  | bank
  deriving DecidableEq, Repr

/-- The components `write_to` can name (R15). -/
inductive WriteDst where
  | reg (r : Reg)
  | pc
  | mem
  | mar
  | bank
  | ir
  | out
  deriving DecidableEq, Repr

/-- The shift selectors (R18). -/
inductive AluShift where
  | noShift | shiftLeft | shiftRight | passThrough
  deriving DecidableEq, Repr

/-- The sixteen logic functions (R18); `a` and `b` are "pass A" and "pass B". -/
inductive AluLogic where
  | and | or | xor | nand | nor | xnor | a | b
  | notA | notB | aAndNotB | bAndNotA | aOrNotB | bOrNotA | zero | ones
  deriving DecidableEq, Repr

/-- The control word: exactly the eleven fields of R18. -/
structure ControlWord where
  readFrom : ReadSrc
  writeTo : WriteDst
  aluLeft : Reg
  aluRight : Reg
  aluShift : AluShift
  aluLogic : AluLogic
  aluSubtract : Bool
  programCounterEnable : Bool
  bankSelectEnable : Bool
  halt : Bool
  stepReset : Bool
  deriving DecidableEq, Repr

/-- `NEUTRAL`, the word `empty()` returns (R20). -/
def ControlWord.neutral : ControlWord where
  readFrom := .reg .A
  writeTo := .reg .A
  aluLeft := .A
  aluRight := .A
  aluShift := .noShift
  aluLogic := .and
  aluSubtract := false
  programCounterEnable := false
  bankSelectEnable := false
  halt := false
  stepReset := false

/-- The source endpoint of a move (R54, R83). -/
inductive MoveSrc where
  | reg (r : Reg)
  | bank
  | acc
  | lit (a : BitVec 3)
  deriving DecidableEq, Repr

/-- The destination endpoint of a move (R54, R83). -/
inductive MoveDst where
  | reg (r : Reg)
  | bank
  | out
  | lit (a : BitVec 4)
  deriving DecidableEq, Repr

/-- Which endpoint of a move an error names (R116, tag 1). -/
inductive Endpoint where
  | dst | src
  deriving DecidableEq, Repr

/-- The instruction model: one constructor per row of spec/opcode_table.json (R54). -/
inductive Instr where
  | add (r1 r2 : Reg)
  | sub (r1 r2 : Reg)
  | and (r1 r2 : Reg)
  | or (r1 r2 : Reg)
  | xor (r1 r2 : Reg)
  | cmp (r1 r2 : Reg)
  | shl (r : Reg)
  | shr (r : Reg)
  | mov (dst : MoveDst) (src : MoveSrc)
  | jmp (imm : Byte)
  | jc (imm : Byte)
  | jz (imm : Byte)
  | nop
  | halt
  deriving DecidableEq, Repr

/-- A variant tag (R54). -/
inductive Variant where
  | add | sub | and | or | xor | cmp | shl | shr | mov | jmp | jc | jz | nop | halt
  deriving DecidableEq, Repr

/-- The variant of an instruction value (R54). -/
def Instr.variant : Instr → Variant
  | .add _ _ => .add
  | .sub _ _ => .sub
  | .and _ _ => .and
  | .or _ _ => .or
  | .xor _ _ => .xor
  | .cmp _ _ => .cmp
  | .shl _ => .shl
  | .shr _ => .shr
  | .mov _ _ => .mov
  | .jmp _ => .jmp
  | .jc _ => .jc
  | .jz _ => .jz
  | .nop => .nop
  | .halt => .halt

/-- Every register, in the order of R14. -/
def Reg.all : List Reg := [.A, .B, .C, .D]

/-- Every readable component, in the order of R43. -/
def ReadSrc.all : List ReadSrc :=
  [.reg .A, .reg .B, .reg .C, .reg .D, .pc, .mem, .acc, .bank]

/-- Every writable component, in the order of R43. -/
def WriteDst.all : List WriteDst :=
  [.reg .A, .reg .B, .reg .C, .reg .D, .pc, .mem, .mar, .bank, .ir, .out]

/-- Every shift selector, in the order of R46. -/
def AluShift.all : List AluShift := [.noShift, .shiftLeft, .shiftRight, .passThrough]

/-- Every logic function, in the order of R47. -/
def AluLogic.all : List AluLogic :=
  [.and, .or, .xor, .nand, .nor, .xnor, .a, .b,
   .notA, .notB, .aAndNotB, .bAndNotA, .aOrNotB, .bOrNotA, .zero, .ones]

/-- Every variant, in the order R54 lists them. -/
def Variant.all : List Variant :=
  [.add, .sub, .and, .or, .xor, .cmp, .shl, .shr, .mov, .jmp, .jc, .jz, .nop, .halt]

end Sys2Proof
end

