-- ==== Sys2Proof/Config.lean ====
section
/-! DEFINITION. The configuration: the parameters of 00_scope.md R7 as plain data.
A model of the block takes them as arguments (R7); their reference values are in Decode.lean.
The spec leaves no value free, so there is no opaque constant here (93_implementation_defined.md). -/

namespace Sys2Proof

/-- `READ_CODE`, one 3-bit code per readable component (R7, R43). -/
structure ReadCodes where
  regA : BitVec 3
  regB : BitVec 3
  regC : BitVec 3
  regD : BitVec 3
  pc : BitVec 3
  mem : BitVec 3
  acc : BitVec 3
  bank : BitVec 3
  deriving DecidableEq, Repr

/-- `WRITE_CODE`, one 4-bit code per writable component (R7, R43). -/
structure WriteCodes where
  regA : BitVec 4
  regB : BitVec 4
  regC : BitVec 4
  regD : BitVec 4
  pc : BitVec 4
  mem : BitVec 4
  mar : BitVec 4
  bank : BitVec 4
  ir : BitVec 4
  out : BitVec 4
  deriving DecidableEq, Repr

/-- `REG_CODE`, the ALU operand codes (R7, R43). -/
structure RegCodes where
  regA : BitVec 2
  regB : BitVec 2
  regC : BitVec 2
  regD : BitVec 2
  deriving DecidableEq, Repr

/-- `SHIFT_CODE` (R7, R46). -/
structure ShiftCodes where
  noShift : BitVec 2
  shiftLeft : BitVec 2
  shiftRight : BitVec 2
  passThrough : BitVec 2
  deriving DecidableEq, Repr

/-- `LOGIC_CODE` (R7, R47). -/
structure LogicCodes where
  and : BitVec 4
  or : BitVec 4
  xor : BitVec 4
  nand : BitVec 4
  nor : BitVec 4
  xnor : BitVec 4
  a : BitVec 4
  b : BitVec 4
  notA : BitVec 4
  notB : BitVec 4
  aAndNotB : BitVec 4
  bAndNotA : BitVec 4
  aOrNotB : BitVec 4
  bOrNotA : BitVec 4
  zero : BitVec 4
  ones : BitVec 4
  deriving DecidableEq, Repr

/-- `UNIMPL`, what `compile` does for jc, jz and nop (R7, R88). -/
inductive Unimpl where
  | fail
  | legacyEmpty
  deriving DecidableEq, Repr

/-- `ROW_INSTANCE`, held as the operand payload of each variant's row (R7, R102; log entry 13). -/
structure RowOperands where
  add : Reg × Reg
  sub : Reg × Reg
  and : Reg × Reg
  or : Reg × Reg
  xor : Reg × Reg
  cmp : Reg × Reg
  shl : Reg
  shr : Reg
  mov : MoveDst × MoveSrc
  jmp : Byte
  jc : Byte
  jz : Byte
  deriving DecidableEq, Repr

/-- The parameters of R7. `WORD_BYTES` has the single value 3 (R101) and is no field. -/
structure Config where
  readCodes : ReadCodes
  writeCodes : WriteCodes
  regCodes : RegCodes
  shiftCodes : ShiftCodes
  logicCodes : LogicCodes
  decl : List Variant
  opcodeBits : Nat
  steps : Nat
  pad : ControlWord
  rows : RowOperands
  unimpl : Unimpl
  deriving DecidableEq, Repr

/-- `WORD_BYTES` (R7, R101). -/
def wordBytes : Nat := 3

/-- The format's label (R2, R108). -/
def formatLabel : String := "HESCH-ROM-1"

/-- `READ_CODE` as a function of the component (R7). -/
def Config.readCode (cfg : Config) : ReadSrc → BitVec 3
  | .reg .A => cfg.readCodes.regA
  | .reg .B => cfg.readCodes.regB
  | .reg .C => cfg.readCodes.regC
  | .reg .D => cfg.readCodes.regD
  | .pc => cfg.readCodes.pc
  | .mem => cfg.readCodes.mem
  | .acc => cfg.readCodes.acc
  | .bank => cfg.readCodes.bank

/-- `WRITE_CODE` as a function of the component (R7). -/
def Config.writeCode (cfg : Config) : WriteDst → BitVec 4
  | .reg .A => cfg.writeCodes.regA
  | .reg .B => cfg.writeCodes.regB
  | .reg .C => cfg.writeCodes.regC
  | .reg .D => cfg.writeCodes.regD
  | .pc => cfg.writeCodes.pc
  | .mem => cfg.writeCodes.mem
  | .mar => cfg.writeCodes.mar
  | .bank => cfg.writeCodes.bank
  | .ir => cfg.writeCodes.ir
  | .out => cfg.writeCodes.out

/-- `REG_CODE` as a function of the register (R7). -/
def Config.regCode (cfg : Config) : Reg → BitVec 2
  | .A => cfg.regCodes.regA
  | .B => cfg.regCodes.regB
  | .C => cfg.regCodes.regC
  | .D => cfg.regCodes.regD

/-- `SHIFT_CODE` as a function of the selector (R7). -/
def Config.shiftCode (cfg : Config) : AluShift → BitVec 2
  | .noShift => cfg.shiftCodes.noShift
  | .shiftLeft => cfg.shiftCodes.shiftLeft
  | .shiftRight => cfg.shiftCodes.shiftRight
  | .passThrough => cfg.shiftCodes.passThrough

/-- `LOGIC_CODE` as a function of the selector (R7). -/
def Config.logicCode (cfg : Config) : AluLogic → BitVec 4
  | .and => cfg.logicCodes.and
  | .or => cfg.logicCodes.or
  | .xor => cfg.logicCodes.xor
  | .nand => cfg.logicCodes.nand
  | .nor => cfg.logicCodes.nor
  | .xnor => cfg.logicCodes.xnor
  | .a => cfg.logicCodes.a
  | .b => cfg.logicCodes.b
  | .notA => cfg.logicCodes.notA
  | .notB => cfg.logicCodes.notB
  | .aAndNotB => cfg.logicCodes.aAndNotB
  | .bAndNotA => cfg.logicCodes.bAndNotA
  | .aOrNotB => cfg.logicCodes.aOrNotB
  | .bOrNotA => cfg.logicCodes.bOrNotA
  | .zero => cfg.logicCodes.zero
  | .ones => cfg.logicCodes.ones

/-- `ROW_INSTANCE` as a function of the variant (R7, R102). -/
def Config.rowInstance (cfg : Config) : Variant → Instr
  | .add => .add cfg.rows.add.1 cfg.rows.add.2
  | .sub => .sub cfg.rows.sub.1 cfg.rows.sub.2
  | .and => .and cfg.rows.and.1 cfg.rows.and.2
  | .or => .or cfg.rows.or.1 cfg.rows.or.2
  | .xor => .xor cfg.rows.xor.1 cfg.rows.xor.2
  | .cmp => .cmp cfg.rows.cmp.1 cfg.rows.cmp.2
  | .shl => .shl cfg.rows.shl
  | .shr => .shr cfg.rows.shr
  | .mov => .mov cfg.rows.mov.1 cfg.rows.mov.2
  | .jmp => .jmp cfg.rows.jmp
  | .jc => .jc cfg.rows.jc
  | .jz => .jz cfg.rows.jz
  | .nop => .nop
  | .halt => .halt

end Sys2Proof
end

