-- ==== Sys2Proof/WellFormed.lean ====
section
/-! DEFINITION. Well-formedness: of an instruction value (30_encoding.md R55), and of a configuration
(00_scope.md R8). -/

namespace Sys2Proof

/-- A 3-bit literal names a readable component: `a` in `image(READ_CODE)` (R55). -/
def Config.readAssigned (cfg : Config) (a : BitVec 3) : Bool :=
  ReadSrc.all.any fun c => cfg.readCode c == a

/-- A 4-bit literal names a writable component: `a` in `image(WRITE_CODE)` (R55). -/
def Config.writeAssigned (cfg : Config) (a : BitVec 4) : Bool :=
  WriteDst.all.any fun c => cfg.writeCode c == a

/-- A well-formed source endpoint (R55). -/
def MoveSrc.wf (cfg : Config) : MoveSrc → Bool
  | .reg _ => true
  | .bank => true
  | .acc => true
  | .lit a => cfg.readAssigned a

/-- A well-formed destination endpoint (R55). -/
def MoveDst.wf (cfg : Config) : MoveDst → Bool
  | .reg _ => true
  | .bank => true
  | .out => true
  | .lit a => cfg.writeAssigned a

/-- A well-formed instruction value: each literal move endpoint names an assigned code (R55). -/
def Instr.wf (cfg : Config) : Instr → Bool
  | .add _ _ => true
  | .sub _ _ => true
  | .and _ _ => true
  | .or _ _ => true
  | .xor _ _ => true
  | .cmp _ _ => true
  | .shl _ => true
  | .shr _ => true
  | .mov dst src => dst.wf cfg && src.wf cfg
  | .jmp _ => true
  | .jc _ => true
  | .jz _ => true
  | .nop => true
  | .halt => true

/-- No two entries of a list agree (R8 "injective", read over the list of all arguments). -/
def distinct {α : Type} [DecidableEq α] : List α → Bool
  | [] => true
  | x :: xs => !xs.contains x && distinct xs

/-- R8, first constraint: the five code maps are injective. -/
def Config.codesInjective (cfg : Config) : Bool :=
  distinct (ReadSrc.all.map cfg.readCode) && distinct (WriteDst.all.map cfg.writeCode)
    && distinct (Reg.all.map cfg.regCode) && distinct (AluShift.all.map cfg.shiftCode)
    && distinct (AluLogic.all.map cfg.logicCode)

/-- R8, second constraint: register A has code 0 in the three register maps. -/
def Config.registerAZero (cfg : Config) : Bool :=
  cfg.readCode (.reg .A) == 0 && cfg.writeCode (.reg .A) == 0 && cfg.regCode .A == 0

/-- R8, third constraint: one code per register on the read, write and ALU sides. -/
def Config.registersAgree (cfg : Config) : Bool :=
  Reg.all.all fun r =>
    (cfg.readCode (.reg r)).toNat == (cfg.regCode r).toNat
      && (cfg.writeCode (.reg r)).toNat == (cfg.regCode r).toNat

/-- R8, fourth constraint: the neutral word's selectors have code 0. -/
def Config.neutralZero (cfg : Config) : Bool :=
  cfg.shiftCode ControlWord.neutral.aluShift == 0 && cfg.logicCode ControlWord.neutral.aluLogic == 0

/-- R8, fifth constraint: `DECL` lists every variant exactly once. -/
def Config.declComplete (cfg : Config) : Bool :=
  distinct cfg.decl && Variant.all.all fun v => cfg.decl.contains v

/-- R8, sixth constraint: `1 <= OPCODE_BITS <= 8`. -/
def Config.opcodeBitsOk (cfg : Config) : Bool :=
  decide (1 ≤ cfg.opcodeBits) && decide (cfg.opcodeBits ≤ 8)

/-- R8, seventh constraint: `STEPS >= 1`. -/
def Config.stepsOk (cfg : Config) : Bool := decide (1 ≤ cfg.steps)

/-- The constraints of R8; the loader refuses a configuration that fails any of them. -/
def Config.valid (cfg : Config) : Bool :=
  cfg.codesInjective && cfg.registerAZero && cfg.registersAgree && cfg.neutralZero
    && cfg.declComplete && cfg.opcodeBitsOk && cfg.stepsOk

/-- Every `ROW_INSTANCE` is a well-formed value (R55, R106). Only mov has a form that can fail. -/
def Config.rowsWellFormed (cfg : Config) : Bool :=
  Variant.all.all fun v => (cfg.rowInstance v).wf cfg

/-- The error of constructing an ill-formed instruction value (R55, R116 tag 1): the variant, the endpoint
and the code. -/
structure MalformedInstruction where
  variant : Variant
  endpoint : Endpoint
  code : Nat
  deriving DecidableEq, Repr

end Sys2Proof
end

