-- ==== Sys2Proof/Decode.lean ====
section
/-! DEFINITION. Encodings: the reference configuration (00_scope.md R7), packing and unpacking of control words
(30_encoding.md R48 to R53), opcode assignment (45_opcode_assignment.md), and the program-memory format with its
decoder and encoder (30_encoding.md R57 to R60). -/

namespace Sys2Proof

/-! ## Reference configuration -/

/-- `READ_CODE` and the reference value of it (R43). -/
def referenceReadCodes : ReadCodes where
  regA := 0
  regB := 1
  regC := 2
  regD := 3
  pc := 4
  mem := 5
  acc := 6
  bank := 7

/-- The reference `WRITE_CODE` (R43). -/
def referenceWriteCodes : WriteCodes where
  regA := 0
  regB := 1
  regC := 2
  regD := 3
  pc := 4
  mem := 5
  mar := 6
  bank := 7
  ir := 8
  out := 9

/-- The reference `REG_CODE` (R43). -/
def referenceRegCodes : RegCodes where
  regA := 0
  regB := 1
  regC := 2
  regD := 3

/-- The reference `SHIFT_CODE` (R46). -/
def referenceShiftCodes : ShiftCodes where
  noShift := 0
  shiftLeft := 1
  shiftRight := 2
  passThrough := 3

/-- The reference `LOGIC_CODE` (R47). -/
def referenceLogicCodes : LogicCodes where
  and := 0
  or := 1
  xor := 2
  nand := 3
  nor := 4
  xnor := 5
  a := 6
  b := 7
  notA := 8
  notB := 9
  aAndNotB := 10
  bAndNotA := 11
  aOrNotB := 12
  bOrNotA := 13
  zero := 14
  ones := 15

/-- The reference `DECL` (R95). -/
def referenceDecl : List Variant :=
  [.add, .sub, .and, .or, .xor, .cmp, .shl, .shr, .mov, .jmp, .jc, .jz, .nop, .halt]

/-- The reference `ROW_INSTANCE`: every register A, every immediate 0, the move `mov A, A` (R102). -/
def referenceRows : RowOperands where
  add := (.A, .A)
  sub := (.A, .A)
  and := (.A, .A)
  or := (.A, .A)
  xor := (.A, .A)
  cmp := (.A, .A)
  shl := .A
  shr := .A
  mov := (.reg .A, .reg .A)
  jmp := 0
  jc := 0
  jz := 0

/-- The reference configuration of R7, with `UNIMPL = Fail`. -/
def Config.reference : Config where
  readCodes := referenceReadCodes
  writeCodes := referenceWriteCodes
  regCodes := referenceRegCodes
  shiftCodes := referenceShiftCodes
  logicCodes := referenceLogicCodes
  decl := referenceDecl
  opcodeBits := 8
  steps := 8
  pad := ControlWord.neutral
  rows := referenceRows
  unimpl := .fail

/-- The reference configuration with `UNIMPL = LegacyEmpty`, the one whose image V-ROM is (R88, R106).
DESIGN CHOICE: the machine after reset holds this one, log entry 2. -/
def Config.legacy : Config := { Config.reference with unimpl := .legacyEmpty }

/-! ## The inverses of the code maps -/

/-- `READ_CODE^-1` (R52, R56). -/
def Config.readSrcOf (cfg : Config) (a : BitVec 3) : Option ReadSrc :=
  ReadSrc.all.find? fun c => cfg.readCode c == a

/-- `WRITE_CODE^-1` (R52, R56). -/
def Config.writeDstOf (cfg : Config) (a : BitVec 4) : Option WriteDst :=
  WriteDst.all.find? fun c => cfg.writeCode c == a

/-- `REG_CODE^-1` (R52): four injective 2-bit codes, so the last register is the only one left. -/
def Config.regOf (cfg : Config) (a : BitVec 2) : Reg :=
  (Reg.all.find? fun r => cfg.regCode r == a).getD .D

/-- `SHIFT_CODE^-1` (R52). -/
def Config.shiftOf (cfg : Config) (a : BitVec 2) : AluShift :=
  (AluShift.all.find? fun c => cfg.shiftCode c == a).getD .passThrough

/-- `LOGIC_CODE^-1` (R52). -/
def Config.logicOf (cfg : Config) (a : BitVec 4) : AluLogic :=
  (AluLogic.all.find? fun c => cfg.logicCode c == a).getD .ones

/-- Construction of a literal destination `bus(n)` from the number written (R55, R61). -/
def constructDst (cfg : Config) (n : Nat) : Except MalformedInstruction MoveDst :=
  if n < 16 && cfg.writeAssigned (BitVec.ofNat 4 n) then .ok (.lit (BitVec.ofNat 4 n))
  else .error ⟨.mov, .dst, n⟩

/-- Construction of a literal source `bus(n)` from the number written (R55, R61). -/
def constructSrc (cfg : Config) (n : Nat) : Except MalformedInstruction MoveSrc :=
  if n < 8 && cfg.readAssigned (BitVec.ofNat 3 n) then .ok (.lit (BitVec.ofNat 3 n))
  else .error ⟨.mov, .src, n⟩

/-! ## Packing (R48 to R51) -/

/-- `pack`: the 24-bit word, high field first; bits 10:9 are always 0 (R48, R50). -/
def pack (cfg : Config) (w : ControlWord) : Word24 :=
  cfg.writeCode w.writeTo ++ cfg.readCode w.readFrom ++ cfg.regCode w.aluLeft
    ++ cfg.regCode w.aluRight ++ cfg.shiftCode w.aluShift ++ 0#2 ++ cfg.logicCode w.aluLogic
    ++ BitVec.ofBool w.aluSubtract ++ BitVec.ofBool w.programCounterEnable
    ++ BitVec.ofBool w.bankSelectEnable ++ BitVec.ofBool w.halt ++ BitVec.ofBool w.stepReset

/-- The three bytes of a 24-bit word, most significant first (R30, R48). -/
def wordBytesOf (w : Word24) : List Byte :=
  [w.extractLsb' 16 8, w.extractLsb' 8 8, w.extractLsb' 0 8]

/-- `packBytes` (R48). -/
def packBytes (cfg : Config) (w : ControlWord) : List Byte := wordBytesOf (pack cfg w)

/-! ## Unpacking (R52, R53) -/

/-- The errors of `unpack` (R52, R116 tags 5 to 7). -/
inductive UnpackError where
  /-- `W[10:9]` is not 0. -/
  | unusedBitsSet (w : Word24)
  /-- `W[23:20]` names no writable component. -/
  | unassignedWriteCode (code : BitVec 4)
  /-- `W[19:17]` names no readable component. -/
  | unassignedReadCode (code : BitVec 3)
  deriving DecidableEq, Repr

/-- `unpack` of a 24-bit word, its three checks in the order of R52 and R118. -/
def unpackWord (cfg : Config) (w : Word24) : Except UnpackError ControlWord :=
  if w.extractLsb' 9 2 ≠ 0#2 then .error (.unusedBitsSet w)
  else match cfg.writeDstOf (w.extractLsb' 20 4) with
    | none => .error (.unassignedWriteCode (w.extractLsb' 20 4))
    | some dst => match cfg.readSrcOf (w.extractLsb' 17 3) with
      | none => .error (.unassignedReadCode (w.extractLsb' 17 3))
      | some src => .ok {
          writeTo := dst
          readFrom := src
          aluLeft := cfg.regOf (w.extractLsb' 15 2)
          aluRight := cfg.regOf (w.extractLsb' 13 2)
          aluShift := cfg.shiftOf (w.extractLsb' 11 2)
          aluLogic := cfg.logicOf (w.extractLsb' 5 4)
          aluSubtract := w.getLsbD 4
          programCounterEnable := w.getLsbD 3
          bankSelectEnable := w.getLsbD 2
          halt := w.getLsbD 1
          stepReset := w.getLsbD 0 }

/-- `unpack` of a cell's three bytes, byte 0 the most significant (R30, R52). -/
def unpack (cfg : Config) (b0 b1 b2 : Byte) : Except UnpackError ControlWord :=
  unpackWord cfg (b0 ++ b1 ++ b2)

/-! ## Opcode assignment (R93 to R98) -/

/-- The errors of the builder (R116 tags 2 to 4, and tag 1 for a row instance that is no well-formed value). -/
inductive BuildError where
  | opcodeSpaceExhausted (count opcodeBits : Nat)
  | unimplemented (variant : Variant) (opcode : Nat)
  | sequenceTooLong (variant : Variant) (opcode length steps : Nat)
  | malformedInstruction (e : MalformedInstruction)
  deriving DecidableEq, Repr

/-- The position of a variant in `DECL`, its opcode (R57, R93). -/
def opcode (cfg : Config) (v : Variant) : Nat := cfg.decl.idxOf v

/-- `assign`: fails when the opcode index cannot hold every variant, else gives each its position (R93, R96). -/
def assign (cfg : Config) : Except BuildError (Variant → Nat) :=
  if cfg.decl.length > 2 ^ cfg.opcodeBits then
    .error (.opcodeSpaceExhausted cfg.decl.length cfg.opcodeBits)
  else .ok (opcode cfg)

/-- The nested-enumeration size of a variant: metadata that changes no opcode (R94). -/
def nestedSize : Variant → Option Nat
  | .shl => some Reg.all.length
  | .shr => some Reg.all.length
  | .add => none
  | .sub => none
  | .and => none
  | .or => none
  | .xor => none
  | .cmp => none
  | .mov => none
  | .jmp => none
  | .jc => none
  | .jz => none
  | .nop => none
  | .halt => none

/-- The opcode byte in program memory (R57, R58). -/
def opcodeByte (cfg : Config) (v : Variant) : Byte := BitVec.ofNat 8 (opcode cfg v)

/-! ## The program-memory format: decoder and encoder (R57 to R60) -/

/-- Why a byte sequence is no instruction. -/
inductive DecodeError where
  /-- There is no byte to read. -/
  | noBytes
  /-- The opcode byte has no ROM row (R60). -/
  | opcodeOutOfImage (b : Byte)
  /-- The opcode is a jump's and its immediate byte is missing (R58). -/
  | missingImmediate (b : Byte)
  deriving DecidableEq, Repr

/-- The length in program bytes, a function of the variant alone (R59). -/
def instrLength : Variant → Nat
  | .jmp => 2
  | .jc => 2
  | .jz => 2
  | .add => 1
  | .sub => 1
  | .and => 1
  | .or => 1
  | .xor => 1
  | .cmp => 1
  | .shl => 1
  | .shr => 1
  | .mov => 1
  | .nop => 1
  | .halt => 1

/-- The immediate byte of a jump, put into an instruction value (R56, R58). -/
def Instr.withImm (imm : Byte) : Instr → Instr
  | .jmp _ => .jmp imm
  | .jc _ => .jc imm
  | .jz _ => .jz imm
  | .add r1 r2 => .add r1 r2
  | .sub r1 r2 => .sub r1 r2
  | .and r1 r2 => .and r1 r2
  | .or r1 r2 => .or r1 r2
  | .xor r1 r2 => .xor r1 r2
  | .cmp r1 r2 => .cmp r1 r2
  | .shl r => .shl r
  | .shr r => .shr r
  | .mov dst src => .mov dst src
  | .nop => .nop
  | .halt => .halt

/-- `decode`: the instruction at the head of a byte sequence and the bytes after it, or why there is none.
Register operands and move endpoints have no program byte (R58), so they are those of the variant's row
instance (R102, R136; log entry 6). -/
def decode (cfg : Config) : List Byte → Except DecodeError (Instr × List Byte)
  | [] => .error .noBytes
  | b :: rest =>
    match cfg.decl[b.toNat]? with
    | none => .error (.opcodeOutOfImage b)
    | some v =>
      if instrLength v = 2 then
        match rest with
        | [] => .error (.missingImmediate b)
        | imm :: rest' => .ok ((cfg.rowInstance v).withImm imm, rest')
      else .ok (cfg.rowInstance v, rest)

/-- `encode`: the program bytes of an instruction value (R58). -/
def encode (cfg : Config) : Instr → List Byte
  | .jmp imm => [opcodeByte cfg .jmp, imm]
  | .jc imm => [opcodeByte cfg .jc, imm]
  | .jz imm => [opcodeByte cfg .jz, imm]
  | .add _ _ => [opcodeByte cfg .add]
  | .sub _ _ => [opcodeByte cfg .sub]
  | .and _ _ => [opcodeByte cfg .and]
  | .or _ _ => [opcodeByte cfg .or]
  | .xor _ _ => [opcodeByte cfg .xor]
  | .cmp _ _ => [opcodeByte cfg .cmp]
  | .shl _ => [opcodeByte cfg .shl]
  | .shr _ => [opcodeByte cfg .shr]
  | .mov _ _ => [opcodeByte cfg .mov]
  | .nop => [opcodeByte cfg .nop]
  | .halt => [opcodeByte cfg .halt]

/-- The value `decode` gives back for an instruction: its variant's row instance, with the immediate byte
that the program carries (R58, R102). -/
def rowForm (cfg : Config) : Instr → Instr
  | .jmp imm => .jmp imm
  | .jc imm => .jc imm
  | .jz imm => .jz imm
  | .add _ _ => cfg.rowInstance .add
  | .sub _ _ => cfg.rowInstance .sub
  | .and _ _ => cfg.rowInstance .and
  | .or _ _ => cfg.rowInstance .or
  | .xor _ _ => cfg.rowInstance .xor
  | .cmp _ _ => cfg.rowInstance .cmp
  | .shl _ => cfg.rowInstance .shl
  | .shr _ => cfg.rowInstance .shr
  | .mov _ _ => cfg.rowInstance .mov
  | .nop => .nop
  | .halt => .halt

/-- The bytes of an instruction whose `nbits` low bits are `w`, byte 0 first and zero above `nbits`, up to
the longest instruction of two bytes (R58). DESIGN CHOICE, log entry 7: also a one-byte instruction comes with a second byte,
0 where `nbits` is 8. -/
def instructionBytes (nbits w : Nat) : List Byte :=
  [BitVec.ofNat 8 (w % 2 ^ nbits), BitVec.ofNat 8 (w % 2 ^ nbits / 256)]

/-- The host's entry to the decoder, under the reference codes. -/
def decodeTableWord (nbits w : Nat) : Option Instr :=
  match decode Config.legacy (instructionBytes nbits w) with
  | .ok (i, _) => some i
  | .error _ => none

end Sys2Proof
end

