-- ==== Sys2Proof/Machine/Operands.lean ====
section
/-! DEFINITION. How operands enter control words (30_encoding.md R56, 42_move.md R81, R83). -/

namespace Sys2Proof.Machine

open Sys2Proof

/-- `srcComp`: the readable component a source endpoint names; none for a literal that names none (R81). -/
def srcComp (cfg : Config) : MoveSrc → Option ReadSrc
  | .reg r => some (.reg r)
  | .bank => some .bank
  | .acc => some .acc
  | .lit a => cfg.readSrcOf a

/-- `dstComp`: the writable component a destination endpoint names; none for a literal that names none (R81). -/
def dstComp (cfg : Config) : MoveDst → Option WriteDst
  | .reg r => some (.reg r)
  | .bank => some .bank
  | .out => some .out
  | .lit a => cfg.writeDstOf a

/-- The numeric code an error about a source endpoint reports (R116 tag 1). -/
def srcCode : MoveSrc → Nat
  | .lit a => a.toNat
  | .reg _ => 0
  | .bank => 0
  | .acc => 0

/-- The numeric code an error about a destination endpoint reports (R116 tag 1). -/
def dstCode : MoveDst → Nat
  | .lit a => a.toNat
  | .reg _ => 0
  | .bank => 0
  | .out => 0

end Sys2Proof.Machine
end

