-- ==== Sys2Proof/Machine/Compile.lean ====
section
/-! DEFINITION. The microcode compiler: prologue, epilogue, the execute words of each variant and `compile`
(40_compiler_common.md, 41_alu_ops.md, 42_move.md, 43_control_flow.md). -/

namespace Sys2Proof.Machine

open Sys2Proof

/-! ## The fixed words (R63 to R65) -/

/-- `FETCH0`: PC to MAR (R63). -/
def fetch0 : ControlWord := { ControlWord.neutral with readFrom := .pc, writeTo := .mar }

/-- `FETCH1`: MEM to IR, and the PC increments (R63). -/
def fetch1 : ControlWord :=
  { ControlWord.neutral with
    readFrom := .mem, writeTo := .ir, programCounterEnable := true, bankSelectEnable := false }

/-- `EPILOGUE`: step reset and nothing else (R64). -/
def epilogue : ControlWord := { ControlWord.neutral with stepReset := true }

/-- `HALT_WORD` (R65). -/
def haltWord : ControlWord := { ControlWord.neutral with halt := true }

/-! ## The execute words of each variant -/

/-- An ALU word that latches its result into the left operand's register: ACC into `Reg r1`, the ALU on `r1` and `r2` under the
three selectors (R72). -/
def aluWord (r1 r2 : Reg) (logic : AluLogic) (shift : AluShift) (subtract : Bool) : ControlWord :=
  { ControlWord.neutral with
    aluLeft := r1, aluRight := r2, aluLogic := logic, aluShift := shift, aluSubtract := subtract,
    readFrom := .acc, writeTo := .reg r1 }

/-- The execute words of add (R73). -/
def addWords (r1 r2 : Reg) : List ControlWord := [aluWord r1 r2 .b .passThrough false]

/-- The execute words of sub (R74). -/
def subWords (r1 r2 : Reg) : List ControlWord := [aluWord r1 r2 .b .passThrough true]

/-- The execute words of and (R75). -/
def andWords (r1 r2 : Reg) : List ControlWord := [aluWord r1 r2 .and .noShift false]

/-- The execute words of or (R76). -/
def orWords (r1 r2 : Reg) : List ControlWord := [aluWord r1 r2 .or .noShift false]

/-- The execute words of xor (R77). -/
def xorWords (r1 r2 : Reg) : List ControlWord := [aluWord r1 r2 .xor .noShift false]

/-- The execute words of cmp: sub's ALU fields, and the neutral driver and latch (R78). -/
def cmpWords (r1 r2 : Reg) : List ControlWord :=
  [{ ControlWord.neutral with
      aluLeft := r1, aluRight := r2, aluLogic := .b, aluShift := .passThrough, aluSubtract := true }]

/-- The execute words of shl: both inputs are the register (R79). -/
def shlWords (r : Reg) : List ControlWord := [aluWord r r .zero .shiftLeft false]

/-- The execute words of shr: both inputs are the register (R80). -/
def shrWords (r : Reg) : List ControlWord := [aluWord r r .zero .shiftRight false]

/-- A word that moves one component into another with every ALU field neutral (R81, R82). -/
def moveWord (dst : WriteDst) (src : ReadSrc) : ControlWord :=
  { ControlWord.neutral with readFrom := src, writeTo := dst }

/-- Why `compile` gives no sequence. -/
inductive CompileError where
  /-- jc, jz or nop under `UNIMPL = Fail` (R88, R116 tag 3). -/
  | unimplemented (v : Variant)
  /-- A move endpoint that names no component: no well-formed value, which the spec's `compile` never
  receives (R55; log entry 10). -/
  | malformedInstruction (e : MalformedInstruction)
  deriving DecidableEq, Repr

/-- The execute words of mov (R81). -/
def movWords (cfg : Config) (dst : MoveDst) (src : MoveSrc) : Except CompileError (List ControlWord) :=
  match dstComp cfg dst, srcComp cfg src with
  | none, _ => .error (.malformedInstruction ⟨.mov, .dst, dstCode dst⟩)
  | some _, none => .error (.malformedInstruction ⟨.mov, .src, srcCode src⟩)
  | some d, some c => .ok [moveWord d c]

/-- The execute words of jmp: J0 and J1, the same for every immediate (R87). -/
def jmpWords (_imm : Byte) : List ControlWord :=
  [moveWord .mar .pc, moveWord .pc .mem]

/-- The execute words of jc (R89). -/
def jcWords (cfg : Config) (_imm : Byte) : Except CompileError (List ControlWord) :=
  match cfg.unimpl with
  | .fail => .error (.unimplemented .jc)
  | .legacyEmpty => .ok []

/-- The execute words of jz (R90). -/
def jzWords (cfg : Config) (_imm : Byte) : Except CompileError (List ControlWord) :=
  match cfg.unimpl with
  | .fail => .error (.unimplemented .jz)
  | .legacyEmpty => .ok []

/-- The execute words of nop (R91). -/
def nopWords (cfg : Config) : Except CompileError (List ControlWord) :=
  match cfg.unimpl with
  | .fail => .error (.unimplemented .nop)
  | .legacyEmpty => .ok []

/-! ## The compiler (R62, R66, R67) -/

/-- The shape of every sequence but halt's: prologue, execute words, epilogue (R66). -/
def framed (exec : List ControlWord) : List ControlWord := [fetch0, fetch1] ++ exec ++ [epilogue]

/-- `framed` over a fallible execute phase (R66). -/
def framedOr : Except CompileError (List ControlWord) → Except CompileError (List ControlWord)
  | .ok exec => .ok (framed exec)
  | .error e => .error e

/-- `compile`: one exhaustive match over the variants; halt is its single word (R62, R66, R67). -/
def compile (cfg : Config) : Instr → Except CompileError (List ControlWord)
  | .add r1 r2 => .ok (framed (addWords r1 r2))
  | .sub r1 r2 => .ok (framed (subWords r1 r2))
  | .and r1 r2 => .ok (framed (andWords r1 r2))
  | .or r1 r2 => .ok (framed (orWords r1 r2))
  | .xor r1 r2 => .ok (framed (xorWords r1 r2))
  | .cmp r1 r2 => .ok (framed (cmpWords r1 r2))
  | .shl r => .ok (framed (shlWords r))
  | .shr r => .ok (framed (shrWords r))
  | .mov dst src => framedOr (movWords cfg dst src)
  | .jmp imm => .ok (framed (jmpWords imm))
  | .jc imm => framedOr (jcWords cfg imm)
  | .jz imm => framedOr (jzWords cfg imm)
  | .nop => framedOr (nopWords cfg)
  | .halt => .ok [haltWord]

end Sys2Proof.Machine
end

