-- ==== Sys2Proof/Machine/Rom.lean ====
section
/-! DEFINITION. The ROM image builder (46_rom_builder.md) and the addressing of its cells (20_memory.md R32). -/

namespace Sys2Proof.Machine

open Sys2Proof

/-- `offset(op, s, k)` (R32). -/
def romOffset (cfg : Config) (op s k : Nat) : Nat := (op * cfg.steps + s) * wordBytes + k

/-- The error of `build` for a compile error of the row at an opcode (R99, R106); R106 says that the second arm cannot arise, and what
it answers is log entry 20. -/
def buildErrorOf (op : Nat) : CompileError → BuildError
  | .unimplemented v => .unimplemented v op
  | .malformedInstruction e => .malformedInstruction e

/-- A row: the compiled sequence padded to exactly `STEPS` words, or the length error (R99, R103, R105). -/
def padRow (cfg : Config) (op : Nat) (v : Variant) (seq : List ControlWord) :
    Except BuildError (List ControlWord) :=
  if seq.length > cfg.steps then .error (.sequenceTooLong v op seq.length cfg.steps)
  else .ok (seq ++ List.replicate (cfg.steps - seq.length) cfg.pad)

/-- The row of a variant: its row instance compiled, then padded (R99, R102). -/
def buildRow (cfg : Config) (op : Nat) (v : Variant) : Except BuildError (List ControlWord) :=
  match compile cfg (cfg.rowInstance v) with
  | .error e => .error (buildErrorOf op e)
  | .ok seq => padRow cfg op v seq

/-- The bytes of a row's cells, in step order (R99, R104). -/
def packRow (cfg : Config) : List ControlWord → List Byte
  | [] => []
  | w :: ws => packBytes cfg w ++ packRow cfg ws

/-- The rows of a list of variants from opcode `op` on; the first error ends the build (R99, R106). -/
def buildRows (cfg : Config) : Nat → List Variant → Except BuildError (List Byte)
  | _, [] => .ok []
  | op, v :: vs =>
    match buildRow cfg op v with
    | .error e => .error e
    | .ok row =>
      match buildRows cfg (op + 1) vs with
      | .error e => .error e
      | .ok bytes => .ok (packRow cfg row ++ bytes)

/-- `build`: assignment first, then every row in opcode order (R99, R106). -/
def build (cfg : Config) : Except BuildError (List Byte) :=
  match assign cfg with
  | .error e => .error e
  | .ok _ => buildRows cfg 0 cfg.decl

/-- The image `build` gives, and no bytes where it gives an error: on error nothing is output (R106). -/
def builtImage (cfg : Config) : List Byte :=
  match build cfg with
  | .ok image => image
  | .error _ => []

/-- The number of bytes of an image (R36, R100). -/
def imageLength (cfg : Config) : Nat := cfg.decl.length * cfg.steps * wordBytes

/-- The numeric tag of a build error (R116). -/
def buildErrorTag : BuildError → Nat
  | .malformedInstruction _ => 1
  | .opcodeSpaceExhausted _ _ => 2
  | .unimplemented _ _ => 3
  | .sequenceTooLong _ _ _ _ => 4

/-- The numeric tag of an unpack error (R116). -/
def unpackErrorTag : UnpackError → Nat
  | .unusedBitsSet _ => 5
  | .unassignedWriteCode _ => 6
  | .unassignedReadCode _ => 7

end Sys2Proof.Machine
end

