-- ==== Sys2Proof/Machine/State.lean ====
section
/-! DEFINITION. The state of the machine (10_state.md R26 to R28), its faults (60_exceptions.md R116, R117)
and the state after reset (R28, 70_reset_and_hazards.md R128). -/

namespace Sys2Proof.Machine

open Sys2Proof

/-- The four registers of R27; `none` is the spec's "never written". -/
structure Regs where
  a : Option Byte
  b : Option Byte
  c : Option Byte
  d : Option Byte
  deriving DecidableEq, Repr

/-- Program memory `M` (R27): the written cells, addresses strictly rising. An unlisted cell is `none`. -/
abbrev Memory := List Host.Cell

/-- M2's program map (R114): the instruction values, addresses strictly rising. -/
abbrev Program := List (Nat × Instr)

/-- Which reference machine drives the bench: the model's own field. DESIGN CHOICE, log entry 1. -/
inductive Drive where
  /-- M1, the ROM-driven sequencer (R112). -/
  | rom
  /-- M2, the sequence-level machine (R114). -/
  | sequence
  deriving DecidableEq, Repr

/-- A storage cell that a fault names (R117 tag 16). -/
inductive Storage where
  | reg (r : Reg)
  | mar
  | bank
  | mem (a : Byte)
  deriving DecidableEq, Repr

/-- The whole machine. `regs`, `pc`, `mar`, `bank`, `mem` and `out` are the bench state of R27; `ir`, `stepCount`
and `halted` are the sequencer's registers of R26; `rom`, `loaded` and `prog` are what the loader put there: the image, the
contents of program memory that reset brings back, and M2's instruction values (R129, R128, R114);
`cfg` is the fixed configuration (R7, R13). -/
structure State where
  cfg : Config
  drive : Drive
  rom : List Byte
  loaded : Memory
  prog : Program
  regs : Regs
  pc : Byte
  mar : Option Byte
  bank : Option Byte
  mem : Memory
  out : List Byte
  ir : Byte
  stepCount : Nat
  halted : Bool
  deriving DecidableEq, Repr

/-- The faults. Each ends the run (R119). All but `romCellMissing` are the spec's own. -/
inductive Fault where
  /-- Raised by a bus read of a storage cell never written since reset: the spec's own fault (R110, R117 tag 16) and its only
treatment of such a read (93_implementation_defined.md I15, "never `any value`", and I16). Safe. -/
  | unwrittenRead (cell : Storage)
  /-- Raised by the ALU for a selector combination the bench does not model (R111, R117 tag 17). Safe. -/
  | aluUnmodelled (logic : AluLogic) (shift : AluShift) (subtract : Bool)
  /-- Raised by a word with `bank_select_enable` set (R110, R117 tag 18). Safe. -/
  | bankSelectUnmodelled
  /-- Raised by a word that both increments and writes the PC (R110, R117 tag 19). Safe. -/
  | pcWriteConflict
  /-- Raised by M1 at a cell read whose IR has no row (R112, R117 tag 20). Safe. -/
  | opcodeOutOfImage (ir : Byte)
  /-- Raised by M2 when the program has no instruction at PC (R114, R117 tag 21). Safe. -/
  | noInstructionAtPC (pc : Byte)
  /-- Raised by M2 when the fetched byte is not the opcode of its instruction (R114, R117 tag 22). Safe. -/
  | programMismatch (pc : Byte) (ir : Byte)
  /-- Raised by M2 for jc, jz or nop under `UNIMPL = Fail` (R114, R116 tag 3). Safe. -/
  | unimplemented (v : Variant)
  /-- Raised for an instruction value that R55 does not let be constructed (R116 tag 1; log entry 10). Safe. -/
  | malformedInstruction (e : MalformedInstruction)
  /-- Raised by M1 for a cell `unpack` refuses (R112, R116 tags 5 to 7). Safe. -/
  | unpackFailed (e : UnpackError)
  /-- Raised by M1 for a cell outside a hand-made image that is too short (log entry 9). Safe. -/
  | romCellMissing (offset : Nat)
  deriving DecidableEq, Repr

/-- The refusals. No meaning of this model answers with one. -/
inductive Refusal where
  /-- Raised by `exec` for an instruction without a meaning; no arm does. Safe. -/
  | notModelled (mnemonic : String)
  deriving DecidableEq, Repr

/-- The machine right after reset with nothing loaded (R28, R128). The image is the one `build` gives (R28);
`UNIMPL` is LegacyEmpty, the policy under which there is an image (DESIGN CHOICE, log entry 2). -/
def State.reset : State where
  cfg := Config.legacy
  drive := .rom
  rom := builtImage Config.legacy
  loaded := []
  prog := []
  regs := ⟨none, none, none, none⟩
  pc := 0
  mar := none
  bank := none
  mem := []
  out := []
  ir := 0
  stepCount := 0
  halted := false

end Sys2Proof.Machine
end

