-- ==== Sys2Proof/Machine/Alu.lean ====
section
/-! DEFINITION. The bench ALU (48_sequencer_reference.md R111). It sets no flags: the machine has none (10_state.md R25),
so no file of flag computations is needed. -/

namespace Sys2Proof.Machine

open Sys2Proof

/-- `LOGIC(f, L, R)`, bitwise (R111). -/
def logicFn (f : AluLogic) (l r : Byte) : Byte :=
  match f with
  | .and => l &&& r
  | .or => l ||| r
  | .xor => l ^^^ r
  | .nand => ~~~(l &&& r)
  | .nor => ~~~(l ||| r)
  | .xnor => ~~~(l ^^^ r)
  | .a => l
  | .b => r
  | .notA => ~~~l
  | .notB => ~~~r
  | .aAndNotB => l &&& ~~~r
  | .bAndNotA => r &&& ~~~l
  | .aOrNotB => l ||| ~~~r
  | .bOrNotA => r ||| ~~~l
  | .zero => 0
  | .ones => 0xFF

/-- The ALU under its three selectors: the five modelled arms, in order; every other combination faults (R111). -/
def aluFn (logic : AluLogic) (shift : AluShift) (subtract : Bool) (l r : Byte) : Except Fault Byte :=
  match logic, shift, subtract with
  | .b, .passThrough, false => .ok (l + r)
  | .b, .passThrough, true => .ok (l - r)
  | f, .noShift, false => .ok (logicFn f l r)
  | .zero, .shiftLeft, false => .ok (l <<< 1)
  | .zero, .shiftRight, false => .ok (l >>> 1)
  | f, sh, sub => .error (.aluUnmodelled f sh sub)

/-- `bench_alu`: the ALU under a word's selectors (R111). -/
def benchAlu (w : ControlWord) (l r : Byte) : Except Fault Byte :=
  aluFn w.aluLogic w.aluShift w.aluSubtract l r

end Sys2Proof.Machine
end

