-- ==== Sys2Proof/Machine/Ops.lean ====
section
/-! DEFINITION. The named operations over registers and memory, and one bench cycle
(48_sequencer_reference.md R110). No fault is taken as an exception: the spec has no handler, no vector and no return
(60_exceptions.md R119, R120), so there is no exception entry among these operations. -/

namespace Sys2Proof.Machine

open Sys2Proof

/-! ## Registers -/

/-- `x[r]`, none where never written (R10, R27). -/
def readReg (rs : Regs) : Reg → Option Byte
  | .A => rs.a
  | .B => rs.b
  | .C => rs.c
  | .D => rs.d

/-- `x[r] <- v` (R10). -/
def writeReg (rs : Regs) (r : Reg) (v : Byte) : Regs :=
  match r with
  | .A => { rs with a := some v }
  | .B => { rs with b := some v }
  | .C => { rs with c := some v }
  | .D => { rs with d := some v }

/-! ## Program memory -/

/-- What an unlisted cell reads as: nothing, "never written" (R27, R28). -/
def unlistedCell : Option Byte := none

/-- The cell at a numeric address. -/
def cellAt : Memory → Nat → Option Byte
  | [], _ => unlistedCell
  | (k, v) :: m, a => if k = a then some v else cellAt m a

/-- The memory with the cell at a numeric address written, in rising order. -/
def putCell : Memory → Nat → Byte → Memory
  | [], a, v => [(a, v)]
  | (k, x) :: m, a, v =>
    if a < k then (a, v) :: (k, x) :: m
    else if a = k then (a, v) :: m
    else (k, x) :: putCell m a v

/-- `MemRead(addr, 1)` (R10, R29). -/
def readMem (m : Memory) (a : Byte) : Option Byte := cellAt m a.toNat

/-- `MemWrite(addr, 1, v)` (R10, R29). -/
def writeMem (m : Memory) (a v : Byte) : Memory := putCell m a.toNat v

/-- Addresses rise strictly from a lower bound and stay below 256 (R29). -/
def risingFrom : Nat → List Nat → Bool
  | _, [] => true
  | lo, a :: as => decide (lo ≤ a) && decide (a < 256) && risingFrom (a + 1) as

/-- The canonical form of a memory: strictly rising addresses of the space; no entry can equal what an unlisted
cell reads as, since that is no value. -/
def Memory.wf (m : Memory) : Bool := risingFrom 0 (m.map Prod.fst)

/-- M2's instruction at an address (R114). -/
def programAt : Program → Nat → Option Instr
  | [], _ => none
  | (k, i) :: p, a => if k = a then some i else programAt p a

/-- The program with an instruction value placed at an address, in rising order. -/
def putInstr : Program → Nat → Instr → Program
  | [], a, i => [(a, i)]
  | (k, x) :: p, a, i =>
    if a < k then (a, i) :: (k, x) :: p
    else if a = k then (a, i) :: p
    else (k, x) :: putInstr p a i

/-- The canonical form of a program map. -/
def Program.wf (p : Program) : Bool := risingFrom 0 (p.map Prod.fst)

/-! ## Named state updates -/

/-- The state with a register written. -/
def State.withReg (s : State) (r : Reg) (v : Byte) : State := { s with regs := writeReg s.regs r v }

/-- The state with the PC written (`pc <- target`, R10). -/
def State.withPc (s : State) (v : Byte) : State := { s with pc := v }

/-- The state with MAR written. -/
def State.withMar (s : State) (v : Byte) : State := { s with mar := some v }

/-- The state with BANK written: a plain register (R37, D26). -/
def State.withBank (s : State) (v : Byte) : State := { s with bank := some v }

/-- The state with a program-memory cell written. -/
def State.withMem (s : State) (a v : Byte) : State := { s with mem := writeMem s.mem a v }

/-- The state with a byte appended to the output log (R115). -/
def State.withOut (s : State) (v : Byte) : State := { s with out := s.out ++ [v] }

/-- The state with IR written. -/
def State.withIr (s : State) (v : Byte) : State := { s with ir := v }

/-- The state with the step counter set (R26). -/
def State.withStep (s : State) (n : Nat) : State := { s with stepCount := n }

/-- The stopped state: HALTED set, nothing else changed (R112, R124). -/
def State.withHalted (s : State) : State := { s with halted := true }

/-! ## One bench cycle (R110) -/

/-- `need`: the value of a cell, or the fault that names it, both as the pseudocode of R110 writes them. -/
def need (cell : Storage) : Option Byte → Except Fault Byte
  | some b => .ok b
  | none => .error (.unwrittenRead cell)

/-- The value `ACC` drives: left input, right input, then the ALU (R110, R118). -/
def driveAcc (s : State) (w : ControlWord) : Except Fault Byte :=
  match need (.reg w.aluLeft) (readReg s.regs w.aluLeft) with
  | .error f => .error f
  | .ok l =>
    match need (.reg w.aluRight) (readReg s.regs w.aluRight) with
    | .error f => .error f
    | .ok r => benchAlu w l r

/-- The value `MEM` drives: the byte addressed by MAR (R17, R110). -/
def driveMem (s : State) : Except Fault Byte :=
  match need .mar s.mar with
  | .error f => .error f
  | .ok a => need (.mem a) (readMem s.mem a)

/-- `drive`: the value on the bus, sampled from the state at the start of the cycle (R110). -/
def drive (s : State) (w : ControlWord) : Except Fault Byte :=
  match w.readFrom with
  | .reg r => need (.reg r) (readReg s.regs r)
  | .pc => .ok s.pc
  | .mem => driveMem s
  | .acc => driveAcc s w
  | .bank => need .bank s.bank

/-- The latch of `MEM`: the byte addressed by MAR (R110). -/
def latchMem (s : State) (v : Byte) : Except Fault State :=
  match need .mar s.mar with
  | .error f => .error f
  | .ok a => .ok (s.withMem a v)

/-- `latch`: the named component takes the bus value (R110). -/
def latch (s : State) (d : WriteDst) (v : Byte) : Except Fault State :=
  match d with
  | .reg r => .ok (s.withReg r v)
  | .pc => .ok (s.withPc v)
  | .mem => latchMem s v
  | .mar => .ok (s.withMar v)
  | .bank => .ok (s.withBank v)
  | .ir => .ok (s.withIr v)
  | .out => .ok (s.withOut v)

/-- `incPC`: modulo 256, where the word enables it (R24, R110). -/
def incPC (s : State) (w : ControlWord) : State :=
  if w.programCounterEnable then s.withPc (s.pc + 1) else s

/-- The same storage on both sides (R84, R110). -/
def selfTransfer : ReadSrc → WriteDst → Bool
  | .reg r, .reg r' => r == r'
  | .pc, .pc => true
  | .mem, .mem => true
  | .bank, .bank => true
  | _, _ => false

/-- `bench_cycle` for a word that is no halt word (R110): the two refused combinations, the self-transfer, then drive,
latch and increment. -/
def benchCycle (s : State) (w : ControlWord) : Except Fault State :=
  if w.bankSelectEnable then .error .bankSelectUnmodelled
  else if w.programCounterEnable && w.writeTo == .pc then .error .pcWriteConflict
  else if selfTransfer w.readFrom w.writeTo then .ok (incPC s w)
  else
    match drive s w with
    | .error f => .error f
    | .ok v =>
      match latch s w.writeTo v with
      | .error f => .error f
      | .ok s' => .ok (incPC s' w)

/-! ## Runs -/

/-- What a run of cycles leaves: the state at its end, or, where a bench cycle faulted, at the start of that cycle (R110,
R119); the cycles it counts (R112); the fault that ended it, if one did. -/
structure Run where
  state : State
  cycles : Nat
  fault : Option Fault
  deriving DecidableEq, Repr

/-- The outcome of a step whose cycles are a run: a fault ends the run (R119). -/
def runOutcome (r : Run) : Host.Outcome State Fault Refusal :=
  match r.fault with
  | none => .next r.state
  | some f => .fault f

/-- The numeric tag of a fault (R116, R117); `romCellMissing` is the model's own and has none, log entry 9. -/
def faultTag : Fault → Option Nat
  | .malformedInstruction _ => some 1
  | .unimplemented _ => some 3
  | .unpackFailed e => some (unpackErrorTag e)
  | .unwrittenRead _ => some 16
  | .aluUnmodelled _ _ _ => some 17
  | .bankSelectUnmodelled => some 18
  | .pcWriteConflict => some 19
  | .opcodeOutOfImage _ => some 20
  | .noInstructionAtPC _ => some 21
  | .programMismatch _ _ => some 22
  | .romCellMissing _ => none

end Sys2Proof.Machine
end

