-- ==== Sys2Proof/Machine/Sequence.lean ====
section
/-! DEFINITION. The body of M2's instruction: the compiled words of one instruction value, run on the bench
(48_sequencer_reference.md R114). Every meaning is one line over `runInstr`. -/

namespace Sys2Proof.Machine

open Sys2Proof

/-- The fault of a compile error at run time (R114, R117). -/
def compileFault : CompileError → Fault
  | .unimplemented v => .unimplemented v
  | .malformedInstruction e => .malformedInstruction e

/-- The loop of R114 from word `k` on, for the instruction fetched at `p` whose opcode is `op`: a halt word stops at
once; the words up to `k` count as cycles; after word 1 the IR must hold the opcode (95_test_vectors.md V-M2-1: that
fault leaves the state after word 1). -/
def runWords (p : Byte) (op : Nat) : Nat → List ControlWord → State → Run
  | k, [], s => ⟨s, k, none⟩
  | k, w :: ws, s =>
    if w.halt then ⟨s.withHalted, k + 1, none⟩
    else
      match benchCycle s w with
      | .error f => ⟨s, k + 1, some f⟩
      | .ok s' =>
        if k = 1 ∧ s'.ir.toNat ≠ op then ⟨s', k + 1, some (.programMismatch p s'.ir)⟩
        else runWords p op (k + 1) ws s'

/-- `m2_instruction` from `compile` on (R114): an instruction value with its own operands, from the machine's PC. -/
def runInstr (i : Instr) (s : State) : Run :=
  match compile s.cfg i with
  | .error e => ⟨s, 0, some (compileFault e)⟩
  | .ok words => runWords s.pc (opcode s.cfg i.variant) 0 words s

end Sys2Proof.Machine
end

