-- ==== Sys2Proof/Machine/AluOps.lean ====
section
/-! DEFINITION. The meanings of the ALU instructions (41_alu_ops.md). No status flag is written (10_state.md R25). -/

namespace Sys2Proof.Machine

open Sys2Proof

/-- `add r1, r2` (R73). -/
def execAdd (r1 r2 : Reg) (s : State) : Host.Outcome State Fault Refusal := runOutcome (runInstr (.add r1 r2) s)

/-- `sub r1, r2` (R74). -/
def execSub (r1 r2 : Reg) (s : State) : Host.Outcome State Fault Refusal := runOutcome (runInstr (.sub r1 r2) s)

/-- `and r1, r2` (R75). -/
def execAnd (r1 r2 : Reg) (s : State) : Host.Outcome State Fault Refusal := runOutcome (runInstr (.and r1 r2) s)

/-- `or r1, r2` (R76). -/
def execOr (r1 r2 : Reg) (s : State) : Host.Outcome State Fault Refusal := runOutcome (runInstr (.or r1 r2) s)

/-- `xor r1, r2` (R77). -/
def execXor (r1 r2 : Reg) (s : State) : Host.Outcome State Fault Refusal := runOutcome (runInstr (.xor r1 r2) s)

/-- `cmp r1, r2` (R78). -/
def execCmp (r1 r2 : Reg) (s : State) : Host.Outcome State Fault Refusal := runOutcome (runInstr (.cmp r1 r2) s)

/-- `shl r` (R79). -/
def execShl (r : Reg) (s : State) : Host.Outcome State Fault Refusal := runOutcome (runInstr (.shl r) s)

/-- `shr r` (R80). -/
def execShr (r : Reg) (s : State) : Host.Outcome State Fault Refusal := runOutcome (runInstr (.shr r) s)

end Sys2Proof.Machine
end

