-- ==== Sys2Proof/Machine/ControlFlow.lean ====
section
/-! DEFINITION. The meanings of the jump family, nop and halt (43_control_flow.md). -/

namespace Sys2Proof.Machine

open Sys2Proof

/-- `jmp imm`: the target is read from the byte after the opcode (R86, R87). -/
def execJmp (imm : Byte) (s : State) : Host.Outcome State Fault Refusal := runOutcome (runInstr (.jmp imm) s)

/-- `jc imm`: prologue and epilogue under LegacyEmpty, the fault Unimplemented under Fail (R88, R89). -/
def execJc (imm : Byte) (s : State) : Host.Outcome State Fault Refusal := runOutcome (runInstr (.jc imm) s)

/-- `jz imm`: as jc (R88, R90). -/
def execJz (imm : Byte) (s : State) : Host.Outcome State Fault Refusal := runOutcome (runInstr (.jz imm) s)

/-- `nop`: as jc (R88, R91). -/
def execNop (s : State) : Host.Outcome State Fault Refusal := runOutcome (runInstr .nop s)

/-- `halt`: its single word stops the machine with no transfer (R92, R124). -/
def execHalt (s : State) : Host.Outcome State Fault Refusal := runOutcome (runInstr .halt s)

end Sys2Proof.Machine
end

