-- ==== Sys2Proof/Machine/Move.lean ====
section
/-! DEFINITION. The meaning of the move instruction (42_move.md). -/

namespace Sys2Proof.Machine

open Sys2Proof

/-- `mov dst, src` (R81, R83, R85). -/
def execMov (dst : MoveDst) (src : MoveSrc) (s : State) : Host.Outcome State Fault Refusal :=
  runOutcome (runInstr (.mov dst src) s)

end Sys2Proof.Machine
end

