-- ==== Sys2Proof/Machine/Dispatch.lean ====
section
/-! DEFINITION. One arm per instruction (40_compiler_common.md R67). -/

namespace Sys2Proof.Machine

open Sys2Proof

def exec (i : Instr) (s : State) : Host.Outcome State Fault Refusal :=
  match i with
  | .add r1 r2 => Sys2Proof.Machine.execAdd r1 r2 s
  | .sub r1 r2 => Sys2Proof.Machine.execSub r1 r2 s
  | .and r1 r2 => Sys2Proof.Machine.execAnd r1 r2 s
  | .or r1 r2 => Sys2Proof.Machine.execOr r1 r2 s
  | .xor r1 r2 => Sys2Proof.Machine.execXor r1 r2 s
  | .cmp r1 r2 => Sys2Proof.Machine.execCmp r1 r2 s
  | .shl r => Sys2Proof.Machine.execShl r s
  | .shr r => Sys2Proof.Machine.execShr r s
  | .mov dst src => Sys2Proof.Machine.execMov dst src s
  | .jmp imm => Sys2Proof.Machine.execJmp imm s
  | .jc imm => Sys2Proof.Machine.execJc imm s
  | .jz imm => Sys2Proof.Machine.execJz imm s
  | .nop => Sys2Proof.Machine.execNop s
  | .halt => Sys2Proof.Machine.execHalt s

end Sys2Proof.Machine
end

