-- ==== Sys2Proof/Machine/Loader.lean ====
section
/-! DEFINITION. Reset and boot (70_reset_and_hazards.md R128, R129), and the placing of one instruction where the machine
fetches next. -/

namespace Sys2Proof.Machine

open Sys2Proof

/-- What the loader puts into the machine beside the ROM image: program-memory cells, register, BANK and IR presets
(R129; 95_test_vectors.md V-M1-4 for IR). -/
structure Load where
  cells : List (Byte × Byte)
  regs : Regs
  bank : Option Byte
  ir : Byte
  deriving DecidableEq, Repr

/-- No preset and no program. -/
def Load.empty : Load := ⟨[], ⟨none, none, none, none⟩, none, 0⟩

/-- Program bytes from an address on, in program order (R58, R129). -/
def programCells : Byte → List Byte → List (Byte × Byte)
  | _, [] => []
  | a, b :: bs => (a, b) :: programCells (a + 1) bs

/-- Cells written one after another, so that the last one named for an address stays (DESIGN CHOICE, log entry 17). -/
def writeCells : Memory → List (Byte × Byte) → Memory
  | m, [] => m
  | m, (a, b) :: cs => writeCells (writeMem m a b) cs

/-- The loader's writes to program memory: the cells themselves, and the record of them that survives reset (R128, R129). -/
def loadCells (s : State) (cells : List (Byte × Byte)) : State :=
  { s with mem := writeCells s.mem cells, loaded := writeCells s.loaded cells }

/-- Reset: every piece of state at its value of R28. The ROM image and the contents the loader put in program memory survive
(R128): program memory holds those contents again, and nothing elsewhere. The inputs that are no state of the run, the
configuration, M2's program and the choice of machine, are not reset either (log entry 11). -/
def resetState (s : State) : State :=
  { s with
    regs := ⟨none, none, none, none⟩
    pc := 0
    mar := none
    bank := none
    mem := s.loaded
    out := []
    ir := 0
    stepCount := 0
    halted := false }

/-- The loader's presets, put in before reset is released (R129; the order of the writes and the preset of IR are log entry 17). -/
def applyLoad (s : State) (l : Load) : State :=
  { loadCells s l.cells with regs := l.regs, bank := l.bank, ir := l.ir }

/-- Reset applied to a running, halted or faulted machine, with what the loader then puts in beside what it put in before (R128,
R129). -/
def restart (s : State) (l : Load) : State := applyLoad (resetState s) l

/-- Why there is no machine to boot. The names `invalidConfiguration` and `malformedProgram`, that they carry no variant, endpoint
and code, and their order among the errors of `build` are the model's: DESIGN CHOICE, log entry 20. -/
inductive BootError where
  /-- The configuration fails a constraint of R8, or a row instance is no well-formed value, which R106 and R55 say cannot
  be (log entry 20). -/
  | invalidConfiguration
  /-- `build` or `assign` reports an error (R99, R116). -/
  | build (e : BuildError)
  /-- A value of M2's program is not well-formed, which R55 says cannot be (log entry 20). -/
  | malformedProgram
  deriving DecidableEq, Repr

/-- A configuration the block accepts (R8); one with a row instance that R55 does not let be constructed is not (DESIGN CHOICE, log
entry 20). -/
def configAccepted (cfg : Config) : Bool := cfg.valid && cfg.rowsWellFormed

/-- M1 with a given image in the ROM (R112, R129). It does not check the configuration: the boots that call it do (DESIGN CHOICE,
log entry 21). -/
def bootImage (cfg : Config) (image : List Byte) (l : Load) : State :=
  restart { State.reset with cfg := cfg, rom := image, drive := .rom } l

/-- Boot of M1: check the configuration, build the image, load, release reset (R8, R129). -/
def bootM1 (cfg : Config) (l : Load) : Except BootError State :=
  if configAccepted cfg then
    match build cfg with
    | .error e => .error (.build e)
    | .ok image => .ok (bootImage cfg image l)
  else .error .invalidConfiguration

/-- Boot of M1 on a hand-made image: check the configuration, load, release reset (R8, R112 "Unpack faults", R129). The image itself
is not checked. That R8's "configuration time" is the boot is DESIGN CHOICE, log entry 21. -/
def bootHandMade (cfg : Config) (image : List Byte) (l : Load) : Except BootError State :=
  if configAccepted cfg then .ok (bootImage cfg image l) else .error .invalidConfiguration

/-- M2's program map and the program bytes it puts in memory: `encode(prog(a))` at each `a` (R114). -/
def loadProgram (s : State) : List (Byte × Instr) → State
  | [] => s
  | (a, i) :: ps =>
    loadProgram
      { loadCells s (programCells a (encode s.cfg i)) with prog := putInstr s.prog a.toNat i } ps

/-- Boot of M2 on a program of well-formed values, with the loader's presets over the program's bytes (R114, R129). An ill-formed
value is reported after OpcodeSpaceExhausted (DESIGN CHOICE, log entry 20). -/
def bootM2 (cfg : Config) (program : List (Byte × Instr)) (l : Load) : Except BootError State :=
  if configAccepted cfg then
    match assign cfg with
    | .error e => .error (.build e)
    | .ok _ =>
      if program.all fun p => p.2.wf cfg then
        .ok (applyLoad
          (loadProgram (resetState { State.reset with cfg := cfg, rom := builtImage cfg, prog := [], drive := .sequence })
            program) l)
      else .error .malformedProgram
  else .error .invalidConfiguration

/-- The instruction whose low `nbits` bits are `w`, put where the machine fetches next: its bytes at PC and after it,
the machine at the start of an instruction on a row that holds the prologue, and, for M2, its value in the program
map (log entry 8). Two bytes are written whatever the instruction's length, so after a one-byte instruction the cell at PC + 1
holds 0x00: DESIGN CHOICE, log entry 7. -/
def placeInstruction (s : State) (nbits w : Nat) : State :=
  let bytes := instructionBytes nbits w
  let s' := { s with
    mem := writeCells s.mem (programCells s.pc bytes), ir := 0, stepCount := 0, halted := false }
  match s.drive with
  | .rom => s'
  | .sequence =>
    match decode s.cfg bytes with
    | .ok (i, _) => { s' with prog := putInstr s'.prog s.pc.toNat i }
    | .error _ => s'

end Sys2Proof.Machine
end

