-- ==== Sys2Proof/Machine/Sequencer.lean ====
section
/-! DEFINITION. M1, the ROM-driven sequencer, cell by cell (48_sequencer_reference.md R112, R113). -/

namespace Sys2Proof.Machine

open Sys2Proof

/-- The three bytes of a cell, unpacked (R32, R112). A byte outside the image is the model's own fault, log entry 9. -/
def unpackCell (cfg : Config) (rom : List Byte) (op s : Nat) : Except Fault ControlWord :=
  match rom[romOffset cfg op s 0]?, rom[romOffset cfg op s 1]?, rom[romOffset cfg op s 2]? with
  | some b0, some b1, some b2 =>
    match unpack cfg b0 b1 b2 with
    | .error e => .error (.unpackFailed e)
    | .ok w => .ok w
  | _, _, _ => .error (.romCellMissing (romOffset cfg op s 0))

/-- The cell of a cycle, chosen by IR and STEP at its start (R112). -/
def readCell (s : State) : Except Fault ControlWord :=
  if s.cfg.decl.length ≤ s.ir.toNat then .error (.opcodeOutOfImage s.ir)
  else unpackCell s.cfg s.rom s.ir.toNat s.stepCount

/-- The step counter after a word: 0 on step reset, else up by one modulo `STEPS` (R112). -/
def nextStep (s : State) (w : ControlWord) : Nat :=
  if w.stepReset then 0 else (s.stepCount + 1) % s.cfg.steps

/-- The rest of a cycle once its word is read: a halt word stops with no transfer, any other word runs on the bench
and moves the step counter (R112). -/
def runCell (s : State) (w : ControlWord) : Except Fault State :=
  if w.halt then .ok s.withHalted
  else
    match benchCycle s w with
    | .error f => .error f
    | .ok s' => .ok (s'.withStep (nextStep s w))

/-- `m1_cycle`: one clock cycle; a halted machine stays as it is (R112, R124). -/
def m1Cycle (s : State) : Except Fault State :=
  if s.halted then .ok s
  else
    match readCell s with
    | .error f => .error f
    | .ok w => runCell s w

/-- A word that ends an instruction: it resets the step counter or halts (R12 "Step reset", R65). -/
def endsInstruction (w : ControlWord) : Bool := w.halt || w.stepReset

/-- At most `n` cycles of M1, ended early by halt, by a fault, or, when `stopAtEnd` is set, by the end of an
instruction. `k` cycles are counted already; a cycle counts once its cell decodes (R112). -/
def m1Cycles (stopAtEnd : Bool) : Nat → Nat → State → Run
  | 0, k, s => ⟨s, k, none⟩
  | n + 1, k, s =>
    if s.halted then ⟨s, k, none⟩
    else
      match readCell s with
      | .error f => ⟨s, k, some f⟩
      | .ok w =>
        match runCell s w with
        | .error f => ⟨s, k + 1, some f⟩
        | .ok s' =>
          if stopAtEnd && endsInstruction w then ⟨s', k + 1, none⟩
          else m1Cycles stopAtEnd n (k + 1) s'

/-- `n` clock cycles of M1. -/
def m1Clock (n : Nat) (s : State) : Run := m1Cycles false n 0 s

/-- One instruction of M1: its cycles up to the step reset or the halt, at most `STEPS + 1` of them, the most R113 gives. A
hand-made image, or a built one after a mov row has written IR (R135), may need more; the next step then goes on from the
state reached. DESIGN CHOICE, log entry 4. -/
def m1Instruction (s : State) : Run := m1Cycles true (s.cfg.steps + 1) 0 s

end Sys2Proof.Machine
end

