-- ==== Sys2Proof/Machine/Step.lean ====
section
/-! DEFINITION. One step of the machine: one instruction of the reference machine that drives the bench. -/

namespace Sys2Proof.Machine

open Sys2Proof

/-- One instruction of M2 (R114): a halted machine stays; the program's value at PC runs through `exec`. -/
def stepSequence (s : State) : Host.Outcome State Fault Refusal :=
  if s.halted then .next s
  else
    match programAt s.prog s.pc.toNat with
    | none => .fault (.noInstructionAtPC s.pc)
    | some i => exec i s

/-- One step: an instruction of M1 (R112) or of M2 (R114). -/
def step (s : State) : Host.Outcome State Fault Refusal :=
  match s.drive with
  | .rom => runOutcome (m1Instruction s)
  | .sequence => stepSequence s

/-- The instruction whose low `nbits` bits are `w`, stored where `step` fetches its next instruction. -/
def State.withFetchWord (s : State) (nbits w : Nat) : State := placeInstruction s nbits w

end Sys2Proof.Machine
end

