-- ==== Sys2Proof/Safety.lean ====
section
/-! DEFINITION. What claims about runs use: the invariant, a machine with a built image, the bytes at the PC, the state
after the fetch prologue. -/

namespace Sys2Proof.Machine

open Sys2Proof

/-- The invariant of R26, R27 and R29: memory, the loader's contents and the program in canonical form, `0 <= STEP < STEPS`. -/
def State.inv (s : State) : Prop :=
  Memory.wf s.mem = true ∧ Memory.wf s.loaded = true ∧ Program.wf s.prog = true ∧ s.stepCount < s.cfg.steps

/-- The configuration meets R8 and the ROM holds the image `build` gives for it (R28, R129). -/
def State.built (s : State) : Prop := s.cfg.valid = true ∧ build s.cfg = .ok s.rom

/-- IR names a row that is not halt's: a row that holds the prologue (R129, R131). -/
def State.onPrologueRow (s : State) : Prop :=
  ∃ v, s.cfg.decl[s.ir.toNat]? = some v ∧ v ≠ .halt

/-- M1 at the start of an instruction, not halted, its next two cells the prologue (R131). -/
def State.atFetch (s : State) : Prop :=
  s.drive = .rom ∧ s.halted = false ∧ s.stepCount = 0 ∧ s.onPrologueRow

/-- The mov row's instance does not write IR: the case outside the hazard of R135. -/
def rowsKeepIr (cfg : Config) : Prop := dstComp cfg cfg.rows.mov.1 ≠ some .ir

/-- The written bytes at PC and after it, at most the longest instruction's two (R58). -/
def bytesAt (s : State) : List Byte :=
  match readMem s.mem s.pc with
  | none => []
  | some b =>
    match readMem s.mem (s.pc + 1) with
    | none => [b]
    | some imm => [b, imm]

/-- The byte at PC is the opcode of `i`, and `i` is the instance its row runs, with any immediate (R102, R136): what the machine
runs, also where a jump's immediate byte was never written. -/
def State.rowAtPc (s : State) (i : Instr) : Prop :=
  ∃ b imm, readMem s.mem s.pc = some b ∧ s.cfg.decl[b.toNat]? = some i.variant
    ∧ i = (s.cfg.rowInstance i.variant).withImm imm

/-- The state after the fetch prologue when the byte at PC is `b` (R24, R63): MAR holds the old PC, IR the byte, and the PC
is one further, modulo 256. -/
def State.fetched (s : State) (b : Byte) : State :=
  ((s.withMar s.pc).withIr b).withPc (s.pc + 1)

/-- The bench components of R27, and IR, agree. -/
def sameBench (s t : State) : Prop :=
  s.regs = t.regs ∧ s.pc = t.pc ∧ s.mar = t.mar ∧ s.bank = t.bank ∧ s.mem = t.mem ∧ s.out = t.out ∧ s.ir = t.ir

/-- M1 at the start of an instruction, and M2 not halted, with the same configuration and the same bench state (R114). -/
def Paired (s1 s2 : State) : Prop :=
  s1.built ∧ s1.atFetch ∧ s2.drive = .sequence ∧ s2.halted = false ∧ s2.cfg = s1.cfg ∧ sameBench s1 s2

/-- What no cycle writes: the configuration, the ROM image, the loader's contents of program memory, M2's program (R13, R41,
R128, R114), and the model's own choice of machine (log entry 1). -/
def sameFixed (s t : State) : Prop :=
  s.cfg = t.cfg ∧ s.rom = t.rom ∧ s.loaded = t.loaded ∧ s.prog = t.prog ∧ s.drive = t.drive

/-- A state some number of steps after another. -/
inductive Reaches : State → State → Prop where
  | refl (s : State) : Reaches s s
  | tail {s t u : State} : Reaches s t → step t = .next u → Reaches s u

end Sys2Proof.Machine
end

