-- ==== Sys2Proof/Certificates/Slice0/Obligations.lean ====
section
/-! DEFINITION. The statements for the provers. Each docstring names the rule of spec/ it formalises. -/

namespace Sys2Proof.Claims

open Sys2Proof Sys2Proof.Machine

/-- The table of logic functions of R111, one bit at a time. -/
def logicBit : AluLogic → Bool → Bool → Bool
  | .and, l, r => l && r
  | .or, l, r => l || r
  | .xor, l, r => l != r
  | .nand, l, r => !(l && r)
  | .nor, l, r => !(l || r)
  | .xnor, l, r => l == r
  | .a, l, _ => l
  | .b, _, r => r
  | .notA, l, _ => !l
  | .notB, _, r => !r
  | .aAndNotB, l, r => l && !r
  | .bAndNotA, l, r => r && !l
  | .aOrNotB, l, r => l || !r
  | .bOrNotA, l, r => r || !l
  | .zero, _, _ => false
  | .ones, _, _ => true

/-- The two-operand instructions that latch the ALU result (R72). -/
def twoOperandResult : Instr → Option (Reg × Reg × (Byte → Byte → Byte))
  | .add r1 r2 => some (r1, r2, fun a b => a + b)
  | .sub r1 r2 => some (r1, r2, fun a b => a - b)
  | .and r1 r2 => some (r1, r2, fun a b => a &&& b)
  | .or r1 r2 => some (r1, r2, fun a b => a ||| b)
  | .xor r1 r2 => some (r1, r2, fun a b => a ^^^ b)
  | _ => none

/-- The ALU family of R72. -/
def isAlu : Variant → Bool
  | .add => true
  | .sub => true
  | .and => true
  | .or => true
  | .xor => true
  | .cmp => true
  | .shl => true
  | .shr => true
  | _ => false

/-- The destination register of an ALU instruction; cmp has none (R72, R78). -/
def aluDest : Instr → Option Reg
  | .add r1 _ => some r1
  | .sub r1 _ => some r1
  | .and r1 _ => some r1
  | .or r1 _ => some r1
  | .xor r1 _ => some r1
  | .shl r => some r
  | .shr r => some r
  | _ => none

/-- jc, jz and nop, the open point of R88. -/
def isOpenPoint : Variant → Bool
  | .jc => true
  | .jz => true
  | .nop => true
  | _ => false

/-- The value a move's source drives when the fetched byte is `b` (R85): `MEM` is the opcode byte itself, `PC` the address
after it, `ACC` register A under the neutral ALU fields. -/
def movSource (s : State) (b : Byte) : ReadSrc → Option Byte
  | .reg r => readReg s.regs r
  | .pc => some (s.pc + 1)
  | .mem => some b
  | .acc => readReg s.regs .A
  | .bank => s.bank

/-- The cell an unwritten source of a move names (R81). -/
def movSourceCell : ReadSrc → Storage
  | .reg r => .reg r
  | .acc => .reg .A
  | .bank => .bank
  | .pc => .mar
  | .mem => .mar

/-- The state after a move of `v` into a component (R85); the store goes to the address in MAR. -/
def movTarget (s : State) (b v : Byte) : WriteDst → State
  | .reg r => (s.fetched b).withReg r v
  | .pc => (s.fetched b).withPc v
  | .mem => (s.fetched b).withMem s.pc v
  | .mar => (s.fetched b).withMar v
  | .bank => (s.fetched b).withBank v
  | .ir => (s.fetched b).withIr v
  | .out => (s.fetched b).withOut v

/-- The cycles of M1 per instruction (R113). -/
def m1CycleCount (cfg : Config) : Variant → Nat
  | .jmp => 5
  | .jc => 3
  | .jz => 3
  | .nop => 3
  | .halt => cfg.steps + 1
  | _ => 4

/-- The lengths of compiled sequences (R69). -/
def sequenceLength : Variant → Nat
  | .jmp => 5
  | .jc => 3
  | .jz => 3
  | .nop => 3
  | .halt => 1
  | _ => 4

/-- The error of R106 for one opcode, were the build to reach it: Unimplemented from its compile, then SequenceTooLong from its
length check. -/
def rowFailure (cfg : Config) (op : Nat) (v : Variant) : Option BuildError :=
  if cfg.unimpl = .fail ∧ isOpenPoint v = true then some (.unimplemented v op)
  else if cfg.steps < sequenceLength v then some (.sequenceTooLong v op (sequenceLength v) cfg.steps)
  else none

/-- The byte the loader's cells leave at an address: the last one they name for it (R129). -/
def loadedByte (cells : List (Byte × Byte)) (a : Byte) : Option Byte :=
  (cells.reverse.find? fun p => p.1 == a).map Prod.snd

/-- The word of a cell of a built row: the sequence's, or padding after its end (R100, R103). -/
def rowWord (cfg : Config) (seq : List ControlWord) (s : Nat) : ControlWord := seq[s]?.getD cfg.pad

end Sys2Proof.Claims

open Sys2Proof Sys2Proof.Machine Sys2Proof.Claims

/-! ## Configuration and encodings -/

/-- R8: the check accepts a configuration exactly when it meets every constraint, and each boot refuses one that does not. That the
boot is R8's configuration time is the model's choice, log entry 21. -/
def Obligations.ConfigurationCheckIsTheConstraints : Prop :=
  (∀ cfg : Config, cfg.valid = true ↔
    (Function.Injective cfg.readCode ∧ Function.Injective cfg.writeCode ∧ Function.Injective cfg.regCode
      ∧ Function.Injective cfg.shiftCode ∧ Function.Injective cfg.logicCode)
    ∧ (cfg.readCode (.reg .A) = 0 ∧ cfg.writeCode (.reg .A) = 0 ∧ cfg.regCode .A = 0)
    ∧ (∀ r, (cfg.readCode (.reg r)).toNat = (cfg.regCode r).toNat
        ∧ (cfg.writeCode (.reg r)).toNat = (cfg.regCode r).toNat)
    ∧ (cfg.shiftCode ControlWord.neutral.aluShift = 0 ∧ cfg.logicCode ControlWord.neutral.aluLogic = 0)
    ∧ (cfg.decl.Nodup ∧ ∀ v, v ∈ cfg.decl)
    ∧ (1 ≤ cfg.opcodeBits ∧ cfg.opcodeBits ≤ 8) ∧ 1 ≤ cfg.steps)
  ∧ ∀ (cfg : Config) (l : Load), cfg.valid = false → bootM1 cfg l = .error .invalidConfiguration
    ∧ (∀ program, bootM2 cfg program l = .error .invalidConfiguration)
    ∧ ∀ image, bootHandMade cfg image l = .error .invalidConfiguration

/-- R48: the packed word is the formula of the rule, and its three bytes are the word's, most significant first. -/
def Obligations.PackLayout : Prop :=
  ∀ (cfg : Config) (w : ControlWord),
    (pack cfg w).toNat = (cfg.writeCode w.writeTo).toNat <<< 20 ||| (cfg.readCode w.readFrom).toNat <<< 17
      ||| (cfg.regCode w.aluLeft).toNat <<< 15 ||| (cfg.regCode w.aluRight).toNat <<< 13
      ||| (cfg.shiftCode w.aluShift).toNat <<< 11 ||| (cfg.logicCode w.aluLogic).toNat <<< 5
      ||| w.aluSubtract.toNat <<< 4 ||| w.programCounterEnable.toNat <<< 3 ||| w.bankSelectEnable.toNat <<< 2
      ||| w.halt.toNat <<< 1 ||| w.stepReset.toNat
    ∧ (packBytes cfg w).map BitVec.toNat
        = [(pack cfg w).toNat / 65536, (pack cfg w).toNat / 256 % 256, (pack cfg w).toNat % 256]

/-- R51: packing is injective, the neutral word packs to zeros, and the golden fixture holds, under every configuration that
meets R8; with the reference map the fixture is 50 00 00. -/
def Obligations.PackInjectiveNeutralGolden : Prop :=
  (∀ cfg : Config, cfg.valid = true →
    Function.Injective (pack cfg) ∧ packBytes cfg ControlWord.neutral = [0, 0, 0]
      ∧ packBytes cfg { ControlWord.neutral with writeTo := .mem } = [cfg.writeCode .mem ++ 0#4, 0, 0])
  ∧ packBytes Config.reference { ControlWord.neutral with writeTo := .mem } = [0x50, 0x00, 0x00]

/-- R53: packing and unpacking are inverse in both directions, for every configuration that meets R8. -/
def Obligations.PackUnpackRoundTrip : Prop :=
  ∀ cfg : Config, cfg.valid = true →
    (∀ w, ∃ b0 b1 b2, packBytes cfg w = [b0, b1, b2] ∧ unpack cfg b0 b1 b2 = .ok w)
    ∧ ∀ b0 b1 b2 w, unpack cfg b0 b1 b2 = .ok w → packBytes cfg w = [b0, b1, b2]

/-- R52, R60 and the unpack priority of R118: the unused bits are checked first, then the write code; with a valid
configuration no read code is unassigned, so every other cell unpacks. -/
def Obligations.UnpackRefusesInOrder : Prop :=
  ∀ (cfg : Config) (w : Word24), cfg.valid = true →
    (w.extractLsb' 9 2 ≠ 0#2 → unpackWord cfg w = .error (.unusedBitsSet w))
    ∧ (w.extractLsb' 9 2 = 0#2 → (∀ d, cfg.writeCode d ≠ w.extractLsb' 20 4) →
        unpackWord cfg w = .error (.unassignedWriteCode (w.extractLsb' 20 4)))
    ∧ (w.extractLsb' 9 2 = 0#2 → (∃ d, cfg.writeCode d = w.extractLsb' 20 4) → ∃ c, unpackWord cfg w = .ok c)

/-- R57, R58, R60: the word of every row of the table decodes to the instruction it stands for, a jump's with its immediate byte, and
every byte from 0x0E on is no opcode. The other operands are those of the reference row instances (R102), since the program
carries none: log entry 6. -/
def Obligations.TableWordsDecode : Prop :=
  decodeTableWord 8 0x00 = some (.add .A .A) ∧ decodeTableWord 8 0x01 = some (.sub .A .A)
    ∧ decodeTableWord 8 0x02 = some (.and .A .A) ∧ decodeTableWord 8 0x03 = some (.or .A .A)
    ∧ decodeTableWord 8 0x04 = some (.xor .A .A) ∧ decodeTableWord 8 0x05 = some (.cmp .A .A)
    ∧ decodeTableWord 8 0x06 = some (.shl .A) ∧ decodeTableWord 8 0x07 = some (.shr .A)
    ∧ decodeTableWord 8 0x08 = some (.mov (.reg .A) (.reg .A)) ∧ decodeTableWord 16 0x0409 = some (.jmp 0x04)
    ∧ decodeTableWord 16 0xFF0A = some (.jc 0xFF) ∧ decodeTableWord 16 0x000B = some (.jz 0x00)
    ∧ decodeTableWord 8 0x0C = some .nop ∧ decodeTableWord 8 0x0D = some .halt
    ∧ ∀ b, b < 0x100 → 0x0E ≤ b → decodeTableWord 8 b = none

/-- R58, R59, R102: what decoding an encoded instruction gives back. The program carries the variant and a jump's
immediate, so the jump family, nop and halt come back whole with every immediate, and any other variant comes back as its row
instance, whatever registers or endpoints it had. -/
def Obligations.DecodeAfterEncode : Prop :=
  ∀ (cfg : Config) (i : Instr) (rest : List Byte), cfg.valid = true →
    decode cfg (encode cfg i ++ rest) = .ok (rowForm cfg i, rest)
    ∧ (instrLength i.variant = 2 ∨ i = .nop ∨ i = .halt ∨ i = cfg.rowInstance i.variant →
        decode cfg (encode cfg i ++ rest) = .ok (i, rest))

/-- R57, R58: what `decode` reads, `encode` writes back, byte for byte. -/
def Obligations.EncodeAfterDecode : Prop :=
  ∀ (cfg : Config) (bytes rest : List Byte) (i : Instr), cfg.valid = true →
    decode cfg bytes = .ok (i, rest) → encode cfg i ++ rest = bytes

/-- R59: the length follows from the opcode byte alone, 2 for jmp, jc and jz and 1 otherwise. -/
def Obligations.LengthFromOpcodeByte : Prop :=
  ∀ (cfg : Config) (b : Byte) (rest rest' : List Byte) (i : Instr), cfg.valid = true →
    decode cfg (b :: rest) = .ok (i, rest') →
    cfg.decl[b.toNat]? = some i.variant
    ∧ (b :: rest).length
      = rest'.length + if b.toNat = opcode cfg .jmp ∨ b.toNat = opcode cfg .jc ∨ b.toNat = opcode cfg .jz then 2 else 1

/-- R93: with a declaration list that R8 accepts and that fits the index, `assign` answers the positions, which are a bijection
between the variants and 0 .. length - 1. -/
def Obligations.OpcodesAreDensePositions : Prop :=
  ∀ cfg : Config, cfg.valid = true → cfg.decl.length ≤ 2 ^ cfg.opcodeBits →
    ∃ opc, assign cfg = .ok opc ∧ (∀ v, cfg.decl[opc v]? = some v) ∧ Function.Injective opc
      ∧ (∀ v, opc v < cfg.decl.length) ∧ ∀ k, k < cfg.decl.length → ∃ v, opc v = k

/-- R96: assignment, and with it the build, fails exactly when the variants outnumber the index, before anything is
compiled; not with the reference parameters, and with OPCODE_BITS = 3. -/
def Obligations.ExhaustionIsFatal : Prop :=
  (∀ cfg : Config, 2 ^ cfg.opcodeBits < cfg.decl.length →
    assign cfg = .error (.opcodeSpaceExhausted cfg.decl.length cfg.opcodeBits)
    ∧ build cfg = .error (.opcodeSpaceExhausted cfg.decl.length cfg.opcodeBits))
  ∧ (∀ cfg : Config, cfg.decl.length ≤ 2 ^ cfg.opcodeBits → ∃ opc, assign cfg = .ok opc)
  ∧ assign { Config.reference with opcodeBits := 3 } = .error (.opcodeSpaceExhausted 14 3)
  ∧ Config.reference.decl.length ≤ 2 ^ Config.reference.opcodeBits

/-- R97, order-sensitive: swapping two declarations swaps their opcodes and moves no other. -/
def Obligations.SwappedDeclarationsSwapOpcodes : Prop :=
  ∀ (cfg : Config) (j k : Nat) (vj vk : Variant), cfg.valid = true → j ≠ k →
    cfg.decl[j]? = some vj → cfg.decl[k]? = some vk →
    let cfg' := { cfg with decl := (cfg.decl.set j vk).set k vj }
    opcode cfg' vj = k ∧ opcode cfg' vk = j ∧ ∀ v, v ≠ vj → v ≠ vk → opcode cfg' v = opcode cfg v

/-! ## The compiler -/

/-- R62, R88: `compile` answers a sequence for every well-formed value, but for jc, jz and nop under `Fail`, and then the error is
Unimplemented with the variant. -/
def Obligations.CompileIsTotalOnWellFormed : Prop :=
  ∀ (cfg : Config) (i : Instr), i.wf cfg = true →
    if cfg.unimpl = .fail ∧ isOpenPoint i.variant = true then compile cfg i = .error (.unimplemented i.variant)
    else ∃ seq, compile cfg i = .ok seq

/-- R71: the shape of every compiled sequence. -/
def Obligations.CompiledSequenceShape : Prop :=
  ∀ (cfg : Config) (i : Instr) (seq : List ControlWord), compile cfg i = .ok seq →
    (i ≠ .halt → seq[0]? = some fetch0 ∧ seq[1]? = some fetch1 ∧ seq[seq.length - 1]? = some epilogue
      ∧ ∀ k w, k < seq.length - 1 → seq[k]? = some w → w.stepReset = false)
    ∧ (i = .halt → seq = [haltWord])
    ∧ (i ≠ .halt → ∀ w ∈ seq, w.halt = false)
    ∧ ∀ w ∈ seq, w.bankSelectEnable = false

/-- R69: the lengths of the sequences, none of them above 5. -/
def Obligations.CompiledSequenceLengths : Prop :=
  (∀ (cfg : Config) (i : Instr) (seq : List ControlWord), compile cfg i = .ok seq →
    seq.length = sequenceLength i.variant ∧ seq.length ≤ 5)
  ∧ ∀ (cfg : Config) (i : Instr), cfg.unimpl = .fail → isOpenPoint i.variant = true → ∀ seq, compile cfg i ≠ .ok seq

/-- R82: the bytes of a move's execute word. -/
def Obligations.MoveWordBytes : Prop :=
  ∀ (cfg : Config) (dst : MoveDst) (src : MoveSrc) (d : WriteDst) (c : ReadSrc), cfg.valid = true →
    dstComp cfg dst = some d → srcComp cfg src = some c →
    ∃ w, compile cfg (.mov dst src) = .ok [fetch0, fetch1, w, epilogue]
      ∧ (packBytes cfg w).map BitVec.toNat
          = [(cfg.writeCode d).toNat <<< 4 ||| (cfg.readCode c).toNat <<< 1, 0, 0]

/-- R83: a literal that names a component with its own endpoint form gives the same sequence as that form. -/
def Obligations.LiteralEndpointsAreTheirComponents : Prop :=
  ∀ (cfg : Config) (dst : MoveDst) (src : MoveSrc), cfg.valid = true →
    (∀ r, compile cfg (.mov dst (.lit (cfg.readCode (.reg r)))) = compile cfg (.mov dst (.reg r))
      ∧ compile cfg (.mov (.lit (cfg.writeCode (.reg r))) src) = compile cfg (.mov (.reg r) src))
    ∧ compile cfg (.mov dst (.lit (cfg.readCode .bank))) = compile cfg (.mov dst .bank)
    ∧ compile cfg (.mov dst (.lit (cfg.readCode .acc))) = compile cfg (.mov dst .acc)
    ∧ compile cfg (.mov (.lit (cfg.writeCode .bank)) src) = compile cfg (.mov .bank src)
    ∧ compile cfg (.mov (.lit (cfg.writeCode .out)) src) = compile cfg (.mov .out src)

/-! ## The ROM image -/

/-- R100: length, cell contents and unpacking of a built image, for every configuration that meets R8; 336 bytes with the
reference parameters and LegacyEmpty. -/
def Obligations.BuiltImageCells : Prop :=
  (∀ (cfg : Config) (image : List Byte), cfg.valid = true → build cfg = .ok image →
    image.length = cfg.decl.length * cfg.steps * 3
    ∧ ∀ op v, cfg.decl[op]? = some v → ∃ seq, compile cfg (cfg.rowInstance v) = .ok seq
      ∧ ∀ s, s < cfg.steps →
        (∀ k, k < 3 → image[(op * cfg.steps + s) * 3 + k]? = (packBytes cfg (rowWord cfg seq s))[k]?)
        ∧ unpackCell cfg image op s = .ok (rowWord cfg seq s))
  ∧ ∃ image, build Config.legacy = .ok image ∧ image.length = 336

/-- R105: under LegacyEmpty the build fails with SequenceTooLong exactly when `STEPS < 5`, naming a variant, its opcode, the
length of its sequence and `STEPS`. -/
def Obligations.ShortRowsFailTheBuild : Prop :=
  ∀ cfg : Config, cfg.valid = true → cfg.rowsWellFormed = true → cfg.unimpl = .legacyEmpty →
    cfg.decl.length ≤ 2 ^ cfg.opcodeBits →
    (5 ≤ cfg.steps → ∃ image, build cfg = .ok image)
    ∧ (cfg.steps < 5 → ∃ v op seq, cfg.decl[op]? = some v ∧ compile cfg (cfg.rowInstance v) = .ok seq
        ∧ cfg.steps < seq.length ∧ build cfg = .error (.sequenceTooLong v op seq.length cfg.steps))

/-- R106, for every configuration whose row instances are well-formed: exhaustion first; else the failure of the lowest opcode
that has one; else an image. The reference parameters fail at jc, opcode 10, and with STEPS = 4 at jmp. -/
def Obligations.BuildReportsFirstError : Prop :=
  (∀ cfg : Config, cfg.valid = true → cfg.rowsWellFormed = true →
    (2 ^ cfg.opcodeBits < cfg.decl.length →
      build cfg = .error (.opcodeSpaceExhausted cfg.decl.length cfg.opcodeBits))
    ∧ (cfg.decl.length ≤ 2 ^ cfg.opcodeBits →
      (∀ op v e, cfg.decl[op]? = some v → rowFailure cfg op v = some e →
        (∀ j u, j < op → cfg.decl[j]? = some u → rowFailure cfg j u = none) → build cfg = .error e)
      ∧ ((∀ j u, cfg.decl[j]? = some u → rowFailure cfg j u = none) → ∃ image, build cfg = .ok image)))
  ∧ build Config.reference = .error (.unimplemented .jc 10)
  ∧ build { Config.legacy with steps := 4 } = .error (.sequenceTooLong .jmp 9 5 4)
  ∧ build { Config.reference with steps := 4 } = .error (.sequenceTooLong .jmp 9 5 4)

/-- R131: every row of a built image but halt's holds the prologue at steps 0 and 1, and halt's row its halt word at step 0. -/
def Obligations.EveryRowHoldsThePrologue : Prop :=
  ∀ (cfg : Config) (image : List Byte) (op : Nat) (v : Variant), cfg.valid = true → build cfg = .ok image →
    cfg.decl[op]? = some v →
    (v ≠ .halt → unpackCell cfg image op 0 = .ok fetch0 ∧ unpackCell cfg image op 1 = .ok fetch1)
    ∧ (v = .halt → unpackCell cfg image op 0 = .ok haltWord)

/-- R135: step 3 of each row of the reference image: the epilogue in rows 0 to 8, MEM to PC in row 9, padding in rows 10 to
13. -/
def Obligations.ReferenceImageStepThree : Prop :=
  ∀ op, op < 14 → unpackCell Config.legacy (builtImage Config.legacy) op 3
    = .ok (if op < 9 then epilogue
        else if op = 9 then { ControlWord.neutral with readFrom := .mem, writeTo := .pc } else ControlWord.neutral)

/-! ## The bench -/

/-- R111: the ALU's arms as numbers and as bits, and the refusal of every other selector combination. -/
def Obligations.AluComputesTheTable : Prop :=
  ∀ (w : ControlWord) (l r : Byte),
    (w.aluLogic = .b → w.aluShift = .passThrough → ∃ x, benchAlu w l r = .ok x
      ∧ x.toNat = if w.aluSubtract then (l.toNat + 256 - r.toNat) % 256 else (l.toNat + r.toNat) % 256)
    ∧ (w.aluShift = .noShift → w.aluSubtract = false → ∃ x, benchAlu w l r = .ok x
      ∧ ∀ k, k < 8 → x.getLsbD k = logicBit w.aluLogic (l.getLsbD k) (r.getLsbD k))
    ∧ (w.aluLogic = .zero → w.aluShift = .shiftLeft → w.aluSubtract = false →
      ∃ x, benchAlu w l r = .ok x ∧ x.toNat = l.toNat * 2 % 256)
    ∧ (w.aluLogic = .zero → w.aluShift = .shiftRight → w.aluSubtract = false →
      ∃ x, benchAlu w l r = .ok x ∧ x.toNat = l.toNat / 2)
    ∧ (¬(w.aluLogic = .b ∧ w.aluShift = .passThrough) → ¬(w.aluShift = .noShift ∧ w.aluSubtract = false) →
      ¬(w.aluLogic = .zero ∧ (w.aluShift = .shiftLeft ∨ w.aluShift = .shiftRight) ∧ w.aluSubtract = false) →
      benchAlu w l r = .error (.aluUnmodelled w.aluLogic w.aluShift w.aluSubtract))

/-- R118, one cycle: bank select before the PC conflict, both before every unwritten read; for MEM, MAR before the cell; for
ACC, the left input before the right one and both before the ALU; the latch's MAR after everything the driver can fault with. -/
def Obligations.BenchFaultPriority : Prop :=
  ∀ (s : State) (w : ControlWord),
    (w.bankSelectEnable = true → benchCycle s w = .error .bankSelectUnmodelled)
    ∧ (w.bankSelectEnable = false → w.programCounterEnable = true → w.writeTo = .pc →
        benchCycle s w = .error .pcWriteConflict)
    ∧ (w.bankSelectEnable = false → ¬(w.programCounterEnable = true ∧ w.writeTo = .pc) →
        selfTransfer w.readFrom w.writeTo = false →
        (∀ r, w.readFrom = .reg r → readReg s.regs r = none → benchCycle s w = .error (.unwrittenRead (.reg r)))
        ∧ (w.readFrom = .bank → s.bank = none → benchCycle s w = .error (.unwrittenRead .bank))
        ∧ (w.readFrom = .mem → s.mar = none → benchCycle s w = .error (.unwrittenRead .mar))
        ∧ (∀ a, w.readFrom = .mem → s.mar = some a → readMem s.mem a = none →
            benchCycle s w = .error (.unwrittenRead (.mem a)))
        ∧ (w.readFrom = .acc → readReg s.regs w.aluLeft = none →
            benchCycle s w = .error (.unwrittenRead (.reg w.aluLeft)))
        ∧ (∀ l, w.readFrom = .acc → readReg s.regs w.aluLeft = some l → readReg s.regs w.aluRight = none →
            benchCycle s w = .error (.unwrittenRead (.reg w.aluRight)))
        ∧ (∀ l r f, w.readFrom = .acc → readReg s.regs w.aluLeft = some l → readReg s.regs w.aluRight = some r →
            benchAlu w l r = .error f → benchCycle s w = .error f)
        ∧ (∀ f, drive s w = .error f → benchCycle s w = .error f)
        ∧ (∀ v, drive s w = .ok v → w.writeTo = .mem → s.mar = none →
            benchCycle s w = .error (.unwrittenRead .mar)))

/-- R84, R110: a word with the same storage on both sides changes nothing but the PC it may increment, whatever was never
written. -/
def Obligations.SelfTransferReadsNothing : Prop :=
  ∀ (s : State) (w : ControlWord), w.bankSelectEnable = false → selfTransfer w.readFrom w.writeTo = true →
    (w.programCounterEnable = false → benchCycle s w = .ok s)
    ∧ (w.programCounterEnable = true → w.writeTo ≠ .pc → benchCycle s w = .ok (s.withPc (s.pc + 1)))

/-! ## The meanings: results and completion -/

/-- R73 to R77: add, sub, and, or, xor complete with the result in the first register, and everything else as after the
fetch. -/
def Obligations.TwoOperandAluCompletes : Prop :=
  ∀ (i : Instr) (s : State) (r1 r2 : Reg) (f : Byte → Byte → Byte) (op a b : Byte),
    twoOperandResult i = some (r1, r2, f) →
    readMem s.mem s.pc = some op → op.toNat = opcode s.cfg i.variant →
    readReg s.regs r1 = some a → readReg s.regs r2 = some b →
    exec i s = .next ((s.fetched op).withReg r1 (f a b))

/-- R78: cmp completes and changes nothing but what its fetch changes, whether or not its registers were ever written. -/
def Obligations.CmpCompletes : Prop :=
  ∀ (s : State) (r1 r2 : Reg) (op : Byte), readMem s.mem s.pc = some op → op.toNat = opcode s.cfg .cmp →
    exec (.cmp r1 r2) s = .next (s.fetched op)

/-- R79, R80: the shifts complete with the register shifted by one, a 0 entering. -/
def Obligations.ShiftsComplete : Prop :=
  ∀ (s : State) (r : Reg) (op a : Byte), readMem s.mem s.pc = some op → readReg s.regs r = some a →
    (op.toNat = opcode s.cfg .shl →
      exec (.shl r) s = .next ((s.fetched op).withReg r (BitVec.ofNat 8 (a.toNat * 2))))
    ∧ (op.toNat = opcode s.cfg .shr →
      exec (.shr r) s = .next ((s.fetched op).withReg r (BitVec.ofNat 8 (a.toNat / 2))))

/-- R81, R85: a move whose endpoints name different storage completes with the source's value in the destination. -/
def Obligations.MovCompletes : Prop :=
  ∀ (s : State) (dst : MoveDst) (src : MoveSrc) (d : WriteDst) (c : ReadSrc) (op v : Byte),
    dstComp s.cfg dst = some d → srcComp s.cfg src = some c → selfTransfer c d = false →
    readMem s.mem s.pc = some op → op.toNat = opcode s.cfg .mov → movSource s op c = some v →
    exec (.mov dst src) s = .next (movTarget s op v d)

/-- R84: a move of a component to itself completes as an identity, whether or not it was ever written. -/
def Obligations.MovSelfTransferCompletes : Prop :=
  ∀ (s : State) (dst : MoveDst) (src : MoveSrc) (d : WriteDst) (c : ReadSrc) (op : Byte),
    dstComp s.cfg dst = some d → srcComp s.cfg src = some c → selfTransfer c d = true →
    readMem s.mem s.pc = some op → op.toNat = opcode s.cfg .mov →
    exec (.mov dst src) s = .next (s.fetched op)

/-- R87: the jump completes with the byte after its opcode in the PC and that byte's address in MAR. -/
def Obligations.JmpCompletes : Prop :=
  ∀ (s : State) (imm target op : Byte), readMem s.mem s.pc = some op → op.toNat = opcode s.cfg .jmp →
    readMem s.mem (s.pc + 1) = some target →
    exec (.jmp imm) s = .next (((s.fetched op).withMar (s.pc + 1)).withPc target)

/-- R88 to R91 under LegacyEmpty: jc, jz and nop complete with nothing changed but what the fetch changes; the immediate byte is
not consumed. -/
def Obligations.OpenPointCompletesUnderLegacy : Prop :=
  ∀ (i : Instr) (s : State) (op : Byte), isOpenPoint i.variant = true → s.cfg.unimpl = .legacyEmpty →
    readMem s.mem s.pc = some op → op.toNat = opcode s.cfg i.variant →
    exec i s = .next (s.fetched op)

/-- R88 under Fail, R114: jc, jz and nop fault with Unimplemented before any cycle. -/
def Obligations.OpenPointFaultsUnderFail : Prop :=
  ∀ (i : Instr) (s : State), isOpenPoint i.variant = true → s.cfg.unimpl = .fail →
    exec i s = .fault (.unimplemented i.variant) ∧ (runInstr i s).cycles = 0 ∧ (runInstr i s).state = s

/-- R92, R114: halt completes at once, in one cycle, with HALTED set and nothing else changed. -/
def Obligations.HaltCompletes : Prop :=
  ∀ s : State, exec .halt s = .next s.withHalted ∧ (runInstr .halt s).cycles = 1

/-! ## The meanings: where they stop -/

/-- R114, R117: a fetch from a cell never written faults, and so does a byte that is not the instruction's opcode, both after two
cycles. -/
def Obligations.FetchFaults : Prop :=
  ∀ (i : Instr) (s : State) (seq : List ControlWord), compile s.cfg i = .ok seq → i ≠ .halt →
    (readMem s.mem s.pc = none →
      exec i s = .fault (.unwrittenRead (.mem s.pc)) ∧ (runInstr i s).cycles = 2)
    ∧ ∀ b, readMem s.mem s.pc = some b → b.toNat ≠ opcode s.cfg i.variant →
      exec i s = .fault (.programMismatch s.pc b) ∧ (runInstr i s).cycles = 2

/-- R73 to R80, R118: an ALU operand never written faults, the left one first, after three cycles and with the state of the
fetch. -/
def Obligations.UnwrittenOperandsFault : Prop :=
  ∀ (i : Instr) (s : State) (op : Byte), readMem s.mem s.pc = some op → op.toNat = opcode s.cfg i.variant →
    (∀ r1 r2 f, twoOperandResult i = some (r1, r2, f) →
      (readReg s.regs r1 = none → runInstr i s = ⟨s.fetched op, 3, some (.unwrittenRead (.reg r1))⟩)
      ∧ ∀ a, readReg s.regs r1 = some a → readReg s.regs r2 = none →
        runInstr i s = ⟨s.fetched op, 3, some (.unwrittenRead (.reg r2))⟩)
    ∧ ∀ r, (i = .shl r ∨ i = .shr r) → readReg s.regs r = none →
      runInstr i s = ⟨s.fetched op, 3, some (.unwrittenRead (.reg r))⟩

/-- R81, R117: a move from a register, the accumulator or BANK never written faults with the state of the fetch. -/
def Obligations.UnwrittenMoveSourceFaults : Prop :=
  ∀ (s : State) (dst : MoveDst) (src : MoveSrc) (d : WriteDst) (c : ReadSrc) (op : Byte),
    dstComp s.cfg dst = some d → srcComp s.cfg src = some c → selfTransfer c d = false →
    readMem s.mem s.pc = some op → op.toNat = opcode s.cfg .mov → movSource s op c = none →
    runInstr (.mov dst src) s = ⟨s.fetched op, 3, some (.unwrittenRead (movSourceCell c))⟩

/-- R87: a jump whose immediate byte was never written faults in its fourth cycle, with MAR already at that byte. -/
def Obligations.UnwrittenJumpTargetFaults : Prop :=
  ∀ (s : State) (imm op : Byte), readMem s.mem s.pc = some op → op.toNat = opcode s.cfg .jmp →
    readMem s.mem (s.pc + 1) = none →
    runInstr (.jmp imm) s
      = ⟨(s.fetched op).withMar (s.pc + 1), 4, some (.unwrittenRead (.mem (s.pc + 1)))⟩

/-- R55: a move that is no well-formed value stops with MalformedInstruction, the destination named first. That it stops at
run time is the model's choice (log entry 10): the spec lets no such value be constructed. -/
def Obligations.MalformedMoveStops : Prop :=
  ∀ (s : State) (dst : MoveDst) (src : MoveSrc),
    (dst.wf s.cfg = false →
      ∃ a, dst = .lit a ∧ exec (.mov dst src) s = .fault (.malformedInstruction ⟨.mov, .dst, a.toNat⟩))
    ∧ (dst.wf s.cfg = true → src.wf s.cfg = false →
      ∃ a, src = .lit a ∧ exec (.mov dst src) s = .fault (.malformedInstruction ⟨.mov, .src, a.toNat⟩))

/-- R111, R114, R117: a well-formed instruction is never refused, and the only faults it can end in are an unwritten read, a
program mismatch and, for jc, jz and nop under Fail, Unimplemented: no compiled word is an unmodelled ALU word. -/
def Obligations.WellFormedInstructionFaults : Prop :=
  ∀ (i : Instr) (s : State), i.wf s.cfg = true →
    (∃ t, exec i s = .next t) ∨ (∃ c, exec i s = .fault (.unwrittenRead c))
      ∨ (∃ b, exec i s = .fault (.programMismatch s.pc b))
      ∨ (s.cfg.unimpl = .fail ∧ isOpenPoint i.variant = true ∧ exec i s = .fault (.unimplemented i.variant))

/-! ## Frames -/

/-- Frame of the ALU family (R72 to R80): only the destination register, PC, MAR and IR change, MAR to the opcode's address and IR to
its byte; no byte of memory does. -/
def Obligations.AluFrame : Prop :=
  ∀ (i : Instr) (s t : State), isAlu i.variant = true → exec i s = .next t →
    (∀ r, aluDest i ≠ some r → readReg t.regs r = readReg s.regs r)
    ∧ (∀ a, readMem t.mem a = readMem s.mem a)
    ∧ t.bank = s.bank ∧ t.out = s.out ∧ t.halted = s.halted ∧ t.stepCount = s.stepCount ∧ sameFixed s t
    ∧ t.mar = some s.pc ∧ readMem s.mem s.pc = some t.ir ∧ t.pc = s.pc + 1

/-- Frame of mov (R81, R85, R134): only the component its destination names changes beside PC, MAR and IR; memory changes at most
at the address MAR holds after the fetch, which is the opcode's own, and only for a destination MEM. -/
def Obligations.MovFrame : Prop :=
  ∀ (s t : State) (dst : MoveDst) (src : MoveSrc) (d : WriteDst), dstComp s.cfg dst = some d →
    exec (.mov dst src) s = .next t →
    (∀ r, d ≠ .reg r → readReg t.regs r = readReg s.regs r)
    ∧ (d ≠ .mem → ∀ x, readMem t.mem x = readMem s.mem x)
    ∧ (∀ b a, readMem s.mem s.pc = some b → (s.fetched b).mar = some a →
        a = s.pc ∧ ∀ x, x ≠ a → readMem t.mem x = readMem s.mem x)
    ∧ (d ≠ .bank → t.bank = s.bank) ∧ (d ≠ .out → t.out = s.out)
    ∧ (d ≠ .mar → t.mar = some s.pc) ∧ (d ≠ .ir → readMem s.mem s.pc = some t.ir) ∧ (d ≠ .pc → t.pc = s.pc + 1)
    ∧ t.halted = s.halted ∧ t.stepCount = s.stepCount ∧ sameFixed s t

/-- Frame of the jump family, nop and halt (R87 to R92): no register, no byte of memory, not BANK, not OUT; halt changes HALTED
alone. -/
def Obligations.ControlFlowFrame : Prop :=
  ∀ (i : Instr) (s t : State),
    (i.variant = .jmp ∨ i.variant = .jc ∨ i.variant = .jz ∨ i.variant = .nop ∨ i.variant = .halt) →
    exec i s = .next t →
    (∀ r, readReg t.regs r = readReg s.regs r) ∧ (∀ a, readMem t.mem a = readMem s.mem a)
    ∧ t.bank = s.bank ∧ t.out = s.out ∧ t.stepCount = s.stepCount ∧ sameFixed s t
    ∧ (i = .halt → t = s.withHalted)
    ∧ (i ≠ .halt → t.halted = s.halted ∧ readMem s.mem s.pc = some t.ir)
    ∧ (i.variant = .jmp → t.mar = some (s.pc + 1))
    ∧ (i.variant = .jc ∨ i.variant = .jz ∨ i.variant = .nop → t.mar = some s.pc ∧ t.pc = s.pc + 1)

/-- R24, R115, R124 and R134 over all instructions: only a jump, a move to PC and halt leave a PC that is not one further; only a
move to BANK, OUT or MEM changes those, OUT by one byte at its end; only halt stops the machine. -/
def Obligations.OnlyNamedInstructionsWriteSpecialState : Prop :=
  ∀ (i : Instr) (s t : State), exec i s = .next t →
    (t.pc = s.pc + 1 ∨ i.variant = .jmp ∨ (i = .halt ∧ t.pc = s.pc)
      ∨ ∃ dst src, i = .mov dst src ∧ dstComp s.cfg dst = some .pc)
    ∧ (t.bank = s.bank ∨ ∃ dst src, i = .mov dst src ∧ dstComp s.cfg dst = some .bank)
    ∧ (t.out = s.out ∨ ∃ dst src v, i = .mov dst src ∧ dstComp s.cfg dst = some .out ∧ t.out = s.out ++ [v])
    ∧ (t.mem = s.mem ∨ ∃ dst src v, i = .mov dst src ∧ dstComp s.cfg dst = some .mem
        ∧ t.mem = writeMem s.mem s.pc v)
    ∧ (t.halted = s.halted ∨ i = .halt)

/-! ## The machines -/

/-- R112, R131, R136: M1 at the start of an instruction, with a built image, runs the instruction the bytes at PC decode to, or,
where a jump's immediate byte was never written and nothing decodes, the one whose row the opcode byte names: the step is its
meaning, and nothing is added around it. A fetch of a cell never written faults in the second cycle. Halt is the next
statement's, a mov row that writes IR is MoveToIrChangesRow's, a byte without a row ByteWithoutRowFaults'. -/
def Obligations.StepRunsDecodedInstruction : Prop :=
  ∀ s : State, s.built → s.atFetch →
    (∀ i, ((∃ rest, decode s.cfg (bytesAt s) = .ok (i, rest)) ∨ s.rowAtPc i) → i ≠ .halt →
      (i.variant = .mov → rowsKeepIr s.cfg) → step s = exec i s)
    ∧ (readMem s.mem s.pc = none →
      m1Instruction s = ⟨(s.withMar s.pc).withStep 1, 2, some (.unwrittenRead (.mem s.pc))⟩
      ∧ step s = .fault (.unwrittenRead (.mem s.pc)))

/-- R132: M1 on halt runs the prologue of the previous row and the padding before halt's word, so the stop is halt's meaning after the
fetch, STEPS + 1 cycles after it began. -/
def Obligations.StepRunsHaltAfterPrologue : Prop :=
  ∀ (s : State) (b : Byte), s.built → s.cfg.pad = ControlWord.neutral → s.atFetch →
    readMem s.mem s.pc = some b → b.toNat = opcode s.cfg .halt →
    step s = exec .halt (s.fetched b) ∧ step s = .next (s.fetched b).withHalted
      ∧ (m1Instruction s).cycles = s.cfg.steps + 1

/-- R114: a step of M2 runs the program's instruction at PC through its meaning; without one it faults; halted, it stays. -/
def Obligations.SequenceStepRunsProgram : Prop :=
  ∀ s : State, s.drive = .sequence →
    (s.halted = true → step s = .next s)
    ∧ (s.halted = false → ∀ i, programAt s.prog s.pc.toNat = some i → step s = exec i s)
    ∧ (s.halted = false → programAt s.prog s.pc.toNat = none → step s = .fault (.noInstructionAtPC s.pc))

/-- R112, R118: a fetched byte that has no row stops M1 with OpcodeOutOfImage after two cycles, with the state of the fetch and STEP 2. -/
def Obligations.ByteWithoutRowFaults : Prop :=
  ∀ (s : State) (b : Byte), s.built → s.atFetch → readMem s.mem s.pc = some b → s.cfg.decl.length ≤ b.toNat →
    m1Instruction s = ⟨(s.fetched b).withStep 2, 2, some (.opcodeOutOfImage b)⟩
    ∧ step s = .fault (.opcodeOutOfImage b)

/-- R113: the cycles M1 takes for the instruction its row runs, where no fault ends it: for mov, with a mov row that does not write
IR (the hazard of R135); for halt, with padding that does nothing (R132). -/
def Obligations.CyclesPerInstruction : Prop :=
  ∀ (s : State) (i : Instr), s.built → s.atFetch → s.rowAtPc i → (i.variant = .mov → rowsKeepIr s.cfg) →
    (i = .halt → s.cfg.pad = ControlWord.neutral) → (m1Instruction s).fault = none →
    (m1Instruction s).cycles = m1CycleCount s.cfg i.variant

/-- R135: a mov row that writes IR moves M1 to another row at once. Its execute word leaves the bus value in IR and 3 in STEP, the
next cell is step 3 of the row the new IR names, or there is none and M1 faults. The clause on `m1Instruction`, that the step goes on
from there with the STEPS - 2 cycles left of its STEPS + 1, states the model's cap on the cycles of one step, log entry 4, and no
rule: from the row of jc, jz or nop such a step ends after the next FETCH0, and the next step goes on. -/
def Obligations.MoveToIrChangesRow : Prop :=
  ∀ (s : State) (b v : Byte) (c : ReadSrc), s.built → s.atFetch → readMem s.mem s.pc = some b →
    b.toNat = opcode s.cfg .mov → dstComp s.cfg s.cfg.rows.mov.1 = some .ir → srcComp s.cfg s.cfg.rows.mov.2 = some c →
    movSource s b c = some v →
    m1Clock 3 s = ⟨((s.fetched b).withIr v).withStep 3, 3, none⟩
    ∧ m1Instruction s = m1Cycles true (s.cfg.steps - 2) 3 (((s.fetched b).withIr v).withStep 3)
    ∧ (∀ x, s.cfg.decl[v.toNat]? = some x → ∃ seq, compile s.cfg (s.cfg.rowInstance x) = .ok seq
        ∧ readCell (((s.fetched b).withIr v).withStep 3) = .ok (rowWord s.cfg seq 3))
    ∧ (s.cfg.decl.length ≤ v.toNat →
        m1Instruction s = ⟨((s.fetched b).withIr v).withStep 3, 3, some (.opcodeOutOfImage v)⟩
        ∧ step s = .fault (.opcodeOutOfImage v))

/-- R114, last paragraph, as a lemma about one step that can be applied again: from paired states, on a row instance that is no halt
and, for mov, writes no IR, M1 and M2 come to paired states, or both fault alike. -/
def Obligations.MachinesAgreeOnRowInstances : Prop :=
  ∀ (s1 s2 : State) (i : Instr), Paired s1 s2 → s1.rowAtPc i → i ≠ .halt → (i.variant = .mov → rowsKeepIr s1.cfg) →
    programAt s2.prog s2.pc.toNat = some i →
    (∀ t1, step s1 = .next t1 → ∃ t2, step s2 = .next t2 ∧ Paired t1 t2)
    ∧ (∀ t2, step s2 = .next t2 → ∃ t1, step s1 = .next t1 ∧ Paired t1 t2)
    ∧ ∀ f, step s1 = .fault f ↔ step s2 = .fault f

/-- R112 "a built image never fails here", R117: M1 on a built image with neutral padding can end a step only in a next state or in
the faults UnwrittenRead and OpcodeOutOfImage, from every state whose step counter is in range. -/
def Obligations.BuiltMachineFaults : Prop :=
  ∀ s : State, s.built → s.cfg.pad = ControlWord.neutral → s.drive = .rom → s.stepCount < s.cfg.steps →
    (∃ t, step s = .next t) ∨ (∃ c, step s = .fault (.unwrittenRead c))
      ∨ ∃ b, step s = .fault (.opcodeOutOfImage b)

/-- R124: a halt word stops the machine, a stopped machine's cycles change nothing, however many, and reset leaves the stop. -/
def Obligations.HaltedUntilReset : Prop :=
  (∀ (s : State) (w : ControlWord), w.halt = true → runCell s w = .ok s.withHalted)
  ∧ (∀ s : State, exec .halt s = .next s.withHalted)
  ∧ (∀ s : State, s.halted = true → m1Cycle s = .ok s ∧ ∀ t, Reaches s t → t = s)
  ∧ ∀ (s : State) (l : Load), (restart s l).halted = false

/-- R13, R41, R114: no step writes the configuration, the ROM image or M2's program, nor the record of what the loader put in program
memory, and the output log only grows (R115), over any number of steps. That it does not write the choice of machine either is about
the model's own field, log entry 1, and no rule of the spec. -/
def Obligations.RomAndConfigurationNeverChange : Prop :=
  ∀ s t : State, Reaches s t → sameFixed s t ∧ s.out <+: t.out

/-- The invariant of R26, R27 and R29 is kept by every step, from every state that meets it: memory, the loader's contents and the
program stay in canonical form, and STEP below STEPS. -/
def Obligations.EveryStepKeepsTheInvariant : Prop :=
  ∀ s t : State, s.inv → step s = .next t → t.inv

/-- The invariant holds after reset, and of what a restart makes of any state with a step count of at least one, a program map in form
and the loader's contents in form (R28, R128). -/
def Obligations.ResetMeetsTheInvariant : Prop :=
  State.reset.inv ∧ ∀ (s : State) (l : Load), 1 ≤ s.cfg.steps → Program.wf s.prog = true → Memory.wf s.loaded = true →
    (restart s l).inv

/-- R28, R128, R129: the values reset leaves, in the state after reset and when reset is applied to any state; program memory holds what
the loader put there and nothing elsewhere. What the loader then puts in is all that differs: its registers, BANK and IR, and its
cells over those put in before. That the last of its cells for an address wins, and that IR can be preset, is the model's choice,
log entry 17. That a cell the program wrote goes back to the loader's byte, or to none, and that configuration,
M2's program and the choice of machine are not reset, is the model's reading, log entry 11. -/
def Obligations.ResetValues : Prop :=
  (∀ s t : State, (t = State.reset ∨ t = resetState s) →
    t.ir = 0x00 ∧ t.stepCount = 0 ∧ t.halted = false ∧ t.pc = 0x00 ∧ t.out = [] ∧ t.mar = none ∧ t.bank = none
    ∧ (∀ r, readReg t.regs r = none) ∧ t.mem = t.loaded)
  ∧ (∀ a, readMem State.reset.mem a = none)
  ∧ (∀ s : State, sameFixed s (resetState s))
  ∧ ∀ (s : State) (l : Load),
    (restart s l).regs = l.regs ∧ (restart s l).bank = l.bank ∧ (restart s l).ir = l.ir
    ∧ (∀ a, readMem (restart s l).mem a = (loadedByte l.cells a).or (readMem s.loaded a))
    ∧ (restart s l).mem = (restart s l).loaded
    ∧ (restart s l).pc = 0x00 ∧ (restart s l).mar = none ∧ (restart s l).out = [] ∧ (restart s l).stepCount = 0
    ∧ (restart s l).halted = false ∧ (restart s l).cfg = s.cfg ∧ (restart s l).rom = s.rom ∧ (restart s l).prog = s.prog
    ∧ (restart s l).drive = s.drive

/-- R128, R129: reset brings back, from wherever a run of a booted machine has come to, the ROM image and the program memory it was
booted with, and M2's program; the program starts again at 0x00. That bytes the program stored do not survive is the model's
reading, log entry 11. -/
def Obligations.ResetRestoresTheLoadedProgram : Prop :=
  ∀ (cfg : Config) (program : List (Byte × Instr)) (l : Load) (s t : State),
    (bootM1 cfg l = .ok s ∨ bootM2 cfg program l = .ok s) → Reaches s t →
    (resetState t).mem = s.mem ∧ (resetState t).rom = s.rom ∧ (resetState t).prog = s.prog ∧ (resetState t).cfg = s.cfg
      ∧ (resetState t).pc = 0x00 ∧ (resetState t).halted = false

/-- R128, R129: in every state with a built image and the reset values of IR, STEP, PC and HALTED, whatever the loader preset, the first
cycle reads cell [0][0], the word FETCH0, so the first instruction is fetched from 0x00; for every DECL whose first variant is not
halt. -/
def Obligations.FirstCycleAfterReset : Prop :=
  ∀ s : State, s.built → s.cfg.decl[0]? ≠ some .halt → s.ir = 0x00 → s.stepCount = 0 → s.pc = 0x00 → s.halted = false →
    unpackCell s.cfg s.rom 0 0 = .ok fetch0 ∧ readCell s = .ok fetch0
    ∧ m1Cycle s = .ok ((s.withMar 0x00).withStep 1)

/-- R138: an opcode at 0xFF leaves PC = 0x00 where the instruction does not itself write the PC, and a jump there reads its
immediate from 0x00. -/
def Obligations.ProgramCounterWraps : Prop :=
  ∀ (s : State) (op : Byte), s.pc = 0xFF → readMem s.mem 0xFF = some op →
    (∀ i t, i.variant ≠ .jmp → i ≠ .halt → (∀ dst src, i = .mov dst src → dstComp s.cfg dst ≠ some .pc) →
      exec i s = .next t → t.pc = 0x00)
    ∧ ∀ imm target, op.toNat = opcode s.cfg .jmp → readMem s.mem 0x00 = some target →
      ∃ t, exec (.jmp imm) s = .next t ∧ t.pc = target ∧ t.mar = some 0x00
end

