-- ==== Sys2Proof/Laws/Memory.lean ====
section
/-! SUPPORT. Laws of program memory and of M2's program map: read after write, and the canonical form is kept. -/

namespace Sys2Proof.Machine

open Sys2Proof

theorem cellAt_putCell (m : Memory) (a : Nat) (v : Byte) (b : Nat) :
    cellAt (putCell m a v) b = if b = a then some v else cellAt m b := by
  induction m with
  | nil => by_cases h : b = a <;> simp [putCell, cellAt, unlistedCell, h, eq_comm (a := a)]
  | cons e m ih =>
    obtain ⟨k, x⟩ := e
    rcases Nat.lt_trichotomy a k with h | h | h
    · simp [putCell, cellAt, h, eq_comm (a := a)]
    · subst h
      by_cases hb : b = a <;> simp [putCell, cellAt, hb, eq_comm (a := a)]
    · have h1 : ¬ a < k := by omega
      have h2 : ¬ a = k := by omega
      by_cases hk : k = b
      · subst hk
        have hb : ¬ k = a := by omega
        simp [putCell, cellAt, h1, h2, hb]
      · simp [putCell, cellAt, h1, h2, hk, ih]

/-- A byte just written reads back (R10). -/
@[simp] theorem readMem_writeMem_same (m : Memory) (a v : Byte) : readMem (writeMem m a v) a = some v := by
  simp [readMem, writeMem, cellAt_putCell]

/-- A write leaves every other cell alone. -/
theorem readMem_writeMem_other (m : Memory) {a b : Byte} (v : Byte) (h : b ≠ a) :
    readMem (writeMem m a v) b = readMem m b := by
  have : b.toNat ≠ a.toNat := fun e => h (BitVec.eq_of_toNat_eq e)
  simp [readMem, writeMem, cellAt_putCell, this]

theorem readMem_writeMem (m : Memory) (a v b : Byte) :
    readMem (writeMem m a v) b = if b = a then some v else readMem m b := by
  by_cases h : b = a
  · subst h
    simp
  · rw [if_neg h, readMem_writeMem_other m v h]

theorem risingFrom_putCell (m : Memory) (lo a : Nat) (v : Byte) (hlo : lo ≤ a) (ha : a < 256)
    (h : risingFrom lo (m.map Prod.fst) = true) : risingFrom lo ((putCell m a v).map Prod.fst) = true := by
  induction m generalizing lo with
  | nil => simp [putCell, risingFrom, hlo, ha]
  | cons e m ih =>
    obtain ⟨k, x⟩ := e
    simp only [List.map_cons, risingFrom, Bool.and_eq_true, decide_eq_true_eq] at h
    obtain ⟨⟨h1, h2⟩, h3⟩ := h
    unfold putCell
    split_ifs with c1 c2
    · simp only [List.map_cons, risingFrom, Bool.and_eq_true, decide_eq_true_eq]
      exact ⟨⟨hlo, ha⟩, ⟨by omega, h2⟩, h3⟩
    · subst c2
      simp only [List.map_cons, risingFrom, Bool.and_eq_true, decide_eq_true_eq]
      exact ⟨⟨hlo, ha⟩, h3⟩
    · simp only [List.map_cons, risingFrom, Bool.and_eq_true, decide_eq_true_eq]
      exact ⟨⟨h1, h2⟩, ih (k + 1) (by omega) h3⟩

/-- Every write keeps the canonical form of memory. -/
theorem writeMem_wf {m : Memory} (a v : Byte) (h : Memory.wf m = true) : Memory.wf (writeMem m a v) = true :=
  risingFrom_putCell m 0 a.toNat v (Nat.zero_le _) a.isLt h

/-- The loader's writes keep the canonical form of memory. -/
theorem writeCells_wf (cs : List (Byte × Byte)) {m : Memory} (h : Memory.wf m = true) :
    Memory.wf (writeCells m cs) = true := by
  induction cs generalizing m with
  | nil => exact h
  | cons c cs ih => exact ih (writeMem_wf c.1 c.2 h)

theorem risingFrom_putInstr (p : Program) (lo a : Nat) (i : Instr) (hlo : lo ≤ a) (ha : a < 256)
    (h : risingFrom lo (p.map Prod.fst) = true) : risingFrom lo ((putInstr p a i).map Prod.fst) = true := by
  induction p generalizing lo with
  | nil => simp [putInstr, risingFrom, hlo, ha]
  | cons e p ih =>
    obtain ⟨k, x⟩ := e
    simp only [List.map_cons, risingFrom, Bool.and_eq_true, decide_eq_true_eq] at h
    obtain ⟨⟨h1, h2⟩, h3⟩ := h
    unfold putInstr
    split_ifs with c1 c2
    · simp only [List.map_cons, risingFrom, Bool.and_eq_true, decide_eq_true_eq]
      exact ⟨⟨hlo, ha⟩, ⟨by omega, h2⟩, h3⟩
    · subst c2
      simp only [List.map_cons, risingFrom, Bool.and_eq_true, decide_eq_true_eq]
      exact ⟨⟨hlo, ha⟩, h3⟩
    · simp only [List.map_cons, risingFrom, Bool.and_eq_true, decide_eq_true_eq]
      exact ⟨⟨h1, h2⟩, ih (k + 1) (by omega) h3⟩

theorem programAt_putInstr (p : Program) (a : Nat) (i : Instr) (b : Nat) :
    programAt (putInstr p a i) b = if b = a then some i else programAt p b := by
  induction p with
  | nil => by_cases h : b = a <;> simp [putInstr, programAt, h, eq_comm (a := a)]
  | cons e p ih =>
    obtain ⟨k, x⟩ := e
    rcases Nat.lt_trichotomy a k with h | h | h
    · simp [putInstr, programAt, h, eq_comm (a := a)]
    · subst h
      by_cases hb : b = a <;> simp [putInstr, programAt, hb, eq_comm (a := a)]
    · have h1 : ¬ a < k := by omega
      have h2 : ¬ a = k := by omega
      by_cases hk : k = b
      · subst hk
        have hb : ¬ k = a := by omega
        simp [putInstr, programAt, h1, h2, hb]
      · simp [putInstr, programAt, h1, h2, hk, ih]

theorem cellAt_below (m : Memory) (lo a : Nat) (h : risingFrom lo (m.map Prod.fst) = true) (ha : a < lo) :
    cellAt m a = none := by
  induction m generalizing lo with
  | nil => rfl
  | cons e m ih =>
    obtain ⟨k, x⟩ := e
    simp only [List.map_cons, risingFrom, Bool.and_eq_true, decide_eq_true_eq] at h
    obtain ⟨⟨h1, _⟩, h3⟩ := h
    have : k ≠ a := by omega
    simp [cellAt, this, ih (k + 1) h3 (by omega)]

theorem memory_ext_from (m m' : Memory) (lo : Nat) (h : risingFrom lo (m.map Prod.fst) = true)
    (h' : risingFrom lo (m'.map Prod.fst) = true) (e : ∀ a, cellAt m a = cellAt m' a) : m = m' := by
  induction m generalizing lo m' with
  | nil =>
    cases m' with
    | nil => rfl
    | cons x m' => simpa [cellAt, unlistedCell] using e x.1
  | cons x m ih =>
    cases m' with
    | nil => simpa [cellAt, unlistedCell] using e x.1
    | cons y m' =>
      obtain ⟨k, v⟩ := x
      obtain ⟨k', v'⟩ := y
      simp only [List.map_cons, risingFrom, Bool.and_eq_true, decide_eq_true_eq] at h h'
      obtain ⟨⟨_, _⟩, h3⟩ := h
      obtain ⟨⟨_, _⟩, h3'⟩ := h'
      have low := cellAt_below m (k + 1)
      have low' := cellAt_below m' (k' + 1)
      have hk : k = k' := by
        rcases Nat.lt_trichotomy k k' with c | c | c
        · have := e k
          have n1 : ¬ k' = k := by omega
          simp [cellAt, n1, low' k h3' (by omega)] at this
        · exact c
        · have := e k'
          have n1 : ¬ k = k' := by omega
          simp [cellAt, n1, low k' h3 (by omega)] at this
      subst hk
      have hv : v = v' := by simpa [cellAt] using e k
      subst hv
      have rest : m = m' := by
        refine ih m' (k + 1) h3 h3' fun a => ?_
        by_cases c : k = a
        · subst c
          rw [low k h3 (by omega), low' k h3' (by omega)]
        · simpa [cellAt, c] using e a
      rw [rest]

/-- Two memories in canonical form that read alike at every address are the same data. -/
theorem memory_ext {m m' : Memory} (h : Memory.wf m = true) (h' : Memory.wf m' = true)
    (e : ∀ a, cellAt m a = cellAt m' a) : m = m' :=
  memory_ext_from m m' 0 h h' e

end Sys2Proof.Machine
end

