-- ==== Sys2Proof/Laws/State.lean ====
section
/-! SUPPORT. One lemma per field per named update of the state, and the register file's laws. -/

namespace Sys2Proof.Machine

open Sys2Proof

@[simp] theorem withReg_cfg (s : State) (r : Reg) (v : Byte) : (s.withReg r v).cfg = s.cfg := rfl
@[simp] theorem withReg_drive (s : State) (r : Reg) (v : Byte) : (s.withReg r v).drive = s.drive := rfl
@[simp] theorem withReg_rom (s : State) (r : Reg) (v : Byte) : (s.withReg r v).rom = s.rom := rfl
@[simp] theorem withReg_loaded (s : State) (r : Reg) (v : Byte) : (s.withReg r v).loaded = s.loaded := rfl
@[simp] theorem withReg_prog (s : State) (r : Reg) (v : Byte) : (s.withReg r v).prog = s.prog := rfl
@[simp] theorem withReg_regs (s : State) (r : Reg) (v : Byte) : (s.withReg r v).regs = writeReg s.regs r v := rfl
@[simp] theorem withReg_pc (s : State) (r : Reg) (v : Byte) : (s.withReg r v).pc = s.pc := rfl
@[simp] theorem withReg_mar (s : State) (r : Reg) (v : Byte) : (s.withReg r v).mar = s.mar := rfl
@[simp] theorem withReg_bank (s : State) (r : Reg) (v : Byte) : (s.withReg r v).bank = s.bank := rfl
@[simp] theorem withReg_mem (s : State) (r : Reg) (v : Byte) : (s.withReg r v).mem = s.mem := rfl
@[simp] theorem withReg_out (s : State) (r : Reg) (v : Byte) : (s.withReg r v).out = s.out := rfl
@[simp] theorem withReg_ir (s : State) (r : Reg) (v : Byte) : (s.withReg r v).ir = s.ir := rfl
@[simp] theorem withReg_stepCount (s : State) (r : Reg) (v : Byte) : (s.withReg r v).stepCount = s.stepCount := rfl
@[simp] theorem withReg_halted (s : State) (r : Reg) (v : Byte) : (s.withReg r v).halted = s.halted := rfl

@[simp] theorem withPc_cfg (s : State) (v : Byte) : (s.withPc v).cfg = s.cfg := rfl
@[simp] theorem withPc_drive (s : State) (v : Byte) : (s.withPc v).drive = s.drive := rfl
@[simp] theorem withPc_rom (s : State) (v : Byte) : (s.withPc v).rom = s.rom := rfl
@[simp] theorem withPc_loaded (s : State) (v : Byte) : (s.withPc v).loaded = s.loaded := rfl
@[simp] theorem withPc_prog (s : State) (v : Byte) : (s.withPc v).prog = s.prog := rfl
@[simp] theorem withPc_regs (s : State) (v : Byte) : (s.withPc v).regs = s.regs := rfl
@[simp] theorem withPc_pc (s : State) (v : Byte) : (s.withPc v).pc = v := rfl
@[simp] theorem withPc_mar (s : State) (v : Byte) : (s.withPc v).mar = s.mar := rfl
@[simp] theorem withPc_bank (s : State) (v : Byte) : (s.withPc v).bank = s.bank := rfl
@[simp] theorem withPc_mem (s : State) (v : Byte) : (s.withPc v).mem = s.mem := rfl
@[simp] theorem withPc_out (s : State) (v : Byte) : (s.withPc v).out = s.out := rfl
@[simp] theorem withPc_ir (s : State) (v : Byte) : (s.withPc v).ir = s.ir := rfl
@[simp] theorem withPc_stepCount (s : State) (v : Byte) : (s.withPc v).stepCount = s.stepCount := rfl
@[simp] theorem withPc_halted (s : State) (v : Byte) : (s.withPc v).halted = s.halted := rfl

@[simp] theorem withMar_cfg (s : State) (v : Byte) : (s.withMar v).cfg = s.cfg := rfl
@[simp] theorem withMar_drive (s : State) (v : Byte) : (s.withMar v).drive = s.drive := rfl
@[simp] theorem withMar_rom (s : State) (v : Byte) : (s.withMar v).rom = s.rom := rfl
@[simp] theorem withMar_loaded (s : State) (v : Byte) : (s.withMar v).loaded = s.loaded := rfl
@[simp] theorem withMar_prog (s : State) (v : Byte) : (s.withMar v).prog = s.prog := rfl
@[simp] theorem withMar_regs (s : State) (v : Byte) : (s.withMar v).regs = s.regs := rfl
@[simp] theorem withMar_pc (s : State) (v : Byte) : (s.withMar v).pc = s.pc := rfl
@[simp] theorem withMar_mar (s : State) (v : Byte) : (s.withMar v).mar = some v := rfl
@[simp] theorem withMar_bank (s : State) (v : Byte) : (s.withMar v).bank = s.bank := rfl
@[simp] theorem withMar_mem (s : State) (v : Byte) : (s.withMar v).mem = s.mem := rfl
@[simp] theorem withMar_out (s : State) (v : Byte) : (s.withMar v).out = s.out := rfl
@[simp] theorem withMar_ir (s : State) (v : Byte) : (s.withMar v).ir = s.ir := rfl
@[simp] theorem withMar_stepCount (s : State) (v : Byte) : (s.withMar v).stepCount = s.stepCount := rfl
@[simp] theorem withMar_halted (s : State) (v : Byte) : (s.withMar v).halted = s.halted := rfl

@[simp] theorem withBank_cfg (s : State) (v : Byte) : (s.withBank v).cfg = s.cfg := rfl
@[simp] theorem withBank_drive (s : State) (v : Byte) : (s.withBank v).drive = s.drive := rfl
@[simp] theorem withBank_rom (s : State) (v : Byte) : (s.withBank v).rom = s.rom := rfl
@[simp] theorem withBank_loaded (s : State) (v : Byte) : (s.withBank v).loaded = s.loaded := rfl
@[simp] theorem withBank_prog (s : State) (v : Byte) : (s.withBank v).prog = s.prog := rfl
@[simp] theorem withBank_regs (s : State) (v : Byte) : (s.withBank v).regs = s.regs := rfl
@[simp] theorem withBank_pc (s : State) (v : Byte) : (s.withBank v).pc = s.pc := rfl
@[simp] theorem withBank_mar (s : State) (v : Byte) : (s.withBank v).mar = s.mar := rfl
@[simp] theorem withBank_bank (s : State) (v : Byte) : (s.withBank v).bank = some v := rfl
@[simp] theorem withBank_mem (s : State) (v : Byte) : (s.withBank v).mem = s.mem := rfl
@[simp] theorem withBank_out (s : State) (v : Byte) : (s.withBank v).out = s.out := rfl
@[simp] theorem withBank_ir (s : State) (v : Byte) : (s.withBank v).ir = s.ir := rfl
@[simp] theorem withBank_stepCount (s : State) (v : Byte) : (s.withBank v).stepCount = s.stepCount := rfl
@[simp] theorem withBank_halted (s : State) (v : Byte) : (s.withBank v).halted = s.halted := rfl

@[simp] theorem withMem_cfg (s : State) (a v : Byte) : (s.withMem a v).cfg = s.cfg := rfl
@[simp] theorem withMem_drive (s : State) (a v : Byte) : (s.withMem a v).drive = s.drive := rfl
@[simp] theorem withMem_rom (s : State) (a v : Byte) : (s.withMem a v).rom = s.rom := rfl
@[simp] theorem withMem_loaded (s : State) (a v : Byte) : (s.withMem a v).loaded = s.loaded := rfl
@[simp] theorem withMem_prog (s : State) (a v : Byte) : (s.withMem a v).prog = s.prog := rfl
@[simp] theorem withMem_regs (s : State) (a v : Byte) : (s.withMem a v).regs = s.regs := rfl
@[simp] theorem withMem_pc (s : State) (a v : Byte) : (s.withMem a v).pc = s.pc := rfl
@[simp] theorem withMem_mar (s : State) (a v : Byte) : (s.withMem a v).mar = s.mar := rfl
@[simp] theorem withMem_bank (s : State) (a v : Byte) : (s.withMem a v).bank = s.bank := rfl
@[simp] theorem withMem_mem (s : State) (a v : Byte) : (s.withMem a v).mem = writeMem s.mem a v := rfl
@[simp] theorem withMem_out (s : State) (a v : Byte) : (s.withMem a v).out = s.out := rfl
@[simp] theorem withMem_ir (s : State) (a v : Byte) : (s.withMem a v).ir = s.ir := rfl
@[simp] theorem withMem_stepCount (s : State) (a v : Byte) : (s.withMem a v).stepCount = s.stepCount := rfl
@[simp] theorem withMem_halted (s : State) (a v : Byte) : (s.withMem a v).halted = s.halted := rfl

@[simp] theorem withOut_cfg (s : State) (v : Byte) : (s.withOut v).cfg = s.cfg := rfl
@[simp] theorem withOut_drive (s : State) (v : Byte) : (s.withOut v).drive = s.drive := rfl
@[simp] theorem withOut_rom (s : State) (v : Byte) : (s.withOut v).rom = s.rom := rfl
@[simp] theorem withOut_loaded (s : State) (v : Byte) : (s.withOut v).loaded = s.loaded := rfl
@[simp] theorem withOut_prog (s : State) (v : Byte) : (s.withOut v).prog = s.prog := rfl
@[simp] theorem withOut_regs (s : State) (v : Byte) : (s.withOut v).regs = s.regs := rfl
@[simp] theorem withOut_pc (s : State) (v : Byte) : (s.withOut v).pc = s.pc := rfl
@[simp] theorem withOut_mar (s : State) (v : Byte) : (s.withOut v).mar = s.mar := rfl
@[simp] theorem withOut_bank (s : State) (v : Byte) : (s.withOut v).bank = s.bank := rfl
@[simp] theorem withOut_mem (s : State) (v : Byte) : (s.withOut v).mem = s.mem := rfl
@[simp] theorem withOut_out (s : State) (v : Byte) : (s.withOut v).out = s.out ++ [v] := rfl
@[simp] theorem withOut_ir (s : State) (v : Byte) : (s.withOut v).ir = s.ir := rfl
@[simp] theorem withOut_stepCount (s : State) (v : Byte) : (s.withOut v).stepCount = s.stepCount := rfl
@[simp] theorem withOut_halted (s : State) (v : Byte) : (s.withOut v).halted = s.halted := rfl

@[simp] theorem withIr_cfg (s : State) (v : Byte) : (s.withIr v).cfg = s.cfg := rfl
@[simp] theorem withIr_drive (s : State) (v : Byte) : (s.withIr v).drive = s.drive := rfl
@[simp] theorem withIr_rom (s : State) (v : Byte) : (s.withIr v).rom = s.rom := rfl
@[simp] theorem withIr_loaded (s : State) (v : Byte) : (s.withIr v).loaded = s.loaded := rfl
@[simp] theorem withIr_prog (s : State) (v : Byte) : (s.withIr v).prog = s.prog := rfl
@[simp] theorem withIr_regs (s : State) (v : Byte) : (s.withIr v).regs = s.regs := rfl
@[simp] theorem withIr_pc (s : State) (v : Byte) : (s.withIr v).pc = s.pc := rfl
@[simp] theorem withIr_mar (s : State) (v : Byte) : (s.withIr v).mar = s.mar := rfl
@[simp] theorem withIr_bank (s : State) (v : Byte) : (s.withIr v).bank = s.bank := rfl
@[simp] theorem withIr_mem (s : State) (v : Byte) : (s.withIr v).mem = s.mem := rfl
@[simp] theorem withIr_out (s : State) (v : Byte) : (s.withIr v).out = s.out := rfl
@[simp] theorem withIr_ir (s : State) (v : Byte) : (s.withIr v).ir = v := rfl
@[simp] theorem withIr_stepCount (s : State) (v : Byte) : (s.withIr v).stepCount = s.stepCount := rfl
@[simp] theorem withIr_halted (s : State) (v : Byte) : (s.withIr v).halted = s.halted := rfl

@[simp] theorem withStep_cfg (s : State) (n : Nat) : (s.withStep n).cfg = s.cfg := rfl
@[simp] theorem withStep_drive (s : State) (n : Nat) : (s.withStep n).drive = s.drive := rfl
@[simp] theorem withStep_rom (s : State) (n : Nat) : (s.withStep n).rom = s.rom := rfl
@[simp] theorem withStep_loaded (s : State) (n : Nat) : (s.withStep n).loaded = s.loaded := rfl
@[simp] theorem withStep_prog (s : State) (n : Nat) : (s.withStep n).prog = s.prog := rfl
@[simp] theorem withStep_regs (s : State) (n : Nat) : (s.withStep n).regs = s.regs := rfl
@[simp] theorem withStep_pc (s : State) (n : Nat) : (s.withStep n).pc = s.pc := rfl
@[simp] theorem withStep_mar (s : State) (n : Nat) : (s.withStep n).mar = s.mar := rfl
@[simp] theorem withStep_bank (s : State) (n : Nat) : (s.withStep n).bank = s.bank := rfl
@[simp] theorem withStep_mem (s : State) (n : Nat) : (s.withStep n).mem = s.mem := rfl
@[simp] theorem withStep_out (s : State) (n : Nat) : (s.withStep n).out = s.out := rfl
@[simp] theorem withStep_ir (s : State) (n : Nat) : (s.withStep n).ir = s.ir := rfl
@[simp] theorem withStep_stepCount (s : State) (n : Nat) : (s.withStep n).stepCount = n := rfl
@[simp] theorem withStep_halted (s : State) (n : Nat) : (s.withStep n).halted = s.halted := rfl

@[simp] theorem withHalted_cfg (s : State) : s.withHalted.cfg = s.cfg := rfl
@[simp] theorem withHalted_drive (s : State) : s.withHalted.drive = s.drive := rfl
@[simp] theorem withHalted_rom (s : State) : s.withHalted.rom = s.rom := rfl
@[simp] theorem withHalted_loaded (s : State) : s.withHalted.loaded = s.loaded := rfl
@[simp] theorem withHalted_prog (s : State) : s.withHalted.prog = s.prog := rfl
@[simp] theorem withHalted_regs (s : State) : s.withHalted.regs = s.regs := rfl
@[simp] theorem withHalted_pc (s : State) : s.withHalted.pc = s.pc := rfl
@[simp] theorem withHalted_mar (s : State) : s.withHalted.mar = s.mar := rfl
@[simp] theorem withHalted_bank (s : State) : s.withHalted.bank = s.bank := rfl
@[simp] theorem withHalted_mem (s : State) : s.withHalted.mem = s.mem := rfl
@[simp] theorem withHalted_out (s : State) : s.withHalted.out = s.out := rfl
@[simp] theorem withHalted_ir (s : State) : s.withHalted.ir = s.ir := rfl
@[simp] theorem withHalted_stepCount (s : State) : s.withHalted.stepCount = s.stepCount := rfl
@[simp] theorem withHalted_halted (s : State) : s.withHalted.halted = true := rfl

theorem readReg_writeReg (rs : Regs) (r r' : Reg) (v : Byte) :
    readReg (writeReg rs r v) r' = if r' = r then some v else readReg rs r' := by
  cases r <;> cases r' <;> rfl

@[simp] theorem readReg_writeReg_same (rs : Regs) (r : Reg) (v : Byte) :
    readReg (writeReg rs r v) r = some v := by
  cases r <;> rfl

theorem readReg_writeReg_other (rs : Regs) {r r' : Reg} (v : Byte) (h : r' ≠ r) :
    readReg (writeReg rs r v) r' = readReg rs r' := by
  rw [readReg_writeReg, if_neg h]

/-- Two register files with the same four values are the same. -/
theorem regs_ext {rs rs' : Regs} (h : ∀ r, readReg rs r = readReg rs' r) : rs = rs' := by
  have hA := h .A
  have hB := h .B
  have hC := h .C
  have hD := h .D
  cases rs
  cases rs'
  simp_all [readReg]

end Sys2Proof.Machine
end

