-- ==== Sys2Proof/Laws/Bench.lean ====
section
/-! SUPPORT. What one bench cycle can do (48_sequencer_reference.md R110), said once: inversion lemmas for `need`, `drive`,
`latch` and `benchCycle`, and the frame of a cycle. -/

namespace Sys2Proof.Machine

open Sys2Proof

@[simp] theorem need_some (c : Storage) (b : Byte) : need c (some b) = .ok b := rfl

@[simp] theorem need_none (c : Storage) : need c none = .error (.unwrittenRead c) := rfl

theorem need_ok {c : Storage} {o : Option Byte} {b : Byte} : need c o = .ok b ↔ o = some b := by
  cases o <;> simp

@[simp] theorem fetched_eq (s : State) (b : Byte) :
    s.fetched b = { s with mar := some s.pc, ir := b, pc := s.pc + 1 } := rfl

@[simp] theorem incPC_on {s : State} {w : ControlWord} (h : w.programCounterEnable = true) :
    incPC s w = s.withPc (s.pc + 1) := by
  simp [incPC, h]

@[simp] theorem incPC_off {s : State} {w : ControlWord} (h : w.programCounterEnable = false) : incPC s w = s := by
  simp [incPC, h]

/-- A latch that succeeds writes exactly the component it names; `MEM` needs MAR (R110). -/
theorem latch_ok {s s' : State} {d : WriteDst} {v : Byte} (h : latch s d v = .ok s') :
    (∃ r, d = .reg r ∧ s' = s.withReg r v) ∨ (d = .pc ∧ s' = s.withPc v)
      ∨ (∃ a, d = .mem ∧ s.mar = some a ∧ s' = s.withMem a v) ∨ (d = .mar ∧ s' = s.withMar v)
      ∨ (d = .bank ∧ s' = s.withBank v) ∨ (d = .ir ∧ s' = s.withIr v) ∨ (d = .out ∧ s' = s.withOut v) := by
  cases d with
  | mem =>
    cases hm : s.mar with
    | none => simp [latch, latchMem, hm] at h
    | some a => simp [latch, latchMem, hm] at h; simp [h]
  | _ => simp [latch] at h; simp [h]

/-- A cycle that succeeds is a self-transfer, or a drive and a latch; the increment comes on top (R110). -/
theorem benchCycle_ok {s s' : State} {w : ControlWord} (h : benchCycle s w = .ok s') :
    w.bankSelectEnable = false ∧ (w.programCounterEnable && w.writeTo == .pc) = false
      ∧ ((selfTransfer w.readFrom w.writeTo = true ∧ s' = incPC s w)
        ∨ (selfTransfer w.readFrom w.writeTo = false
          ∧ ∃ v s1, drive s w = .ok v ∧ latch s w.writeTo v = .ok s1 ∧ s' = incPC s1 w)) := by
  unfold benchCycle at h
  split_ifs at h with h1 h2 h3
  · exact ⟨by simpa using h1, by simpa using h2, .inl ⟨h3, by simpa using h.symm⟩⟩
  · refine ⟨by simpa using h1, by simpa using h2, .inr ⟨by simpa using h3, ?_⟩⟩
    split at h
    · cases h
    · rename_i v hv
      split at h
      · cases h
      · rename_i s1 hs
        exact ⟨v, s1, hv, hs, by simpa using h.symm⟩

/-- What no cycle writes, and the sequencer's own registers, are unchanged by a latch. -/
theorem latch_fixed {s s' : State} {d : WriteDst} {v : Byte} (h : latch s d v = .ok s') :
    sameFixed s s' ∧ s'.stepCount = s.stepCount ∧ s'.halted = s.halted := by
  obtain ⟨_, _, rfl⟩ | ⟨_, rfl⟩ | ⟨_, _, _, rfl⟩ | ⟨_, rfl⟩ | ⟨_, rfl⟩ | ⟨_, rfl⟩ | ⟨_, rfl⟩ := latch_ok h <;>
    exact ⟨⟨rfl, rfl, rfl, rfl, rfl⟩, rfl, rfl⟩

theorem incPC_fixed (s : State) (w : ControlWord) :
    sameFixed s (incPC s w) ∧ (incPC s w).stepCount = s.stepCount ∧ (incPC s w).halted = s.halted
      ∧ (incPC s w).mem = s.mem ∧ (incPC s w).out = s.out ∧ (incPC s w).regs = s.regs := by
  unfold incPC
  split <;> exact ⟨⟨rfl, rfl, rfl, rfl, rfl⟩, rfl, rfl, rfl, rfl, rfl⟩

/-- The frame of a cycle: configuration, ROM, program, choice of machine, STEP and HALTED are unchanged (R110). -/
theorem benchCycle_fixed {s s' : State} {w : ControlWord} (h : benchCycle s w = .ok s') :
    sameFixed s s' ∧ s'.stepCount = s.stepCount ∧ s'.halted = s.halted := by
  obtain ⟨-, -, ⟨-, rfl⟩ | ⟨-, v, s1, -, hl, rfl⟩⟩ := benchCycle_ok h
  · have := incPC_fixed s w
    exact ⟨this.1, this.2.1, this.2.2.1⟩
  · obtain ⟨⟨a, b, c, d, x⟩, e, f⟩ := latch_fixed hl
    obtain ⟨⟨a', b', c', d', x'⟩, e', f', -⟩ := incPC_fixed s1 w
    exact ⟨⟨a.trans a', b.trans b', c.trans c', d.trans d', x.trans x'⟩, e'.trans e, f'.trans f⟩

/-- A cycle writes at most the one cell MAR addresses, and only a word that names `MEM` as its latch does (R110). -/
theorem benchCycle_mem {s s' : State} {w : ControlWord} (h : benchCycle s w = .ok s') :
    s'.mem = s.mem ∨ ∃ a v, w.writeTo = .mem ∧ s.mar = some a ∧ s'.mem = writeMem s.mem a v := by
  obtain ⟨-, -, ⟨-, rfl⟩ | ⟨-, v, s1, -, hl, rfl⟩⟩ := benchCycle_ok h
  · exact .inl (incPC_fixed s w).2.2.2.1
  · rw [(incPC_fixed s1 w).2.2.2.1]
    obtain ⟨_, _, rfl⟩ | ⟨_, rfl⟩ | ⟨a, hd, ha, rfl⟩ | ⟨_, rfl⟩ | ⟨_, rfl⟩ | ⟨_, rfl⟩ | ⟨_, rfl⟩ := latch_ok hl
    · exact .inl rfl
    · exact .inl rfl
    · exact .inr ⟨a, v, hd, ha, rfl⟩
    · exact .inl rfl
    · exact .inl rfl
    · exact .inl rfl
    · exact .inl rfl

/-- A cycle keeps the canonical form of memory. -/
theorem benchCycle_wf {s s' : State} {w : ControlWord} (h : benchCycle s w = .ok s')
    (hm : Memory.wf s.mem = true) : Memory.wf s'.mem = true := by
  obtain e | ⟨a, v, -, -, e⟩ := benchCycle_mem h
  · rwa [e]
  · rw [e]
    exact writeMem_wf a v hm

/-- A cycle leaves the output log or appends one byte to it (R115). -/
theorem benchCycle_out {s s' : State} {w : ControlWord} (h : benchCycle s w = .ok s') :
    s'.out = s.out ∨ ∃ v, w.writeTo = .out ∧ s'.out = s.out ++ [v] := by
  obtain ⟨-, -, ⟨-, rfl⟩ | ⟨-, v, s1, -, hl, rfl⟩⟩ := benchCycle_ok h
  · exact .inl (incPC_fixed s w).2.2.2.2.1
  · rw [(incPC_fixed s1 w).2.2.2.2.1]
    obtain ⟨_, _, rfl⟩ | ⟨_, rfl⟩ | ⟨_, _, _, rfl⟩ | ⟨_, rfl⟩ | ⟨_, rfl⟩ | ⟨_, rfl⟩ | ⟨hd, rfl⟩ := latch_ok hl
    · exact .inl rfl
    · exact .inl rfl
    · exact .inl rfl
    · exact .inl rfl
    · exact .inl rfl
    · exact .inl rfl
    · exact .inr ⟨v, hd, rfl⟩

/-! ## The fixed words on the bench -/

/-- `FETCH0` on the bench (R63). -/
@[simp] theorem benchCycle_fetch0 (s : State) : benchCycle s fetch0 = .ok (s.withMar s.pc) := rfl

/-- `FETCH1` on the bench, with MAR written (R63). -/
theorem benchCycle_fetch1 {s : State} {a : Byte} (h : s.mar = some a) :
    benchCycle s fetch1 = match readMem s.mem a with
      | none => .error (.unwrittenRead (.mem a))
      | some b => .ok ((s.withIr b).withPc (s.pc + 1)) := by
  have e : drive s fetch1 = need (.mem a) (readMem s.mem a) := by
    show driveMem s = _
    simp [driveMem, h]
  show (match drive s fetch1 with | .error f => Except.error f | .ok v => _) = _
  rw [e]
  cases readMem s.mem a <;> rfl

/-- The epilogue changes nothing on the bench (R64). -/
@[simp] theorem benchCycle_epilogue (s : State) : benchCycle s epilogue = .ok s := rfl

/-- The neutral word changes nothing on the bench, even where A was never written (R20, R84). -/
@[simp] theorem benchCycle_neutral (s : State) : benchCycle s ControlWord.neutral = .ok s := rfl

/-! ## Words that latch the ALU, and moves -/

/-- An ALU word on the bench: the left input, the right input, the ALU, then the latch (R72, R110, R118). -/
theorem benchCycle_aluWord (s : State) (r1 r2 : Reg) (lg : AluLogic) (sh : AluShift) (sub : Bool) :
    benchCycle s (aluWord r1 r2 lg sh sub) = match readReg s.regs r1 with
      | none => .error (.unwrittenRead (.reg r1))
      | some a => match readReg s.regs r2 with
        | none => .error (.unwrittenRead (.reg r2))
        | some b => match aluFn lg sh sub a b with
          | .error f => .error f
          | .ok v => .ok (s.withReg r1 v) := by
  show (match driveAcc s (aluWord r1 r2 lg sh sub) with | .error f => Except.error f | .ok v => _) = _
  simp only [driveAcc, aluWord, benchAlu]
  cases readReg s.regs r1 <;> [rfl; (cases readReg s.regs r2 <;> [rfl; skip])]
  simp only [need_some]
  cases aluFn lg sh sub _ _ <;> rfl

/-- A move word on the bench (R81, R84, R110). -/
theorem benchCycle_moveWord (s : State) (d : WriteDst) (c : ReadSrc) :
    benchCycle s (moveWord d c) = if selfTransfer c d then .ok s
      else match drive s (moveWord d c) with
        | .error f => .error f
        | .ok v => latch s d v := by
  have hb : (moveWord d c).bankSelectEnable = false := rfl
  have hp : (moveWord d c).programCounterEnable = false := rfl
  have hr : (moveWord d c).readFrom = c := rfl
  have hw : (moveWord d c).writeTo = d := rfl
  unfold benchCycle
  simp only [hb, hp, hr, hw, Bool.false_and, incPC_off hp]
  by_cases h : selfTransfer c d = true
  · simp [h]
  · simp only [h]
    cases drive s (moveWord d c) with
    | error f => rfl
    | ok v => cases hl : latch s d v <;> simp [hl]

/-- Under the neutral ALU fields ACC drives register A (R85). -/
theorem drive_moveWord_acc (s : State) (d : WriteDst) :
    drive s (moveWord d .acc) = need (.reg .A) (readReg s.regs .A) := by
  show driveAcc s _ = _
  simp only [driveAcc, moveWord, ControlWord.neutral]
  cases readReg s.regs .A with
  | none => rfl
  | some a => simp [need, benchAlu, aluFn, logicFn]

end Sys2Proof.Machine
end

