-- ==== Sys2Proof/Laws/Encoding.lean ====
section
/-! SUPPORT. What an accepted configuration gives (00_scope.md R8), the fields of a packed word (30_encoding.md R48), positions in
`DECL` (R93), and what `decode` can answer (R57 to R60), each said once. -/

namespace Sys2Proof

/-! ## Enumerations and the check of R8 -/

theorem Reg.mem_all (r : Reg) : r ∈ Reg.all := by cases r <;> decide

theorem ReadSrc.mem_all (c : ReadSrc) : c ∈ ReadSrc.all := by
  cases c with
  | reg r => cases r <;> decide
  | _ => decide

theorem WriteDst.mem_all (c : WriteDst) : c ∈ WriteDst.all := by
  cases c with
  | reg r => cases r <;> decide
  | _ => decide

theorem AluShift.mem_all (c : AluShift) : c ∈ AluShift.all := by cases c <;> decide

theorem AluLogic.mem_all (c : AluLogic) : c ∈ AluLogic.all := by cases c <;> decide

theorem Variant.mem_all (v : Variant) : v ∈ Variant.all := by cases v <;> decide

theorem distinct_iff_nodup {α : Type} [DecidableEq α] (l : List α) : distinct l = true ↔ l.Nodup := by
  induction l with
  | nil => simp [distinct]
  | cons x xs ih => simp [distinct, ih]

/-- Over a list of all arguments without repeats, distinct values mean an injective map. -/
theorem distinct_map_iff {α β : Type} [DecidableEq β] {l : List α} (hl : ∀ x, x ∈ l) (hn : l.Nodup) (f : α → β) :
    distinct (l.map f) = true ↔ Function.Injective f := by
  rw [distinct_iff_nodup]
  exact ⟨fun h a b hab => List.inj_on_of_nodup_map h (hl a) (hl b) hab, fun h => hn.map h⟩

/-! ## Code maps and their inverses -/

/-- Looking up the code of a component finds it, under an injective map. -/
theorem find_code {α β : Type} [DecidableEq β] {l : List α} {f : α → β} (hf : Function.Injective f) {a : α}
    (ha : a ∈ l) : l.find? (fun c => f c == f a) = some a := by
  induction l with
  | nil => cases ha
  | cons x xs ih =>
    by_cases h : x = a
    · subst h
      simp
    · have : ¬f x = f a := fun e => h (hf e)
      simp only [List.find?_cons, beq_eq_false_iff_ne.2 this]
      exact ih (by simpa [Ne.symm h] using ha)

/-- What a look-up finds has the code looked for. -/
theorem code_of_find {α β : Type} [DecidableEq β] {l : List α} {f : α → β} {a : α} {y : β}
    (h : l.find? (fun c => f c == y) = some a) : f a = y := by
  simpa using List.find?_some h

/-- A code some listed argument has is found. -/
theorem find_assigned {α β : Type} [DecidableEq β] {l : List α} {f : α → β} {y : β} (h : ∃ a ∈ l, f a = y) :
    ∃ a, l.find? (fun c => f c == y) = some a ∧ f a = y := by
  have : (l.find? fun c => f c == y).isSome := by
    simp only [List.find?_isSome, beq_iff_eq]
    exact h
  obtain ⟨a, ha⟩ := Option.isSome_iff_exists.1 this
  exact ⟨a, ha, code_of_find ha⟩

/-- An injective map of `2 ^ n` arguments into `n`-bit codes leaves no code unassigned. -/
theorem code_onto {α : Type} {n : Nat} {l : List α} {f : α → BitVec n} (hl : l.Nodup) (hf : Function.Injective f)
    (hlen : l.length = 2 ^ n) (y : BitVec n) : ∃ a ∈ l, f a = y := by
  have hnd : ((l.map f).map BitVec.toNat).Nodup := (hl.map hf).map fun a b h => BitVec.eq_of_toNat_eq h
  have hsub : (l.map f).map BitVec.toNat ⊆ List.range (2 ^ n) := by
    intro x hx
    simp only [List.map_map, List.mem_map, Function.comp_apply] at hx
    obtain ⟨a, -, rfl⟩ := hx
    simp [(f a).isLt]
  have hperm := (hnd.subperm hsub).perm_of_length_le (by simp [hlen])
  have : y.toNat ∈ List.range (2 ^ n) := by simp [y.isLt]
  rw [← hperm.mem_iff] at this
  simp only [List.map_map, List.mem_map, Function.comp_apply] at this
  obtain ⟨a, ha, e⟩ := this
  exact ⟨a, ha, BitVec.eq_of_toNat_eq e⟩

/-! ## Fields of a packed word -/

/-- Every field of a packed word sits at its place of R48, and bits 10:9 are 0. -/
theorem pack_fields (cfg : Config) (w : ControlWord) :
    (pack cfg w).extractLsb' 20 4 = cfg.writeCode w.writeTo ∧ (pack cfg w).extractLsb' 17 3 = cfg.readCode w.readFrom
      ∧ (pack cfg w).extractLsb' 15 2 = cfg.regCode w.aluLeft ∧ (pack cfg w).extractLsb' 13 2 = cfg.regCode w.aluRight
      ∧ (pack cfg w).extractLsb' 11 2 = cfg.shiftCode w.aluShift ∧ (pack cfg w).extractLsb' 9 2 = 0#2
      ∧ (pack cfg w).extractLsb' 5 4 = cfg.logicCode w.aluLogic ∧ (pack cfg w).getLsbD 4 = w.aluSubtract
      ∧ (pack cfg w).getLsbD 3 = w.programCounterEnable ∧ (pack cfg w).getLsbD 2 = w.bankSelectEnable
      ∧ (pack cfg w).getLsbD 1 = w.halt ∧ (pack cfg w).getLsbD 0 = w.stepReset := by
  unfold pack
  refine ⟨?_, ?_, ?_, ?_, ?_, ?_, ?_, ?_, ?_, ?_, ?_, ?_⟩
  all_goals first
    | (apply BitVec.eq_of_getLsbD_eq
       intro i hi
       interval_cases i <;>
         (simp only [BitVec.getLsbD_append, BitVec.getLsbD_extractLsb', BitVec.getLsbD_ofBool]; simp))
    | (simp only [BitVec.getLsbD_append, BitVec.getLsbD_ofBool]; simp)

/-- Three bytes joined, most significant first, are the bytes of the word they make (R30). -/
theorem wordBytesOf_join (a b c : Byte) : wordBytesOf (a ++ b ++ c) = [a, b, c] := by
  have h (x y : Byte) (hxy : ∀ i, i < 8 → x.getLsbD i = y.getLsbD i) : x = y := BitVec.eq_of_getLsbD_eq fun i hi => hxy i hi
  unfold wordBytesOf
  congr 1
  · refine h _ _ fun i hi => ?_
    interval_cases i <;> (simp only [BitVec.getLsbD_append, BitVec.getLsbD_extractLsb']; simp)
  congr 1
  · refine h _ _ fun i hi => ?_
    interval_cases i <;> (simp only [BitVec.getLsbD_append, BitVec.getLsbD_extractLsb']; simp)
  congr 1
  · refine h _ _ fun i hi => ?_
    interval_cases i <;> (simp only [BitVec.getLsbD_append, BitVec.getLsbD_extractLsb']; simp)

/-- The three bytes of a word, joined again, are the word (R30). -/
theorem join_wordBytes (x : Word24) : x.extractLsb' 16 8 ++ x.extractLsb' 8 8 ++ x.extractLsb' 0 8 = x := by
  apply BitVec.eq_of_getLsbD_eq
  intro i hi
  interval_cases i <;> (simp only [BitVec.getLsbD_append, BitVec.getLsbD_extractLsb']; simp)

/-! ## Positions in DECL, and decode -/

/-- The entry at a position has that position for its opcode, in a list without repeats (R93). -/
theorem idxOf_of_getElem? {l : List Variant} (hn : l.Nodup) {k : Nat} {v : Variant} (h : l[k]? = some v) :
    l.idxOf v = k := by
  obtain ⟨hk, rfl⟩ := List.getElem?_eq_some_iff.1 h
  exact hn.idxOf_getElem k hk

/-- A listed variant stands at the position that is its opcode (R93). -/
theorem getElem?_idxOf {l : List Variant} {v : Variant} (h : v ∈ l) : l[l.idxOf v]? = some v := by
  rw [List.getElem?_eq_getElem (List.idxOf_lt_length_of_mem h)]
  simp

@[simp] theorem rowInstance_variant (cfg : Config) (v : Variant) : (cfg.rowInstance v).variant = v := by
  cases v <;> rfl

@[simp] theorem withImm_variant (i : Instr) (imm : Byte) : (i.withImm imm).variant = i.variant := by
  cases i <;> rfl

/-- Everything `decode` can answer with: the row instance of the variant the opcode byte names, a jump with the byte after it
put in (R57 to R60, R102). -/
theorem decode_ok {cfg : Config} {bytes rest : List Byte} {i : Instr} (h : decode cfg bytes = .ok (i, rest)) :
    ∃ b tl v, bytes = b :: tl ∧ cfg.decl[b.toNat]? = some v ∧ i.variant = v
      ∧ ((instrLength v = 2 ∧ ∃ imm, tl = imm :: rest ∧ i = (cfg.rowInstance v).withImm imm)
        ∨ (instrLength v ≠ 2 ∧ tl = rest ∧ i = cfg.rowInstance v)) := by
  cases bytes with
  | nil => cases h
  | cons b tl =>
    simp only [decode] at h
    split at h
    · cases h
    · rename_i v hv
      refine ⟨b, tl, v, rfl, hv, ?_⟩
      split at h
      · rename_i hl
        split at h
        · cases h
        · cases h
          exact ⟨by simp, .inl ⟨hl, _, rfl, rfl⟩⟩
      · rename_i hl
        cases h
        exact ⟨by simp, .inr ⟨hl, rfl, rfl⟩⟩

namespace Machine

/-- The immediate of a jump is not in its words (R87). -/
@[simp] theorem compile_withImm (cfg : Config) (i : Instr) (imm : Byte) : compile cfg (i.withImm imm) = compile cfg i := by
  cases i <;> rfl

/-- Every compiled sequence but halt's is the prologue, execute words and the epilogue (R66). -/
theorem compile_framed {cfg : Config} {i : Instr} {seq : List ControlWord} (h : compile cfg i = .ok seq)
    (hi : i ≠ .halt) : ∃ ex, seq = framed ex := by
  have key {r : Except CompileError (List ControlWord)} (h : framedOr r = .ok seq) : ∃ ex, seq = framed ex := by
    cases r with
    | error e => cases h
    | ok ex => exact ⟨ex, by simpa [framedOr] using h.symm⟩
  cases i with
  | mov d s => exact key h
  | jc imm => exact key h
  | jz imm => exact key h
  | nop => exact key h
  | halt => exact absurd rfl hi
  | _ => exact ⟨_, by simpa [compile] using h.symm⟩

end Machine

end Sys2Proof
end

