-- ==== Sys2Proof/Laws/Loader.lean ====
section
/-! SUPPORT. What the loader and reset do to program memory and to the record of its contents (70_reset_and_hazards.md R128,
R129). -/

namespace Sys2Proof.Machine

open Sys2Proof

@[simp] theorem loadCells_mem (s : State) (cs : List (Byte × Byte)) : (loadCells s cs).mem = writeCells s.mem cs := rfl

@[simp] theorem loadCells_loaded (s : State) (cs : List (Byte × Byte)) :
    (loadCells s cs).loaded = writeCells s.loaded cs := rfl

@[simp] theorem resetState_mem (s : State) : (resetState s).mem = s.loaded := rfl

@[simp] theorem resetState_loaded (s : State) : (resetState s).loaded = s.loaded := rfl

@[simp] theorem restart_mem (s : State) (l : Load) : (restart s l).mem = writeCells s.loaded l.cells := rfl

@[simp] theorem restart_loaded (s : State) (l : Load) : (restart s l).loaded = writeCells s.loaded l.cells := rfl

/-- Loading a program keeps memory and the record of it equal, where they were (R128). -/
theorem loadProgram_loaded (ps : List (Byte × Instr)) {s : State} (h : s.mem = s.loaded) :
    (loadProgram s ps).mem = (loadProgram s ps).loaded := by
  induction ps generalizing s with
  | nil => exact h
  | cons p ps ih =>
    refine ih ?_
    show writeCells s.mem _ = writeCells s.loaded _
    rw [h]

/-- A booted M1 has in memory exactly what the loader put there (R129). -/
theorem bootM1_loaded {cfg : Config} {l : Load} {s : State} (h : bootM1 cfg l = .ok s) : s.mem = s.loaded := by
  unfold bootM1 at h
  split at h
  · split at h
    · cases h
    · cases h
      rfl
  · cases h

/-- A booted M2 has in memory exactly what the loader put there (R114, R129). -/
theorem bootM2_loaded {cfg : Config} {ps : List (Byte × Instr)} {l : Load} {s : State} (h : bootM2 cfg ps l = .ok s) :
    s.mem = s.loaded := by
  unfold bootM2 at h
  split at h
  · split at h
    · cases h
    · split at h
      · cases h
        show writeCells (loadProgram _ ps).mem _ = writeCells (loadProgram _ ps).loaded _
        rw [loadProgram_loaded ps rfl]
      · cases h
  · cases h

/-- What a cell holds after the loader's writes: the last byte they name for it, else what it held (R129). -/
theorem readMem_writeCells (cs : List (Byte × Byte)) (m : Memory) (a : Byte) :
    readMem (writeCells m cs) a = ((cs.reverse.find? fun p => p.1 == a).map Prod.snd).or (readMem m a) := by
  induction cs generalizing m with
  | nil => rfl
  | cons c cs ih =>
    obtain ⟨k, v⟩ := c
    rw [writeCells, ih, readMem_writeMem, List.reverse_cons, List.find?_append]
    cases cs.reverse.find? fun p => p.1 == a with
    | some p => rfl
    | none =>
      by_cases h : a = k
      · simp [h]
      · simp [h, Ne.symm h]

end Sys2Proof.Machine
end

