-- ==== Sys2Proof/Laws/PerInstr.lean ====
section
/-! SUPPORT. Families of lemmas with one per instruction. -/

namespace Sys2Proof.Laws

open Sys2Proof

/-- The bytes an instruction is stored in are as many as its variant's length says, under every configuration (R58, R59). -/
def EncodedLength.Statement (i : Instr) : Prop :=
  ∀ cfg : Config, (encode cfg i).length = instrLength i.variant

theorem EncodedLength.add (r1 r2 : Reg) :
    EncodedLength.Statement (.add r1 r2) := fun _ => rfl

theorem EncodedLength.sub (r1 r2 : Reg) :
    EncodedLength.Statement (.sub r1 r2) := fun _ => rfl

theorem EncodedLength.and (r1 r2 : Reg) :
    EncodedLength.Statement (.and r1 r2) := fun _ => rfl

theorem EncodedLength.or (r1 r2 : Reg) :
    EncodedLength.Statement (.or r1 r2) := fun _ => rfl

theorem EncodedLength.xor (r1 r2 : Reg) :
    EncodedLength.Statement (.xor r1 r2) := fun _ => rfl

theorem EncodedLength.cmp (r1 r2 : Reg) :
    EncodedLength.Statement (.cmp r1 r2) := fun _ => rfl

theorem EncodedLength.shl (r : Reg) :
    EncodedLength.Statement (.shl r) := fun _ => rfl

theorem EncodedLength.shr (r : Reg) :
    EncodedLength.Statement (.shr r) := fun _ => rfl

theorem EncodedLength.mov (dst : MoveDst) (src : MoveSrc) :
    EncodedLength.Statement (.mov dst src) := fun _ => rfl

theorem EncodedLength.jmp (imm : Byte) :
    EncodedLength.Statement (.jmp imm) := fun _ => rfl

theorem EncodedLength.jc (imm : Byte) :
    EncodedLength.Statement (.jc imm) := fun _ => rfl

theorem EncodedLength.jz (imm : Byte) :
    EncodedLength.Statement (.jz imm) := fun _ => rfl

theorem EncodedLength.nop :
    EncodedLength.Statement (.nop) := fun _ => rfl

theorem EncodedLength.halt :
    EncodedLength.Statement (.halt) := fun _ => rfl

end Sys2Proof.Laws
end

