-- ==== Sys2Proof/Laws/Rom.lean ====
section
/-! SUPPORT. What the ROM builder can answer, row by row (46_rom_builder.md R99 to R106). -/

namespace Sys2Proof.Machine

open Sys2Proof

@[simp] theorem packBytes_length (cfg : Config) (w : ControlWord) : (packBytes cfg w).length = 3 := rfl

/-- A row of cells is three bytes per word (R101). -/
theorem packRow_length (cfg : Config) (ws : List ControlWord) : (packRow cfg ws).length = ws.length * 3 := by
  induction ws with
  | nil => rfl
  | cons w ws ih =>
    simp only [packRow, List.length_append, ih, packBytes_length, List.length_cons]
    omega

/-- The bytes of the cell at a step are its word's (R99, R104). -/
theorem packRow_getElem? (cfg : Config) {ws : List ControlWord} {s k : Nat} {w : ControlWord} (hk : k < 3)
    (hs : ws[s]? = some w) : (packRow cfg ws)[s * 3 + k]? = (packBytes cfg w)[k]? := by
  induction ws generalizing s with
  | nil => simp at hs
  | cons x ws ih =>
    have hl := packBytes_length cfg x
    cases s with
    | zero =>
      obtain rfl : x = w := by simpa using hs
      simp only [packRow]
      rw [List.getElem?_append_left (by omega), Nat.zero_mul, Nat.zero_add]
    | succ s =>
      simp only [packRow]
      rw [List.getElem?_append_right (by omega), hl, show (s + 1) * 3 + k - 3 = s * 3 + k by omega]
      exact ih (by simpa using hs)

/-- A padded row holds its sequence and then padding, `STEPS` words in all (R100, R103). -/
theorem padRow_ok {cfg : Config} {op : Nat} {v : Variant} {seq row : List ControlWord}
    (h : padRow cfg op v seq = .ok row) :
    seq.length ≤ cfg.steps ∧ row.length = cfg.steps
      ∧ ∀ s, s < cfg.steps → row[s]? = some (seq[s]?.getD cfg.pad) := by
  unfold padRow at h
  split at h
  · cases h
  · cases h
    refine ⟨by omega, by simp; omega, fun s hs => ?_⟩
    by_cases h : s < seq.length
    · rw [List.getElem?_append_left h]
      simp [h]
    · rw [List.getElem?_append_right (by omega), List.getElem?_replicate,
        if_pos (show s - seq.length < cfg.steps - seq.length by omega), List.getElem?_eq_none (by omega)]
      rfl

/-- A row that builds is its compiled row instance, padded (R99, R102). -/
theorem buildRow_ok {cfg : Config} {op : Nat} {v : Variant} {row : List ControlWord}
    (h : buildRow cfg op v = .ok row) :
    ∃ seq, compile cfg (cfg.rowInstance v) = .ok seq ∧ padRow cfg op v seq = .ok row := by
  unfold buildRow at h
  split at h
  · cases h
  · rename_i seq hs
    exact ⟨seq, hs, h⟩

/-- A build that succeeds passed the assignment and is its rows (R99, R106). -/
theorem build_ok {cfg : Config} {image : List Byte} (h : build cfg = .ok image) :
    buildRows cfg 0 cfg.decl = .ok image ∧ cfg.decl.length ≤ 2 ^ cfg.opcodeBits := by
  unfold build assign at h
  split at h
  · cases h
  · rename_i ha
    split at ha
    · cases ha
    · exact ⟨h, by omega⟩

end Sys2Proof.Machine
end

