-- ==== Sys2Proof/Laws/Runs.lean ====
section
/-! SUPPORT. What a run of cycles can do: the prologue of every sequence, and the frame of M2's and M1's runs. -/

namespace Sys2Proof.Machine

open Sys2Proof

@[simp] theorem runOutcome_next {r : Run} {t : State} :
    runOutcome r = .next t ↔ r.fault = none ∧ r.state = t := by
  unfold runOutcome
  cases r.fault <;> simp

@[simp] theorem runOutcome_fault {r : Run} {f : Fault} : runOutcome r = .fault f ↔ r.fault = some f := by
  unfold runOutcome
  cases r.fault <;> simp

/-- The prologue of every sequence but halt's: the fetch of the byte at PC, M2's check of it, then the rest (R66, R114). -/
theorem runWords_framed (op : Nat) (ex : List ControlWord) (s : State) :
    runWords s.pc op 0 (framed ex) s = match readMem s.mem s.pc with
      | none => ⟨s.withMar s.pc, 2, some (.unwrittenRead (.mem s.pc))⟩
      | some b =>
        if b.toNat = op then runWords s.pc op 2 (ex ++ [epilogue]) (s.fetched b)
        else ⟨s.fetched b, 2, some (.programMismatch s.pc b)⟩ := by
  have h0 : fetch0.halt = false := rfl
  have h1 : fetch1.halt = false := rfl
  have e : benchCycle (s.withMar s.pc) fetch1 = _ := benchCycle_fetch1 (withMar_mar s s.pc)
  simp only [withMar_mem, withMar_pc] at e
  cases hb : readMem s.mem s.pc with
  | none =>
    rw [hb] at e
    simp [framed, runWords, h0, h1, e]
  | some b =>
    rw [hb] at e
    have e2 : ((s.withMar s.pc).withIr b).withPc (s.pc + 1) = s.fetched b := rfl
    by_cases hop : b.toNat = op <;> simp [framed, runWords, h0, h1, e, hop] <;> rfl

/-- The epilogue ends a sequence with nothing changed (R64). -/
@[simp] theorem runWords_epilogue (p : Byte) (op k : Nat) (s : State) :
    runWords p op (k + 2) [epilogue] s = ⟨s, k + 3, none⟩ := by
  have h : epilogue.halt = false := rfl
  simp [runWords, h]

/-- One word after the prologue: its cycle, then the rest (R114). -/
theorem runWords_cons {w : ControlWord} (hw : w.halt = false) (p : Byte) (op k : Nat) (ws : List ControlWord)
    (s : State) :
    runWords p op (k + 2) (w :: ws) s = match benchCycle s w with
      | .error f => ⟨s, k + 3, some f⟩
      | .ok s' => runWords p op (k + 3) ws s' := by
  simp only [runWords, hw]
  cases benchCycle s w with
  | error f => rfl
  | ok s' => simp

/-- A sequence with one execute word: the fetch, the check, the word, the epilogue (R66, R114). -/
theorem runWords_framed_one {w : ControlWord} (hw : w.halt = false) (op : Nat) (s : State) :
    runWords s.pc op 0 (framed [w]) s = match readMem s.mem s.pc with
      | none => ⟨s.withMar s.pc, 2, some (.unwrittenRead (.mem s.pc))⟩
      | some b =>
        if b.toNat = op then
          match benchCycle (s.fetched b) w with
          | .error f => ⟨s.fetched b, 3, some f⟩
          | .ok s' => ⟨s', 4, none⟩
        else ⟨s.fetched b, 2, some (.programMismatch s.pc b)⟩ := by
  rw [runWords_framed]
  cases readMem s.mem s.pc with
  | none => rfl
  | some b =>
    simp only [List.singleton_append, runWords_cons (k := 0) hw]
    cases benchCycle (s.fetched b) w with
    | error f => rfl
    | ok s' => simp only [Nat.zero_add, runWords_epilogue (k := 1)]

/-- The frame of M2's words: what no cycle writes is unchanged, STEP is unchanged, the memory keeps its form, and the output
log only grows (R110, R114). -/
theorem runWords_frame (p : Byte) (op : Nat) (ws : List ControlWord) (k : Nat) (s : State) :
    sameFixed s (runWords p op k ws s).state ∧ (runWords p op k ws s).state.stepCount = s.stepCount
      ∧ (Memory.wf s.mem = true → Memory.wf (runWords p op k ws s).state.mem = true)
      ∧ s.out <+: (runWords p op k ws s).state.out := by
  induction ws generalizing k s with
  | nil => exact ⟨⟨rfl, rfl, rfl, rfl, rfl⟩, rfl, id, List.prefix_rfl⟩
  | cons w ws ih =>
    unfold runWords
    split
    · exact ⟨⟨rfl, rfl, rfl, rfl, rfl⟩, rfl, id, List.prefix_rfl⟩
    · split
      · exact ⟨⟨rfl, rfl, rfl, rfl, rfl⟩, rfl, id, List.prefix_rfl⟩
      · rename_i s' hs
        obtain ⟨⟨a, b, c, d, x⟩, e, -⟩ := benchCycle_fixed hs
        have hwf := benchCycle_wf hs
        have hout : s.out <+: s'.out := by
          obtain h | ⟨v, -, h⟩ := benchCycle_out hs <;> rw [h]
          exact List.prefix_append _ _
        split
        · exact ⟨⟨a, b, c, d, x⟩, e, hwf, hout⟩
        · obtain ⟨⟨a', b', c', d', x'⟩, e', f', g'⟩ := ih (k + 1) s'
          exact ⟨⟨a.trans a', b.trans b', c.trans c', d.trans d', x.trans x'⟩, e'.trans e, f' ∘ hwf, hout.trans g'⟩

/-- The frame of one cell of M1: what no cycle writes is unchanged, STEP stays below `STEPS`, the memory keeps its form, and
the output log only grows (R112). -/
theorem runCell_frame {s s' : State} {w : ControlWord} (h : runCell s w = .ok s') :
    sameFixed s s' ∧ (s.stepCount < s.cfg.steps → s'.stepCount < s'.cfg.steps)
      ∧ (Memory.wf s.mem = true → Memory.wf s'.mem = true) ∧ s.out <+: s'.out := by
  unfold runCell at h
  split at h
  · cases h
    exact ⟨⟨rfl, rfl, rfl, rfl, rfl⟩, id, id, List.prefix_rfl⟩
  · split at h
    · cases h
    · rename_i s1 hs
      cases h
      obtain ⟨⟨a, b, c, d, x⟩, -, -⟩ := benchCycle_fixed hs
      refine ⟨⟨a, b, c, d, x⟩, fun hlt => ?_, fun hm => (benchCycle_wf hs hm :), ?_⟩
      · show nextStep s w < s1.cfg.steps
        rw [← a]
        unfold nextStep
        split
        · omega
        · exact Nat.mod_lt _ (by omega)
      · show s.out <+: s1.out
        obtain h | ⟨v, -, h⟩ := benchCycle_out hs <;> rw [h]
        exact List.prefix_append _ _

/-- The frame of a run of M1's cycles. -/
theorem m1Cycles_frame (stop : Bool) (n k : Nat) (s : State) :
    sameFixed s (m1Cycles stop n k s).state
      ∧ (s.stepCount < s.cfg.steps →
          (m1Cycles stop n k s).state.stepCount < (m1Cycles stop n k s).state.cfg.steps)
      ∧ (Memory.wf s.mem = true → Memory.wf (m1Cycles stop n k s).state.mem = true)
      ∧ s.out <+: (m1Cycles stop n k s).state.out := by
  induction n generalizing k s with
  | zero => exact ⟨⟨rfl, rfl, rfl, rfl, rfl⟩, id, id, List.prefix_rfl⟩
  | succ n ih =>
    unfold m1Cycles
    split
    · exact ⟨⟨rfl, rfl, rfl, rfl, rfl⟩, id, id, List.prefix_rfl⟩
    · split
      · exact ⟨⟨rfl, rfl, rfl, rfl, rfl⟩, id, id, List.prefix_rfl⟩
      · split
        · exact ⟨⟨rfl, rfl, rfl, rfl, rfl⟩, id, id, List.prefix_rfl⟩
        · rename_i s' hs
          obtain ⟨⟨a, b, c, d, x⟩, e, f, g⟩ := runCell_frame hs
          split
          · exact ⟨⟨a, b, c, d, x⟩, e, f, g⟩
          · obtain ⟨⟨a', b', c', d', x'⟩, e', f', g'⟩ := ih (k + 1) s'
            exact ⟨⟨a.trans a', b.trans b', c.trans c', d.trans d', x.trans x'⟩, e' ∘ e, f' ∘ f, g.trans g'⟩

/-- A halted machine's cycle changes nothing (R124). -/
theorem m1Cycle_halted {s : State} (h : s.halted = true) : m1Cycle s = .ok s := by
  simp [m1Cycle, h]

/-- Every meaning is the run of its own compiled words (R114). -/
theorem exec_eq_runInstr (i : Instr) (s : State) : exec i s = runOutcome (runInstr i s) := by
  cases i <;> rfl

/-- A cycle whose word does not latch IR leaves IR (R110). -/
theorem benchCycle_ir {s s' : State} {w : ControlWord} (h : benchCycle s w = .ok s') (hw : w.writeTo ≠ .ir) :
    s'.ir = s.ir := by
  have inc (t : State) : (incPC t w).ir = t.ir := by
    unfold incPC
    split <;> rfl
  obtain ⟨-, -, ⟨-, rfl⟩ | ⟨-, v, s1, -, hl, rfl⟩⟩ := benchCycle_ok h
  · exact inc s
  · rw [inc]
    obtain ⟨_, _, rfl⟩ | ⟨_, rfl⟩ | ⟨_, _, _, rfl⟩ | ⟨_, rfl⟩ | ⟨_, rfl⟩ | ⟨hd, -⟩ | ⟨_, rfl⟩ := latch_ok hl <;>
      first | rfl | exact absurd hd hw

end Sys2Proof.Machine
end

