-- ==== Sys2Proof/Machine/Assembly.lean ====
section
/-! DEFINITION. The spellings of instruction values this spec uses for its own programs (30_encoding.md R61). The source defines
none, and no machine reads them. -/

namespace Sys2Proof.Machine

open Sys2Proof

/-- The mnemonic of a variant (R61). -/
def mnemonic : Variant → String
  | .add => "add"
  | .sub => "sub"
  | .and => "and"
  | .or => "or"
  | .xor => "xor"
  | .cmp => "cmp"
  | .shl => "shl"
  | .shr => "shr"
  | .mov => "mov"
  | .jmp => "jmp"
  | .jc => "jc"
  | .jz => "jz"
  | .nop => "nop"
  | .halt => "halt"

/-- A register operand (R61). -/
def regName : Reg → String
  | .A => "A"
  | .B => "B"
  | .C => "C"
  | .D => "D"

/-- A literal bus code (R61). -/
def busName (n : Nat) : String := "bus(" ++ toString n ++ ")"

/-- A source endpoint (R61). -/
def srcName : MoveSrc → String
  | .reg r => regName r
  | .bank => "bank"
  | .acc => "acc"
  | .lit a => busName a.toNat

/-- A destination endpoint (R61). -/
def dstName : MoveDst → String
  | .reg r => regName r
  | .bank => "bank"
  | .out => "out"
  | .lit a => busName a.toNat

/-- The operands of a value, the destination first, separated by commas; an immediate is written in decimal (R61). -/
def operandText : Instr → String
  | .add r1 r2 => regName r1 ++ ", " ++ regName r2
  | .sub r1 r2 => regName r1 ++ ", " ++ regName r2
  | .and r1 r2 => regName r1 ++ ", " ++ regName r2
  | .or r1 r2 => regName r1 ++ ", " ++ regName r2
  | .xor r1 r2 => regName r1 ++ ", " ++ regName r2
  | .cmp r1 r2 => regName r1 ++ ", " ++ regName r2
  | .shl r => regName r
  | .shr r => regName r
  | .mov dst src => dstName dst ++ ", " ++ srcName src
  | .jmp imm => toString imm.toNat
  | .jc imm => toString imm.toNat
  | .jz imm => toString imm.toNat
  | .nop => ""
  | .halt => ""

/-- One line of text: the mnemonic and its operands (R61). -/
def spelling (i : Instr) : String :=
  if operandText i = "" then mnemonic i.variant else mnemonic i.variant ++ " " ++ operandText i

end Sys2Proof.Machine
end

