-- ==== Sys2Proof/Tests/Slice0.lean ====
section
/-! SUPPORT. Tests. Expected values are the worked vectors of 95_test_vectors.md, named V-...; a test without such a name is worked
by hand from the rule its docstring cites. The last section shows, for every statement with hypotheses, values that meet them. -/

namespace Sys2Proof.Tests

open Sys2Proof Sys2Proof.Machine Sys2Proof.Claims

/-! ## Helpers -/

/-- The reference configuration, to be changed in one parameter. -/
def ref : Config := Config.reference

/-- The neutral word, to be changed in one field. -/
def neutral : ControlWord := ControlWord.neutral

/-- The packed words of a compiled instruction, as numbers; none where `compile` fails. -/
def words (cfg : Config) (i : Instr) : Option (List Nat) :=
  match compile cfg i with
  | .ok seq => some (seq.map fun w => (pack cfg w).toNat)
  | .error _ => none

/-- The execute word of an instruction with one, as a number. -/
def execWord (i : Instr) : Option Nat := (words ref i).bind fun ws => ws[2]?

/-- A three-byte cell of the reference image, as a number. -/
def romWord (op s : Nat) : Nat :=
  (((builtImage Config.legacy).drop (romOffset Config.legacy op s 0)).take 3).foldl (fun n b => n * 256 + b.toNat) 0

/-- A bench: memory cells, registers A and B, MAR, and PC 0. The ROM is left out, since the bench never reads it. -/
def bench (cells : Memory) (a b mar : Option Byte) : State :=
  { State.reset with rom := [], mem := cells, regs := ⟨a, b, none, none⟩, mar := mar }

/-- The bench of V-BENCH-CYC-1. -/
def s0 : State := { bench [(0x00, 0x08), (0x10, 0x77)] (some 0x11) (some 0x22) (some 0x00) with pc := 0x01 }

/-- The state after one bench cycle of the word a 24-bit number packs. -/
def cycle (s : State) (w : Nat) : Option (Except Fault State) :=
  match unpackWord ref (BitVec.ofNat 24 w) with
  | .ok c => some (benchCycle s c)
  | .error _ => none

/-- `s0` after one bench cycle is `t`. -/
def gives (w : Nat) (t : State) : Bool := decide (cycle s0 w = some (.ok t))

/-- `s0` faults in one bench cycle. -/
def faults (w : Nat) (f : Fault) : Bool := decide (cycle s0 w = some (.error f))

/-- M1 after reset with the reference image, memory cells and register A. -/
def m1 (cells : Memory) (a : Option Byte) : State :=
  { State.reset with mem := cells, regs := ⟨a, none, none, none⟩ }

/-- M2 after reset, without an image, with one instruction at 0, its memory and register A. -/
def m2 (i : Instr) (cells : Memory) (a : Option Byte) : State :=
  { bench cells a none none with drive := .sequence, prog := [(0, i)] }

/-- The state a step ends in, seen through a function; none where it does not end in a next state. -/
def seen {α : Type} (o : Host.Outcome State Fault Refusal) (f : State → α) : Option α :=
  match o with
  | .next t => some (f t)
  | .fault _ => none
  | .refused _ => none

/-- The fault a step ends in. -/
def stopped (o : Host.Outcome State Fault Refusal) : Option Fault :=
  match o with
  | .fault f => some f
  | .next _ => none
  | .refused _ => none

/-! ## Well-formedness and the check of R8 -/

/-- V-MOV-1: `mov bus(10), B` names no writable component. -/
theorem test_wf_refuses_unassigned_destination : (Instr.mov (.lit 10) (.reg .B)).wf ref = false := by decide

/-- R55: a literal source code that no component has is refused. -/
theorem test_wf_refuses_unassigned_source :
    (Instr.mov (.reg .B) (.lit 7)).wf { ref with readCodes := { ref.readCodes with bank := 0 } } = false := by decide

theorem test_wf_accepts : (Instr.mov (.lit 9) (.lit 7)).wf ref = true ∧ (Instr.jmp 0xFF).wf ref = true := by decide

/-- V-MOV-1: refused at construction. -/
theorem test_construct_refuses :
    constructDst ref 10 = .error ⟨.mov, .dst, 10⟩ ∧ constructDst ref 16 = .error ⟨.mov, .dst, 16⟩
      ∧ constructSrc ref 8 = .error ⟨.mov, .src, 8⟩ := by decide

theorem test_construct_accepts : constructDst ref 9 = .ok (.lit 9) ∧ constructSrc ref 7 = .ok (.lit 7) := by decide

theorem test_reference_is_valid : Config.reference.valid = true ∧ Config.legacy.valid = true := by decide

/-- R8, each constraint broken in turn. -/
theorem test_valid_refuses_shared_code : ({ ref with shiftCodes := { ref.shiftCodes with shiftLeft := 3 } } : Config).valid = false := by decide

theorem test_valid_refuses_A_not_zero :
    Config.registerAZero { ref with regCodes := { ref.regCodes with regA := 1, regB := 0 } } = false := by decide

theorem test_valid_refuses_disagreeing_registers :
    ({ ref with regCodes := { ref.regCodes with regB := 2, regC := 1 } } : Config).valid = false := by decide

theorem test_valid_refuses_neutral_not_zero :
    ({ ref with logicCodes := { ref.logicCodes with and := 1, or := 0 } } : Config).valid = false := by decide

theorem test_valid_refuses_missing_variant : ({ ref with decl := [.add, .halt] } : Config).valid = false := by decide

theorem test_valid_refuses_repeated_variant : ({ ref with decl := .add :: ref.decl } : Config).valid = false := by decide

theorem test_valid_refuses_opcode_bits :
    ({ ref with opcodeBits := 0 } : Config).valid = false ∧ ({ ref with opcodeBits := 9 } : Config).valid = false := by decide

theorem test_valid_refuses_no_steps : ({ ref with steps := 0 } : Config).valid = false := by decide

/-- R55, R106: a row instance that is no well-formed value is refused at boot. -/
theorem test_boot_refuses_malformed_row :
    configAccepted { ref with rows := { ref.rows with mov := (.lit 10, .reg .A) } } = false := by decide

/-! ## Decoding and encoding -/

/-- R57, R58: the opcode byte of each row of the table, the ALU family. -/
theorem test_decode_alu_words :
    decodeTableWord 8 0b00000000 = some (.add .A .A) ∧ decodeTableWord 8 0b00000001 = some (.sub .A .A)
      ∧ decodeTableWord 8 0b00000010 = some (.and .A .A) ∧ decodeTableWord 8 0b00000011 = some (.or .A .A)
      ∧ decodeTableWord 8 0b00000100 = some (.xor .A .A) ∧ decodeTableWord 8 0b00000101 = some (.cmp .A .A)
      ∧ decodeTableWord 8 0b00000110 = some (.shl .A) ∧ decodeTableWord 8 0b00000111 = some (.shr .A) := by decide

/-- R57, R58: mov and the control-flow family; a jump's second byte is its immediate. -/
theorem test_decode_other_words :
    decodeTableWord 8 0b00001000 = some (.mov (.reg .A) (.reg .A))
      ∧ decodeTableWord 16 0b0000010000001001 = some (.jmp 0x04)
      ∧ decodeTableWord 16 0b1111111100001010 = some (.jc 0xFF)
      ∧ decodeTableWord 16 0b0000000000001011 = some (.jz 0x00)
      ∧ decodeTableWord 8 0b00001100 = some .nop ∧ decodeTableWord 8 0b00001101 = some .halt := by decide

/-- R60: bytes with no row, and a missing immediate. -/
theorem test_decode_refuses :
    decode ref [0x0E] = .error (.opcodeOutOfImage 0x0E) ∧ decode ref [0xFF] = .error (.opcodeOutOfImage 0xFF)
      ∧ decode ref [] = .error .noBytes ∧ decode ref [0x09] = .error (.missingImmediate 0x09) := by decide

/-- V-ENC-1. -/
theorem test_encode :
    encode ref (.add .C .D) = [0x00] ∧ encode ref (.shr .B) = [0x07] ∧ encode ref (.mov .out (.reg .C)) = [0x08]
      ∧ encode ref (.jmp 0x04) = [0x09, 0x04] ∧ encode ref (.jc 0xFF) = [0x0A, 0xFF]
      ∧ encode ref (.jz 0x00) = [0x0B, 0x00] ∧ encode ref .nop = [0x0C] ∧ encode ref .halt = [0x0D] := by decide

/-- V-SRC-6: one field changed at a time. -/
theorem test_pack_one_field :
    pack ref { neutral with writeTo := .reg .B } = 0x100000 ∧ pack ref { neutral with readFrom := .reg .B } = 0x020000
      ∧ pack ref { neutral with aluLeft := .B } = 0x008000 ∧ pack ref { neutral with aluRight := .B } = 0x002000
      ∧ pack ref { neutral with aluShift := .shiftLeft } = 0x000800 ∧ pack ref { neutral with aluLogic := .or } = 0x000020
      ∧ pack ref { neutral with aluSubtract := true } = 0x000010
      ∧ pack ref { neutral with programCounterEnable := true } = 0x000008
      ∧ pack ref { neutral with bankSelectEnable := true } = 0x000004 ∧ pack ref { neutral with halt := true } = 0x000002
      ∧ pack ref { neutral with stepReset := true } = 0x000001 := by decide

/-- V-SRC-8 and V-PACK-1: every field at its largest value, and a logic code of 8. -/
theorem test_pack_largest :
    packBytes ref ⟨.bank, .out, .D, .D, .passThrough, .ones, true, true, true, true, true⟩ = [0x9F, 0xF9, 0xFF]
      ∧ unpack ref 0x9F 0xF9 0xFF = .ok ⟨.bank, .out, .D, .D, .passThrough, .ones, true, true, true, true, true⟩
      ∧ packBytes ref { neutral with aluLogic := .notA } = [0x00, 0x01, 0x00] := by decide

/-- V-SRC-3, V-SRC-4, V-PACK-2. -/
theorem test_pack_fixed_words :
    pack ref { neutral with writeTo := .mem } = 0x500000 ∧ pack ref neutral = 0 ∧ pack ref fetch0 = 0x680000
      ∧ pack ref fetch1 = 0x8A0008 ∧ pack ref epilogue = 0x000001 ∧ pack ref haltWord = 0x000002 := by decide

/-- V-UNPACK-1. -/
theorem test_unpack_refuses :
    unpack ref 0x00 0x06 0x00 = .error (.unusedBitsSet 0x000600) ∧ unpack ref 0x00 0x02 0x00 = .error (.unusedBitsSet 0x000200)
      ∧ unpack ref 0x00 0x04 0x00 = .error (.unusedBitsSet 0x000400)
      ∧ unpack ref 0xA0 0x00 0x00 = .error (.unassignedWriteCode 10)
      ∧ unpack ref 0xF0 0x00 0x00 = .error (.unassignedWriteCode 15)
      ∧ unpack ref 0x00 0x01 0x00 = .ok { neutral with aluLogic := .notA } := by decide

/-! ## The compiler -/

/-- V-PRO-1. -/
theorem test_compile_sequences :
    words ref (.add .A .A) = some [0x680000, 0x8A0008, 0x0C18E0, 0x000001]
      ∧ words ref (.mov (.reg .B) .acc) = some [0x680000, 0x8A0008, 0x1C0000, 0x000001]
      ∧ words ref (.jmp 0xFF) = some [0x680000, 0x8A0008, 0x680000, 0x4A0000, 0x000001]
      ∧ words ref .halt = some [0x000002] := by decide

/-- V-CF-1: the open point of R88 under both policies. -/
theorem test_compile_open_point :
    compile ref (.jc 4) = .error (.unimplemented .jc) ∧ compile ref (.jz 4) = .error (.unimplemented .jz)
      ∧ compile ref .nop = .error (.unimplemented .nop)
      ∧ words Config.legacy (.jc 4) = some [0x680000, 0x8A0008, 0x000001]
      ∧ words Config.legacy (.jz 4) = some [0x680000, 0x8A0008, 0x000001]
      ∧ words Config.legacy .nop = some [0x680000, 0x8A0008, 0x000001] := by decide

/-- V-SRC-1 and V-ALU-1. -/
theorem test_alu_execute_words :
    execWord (.add .D .C) = some 0x3DD8E0 ∧ execWord (.sub .A .B) = some 0x0C38F0 ∧ execWord (.sub .C .C) = some 0x2D58F0
      ∧ execWord (.and .C .D) = some 0x2D6000 ∧ execWord (.or .B .D) = some 0x1CE020 ∧ execWord (.xor .B .C) = some 0x1CC040
      ∧ execWord (.cmp .D .C) = some 0x01D8F0 ∧ execWord (.shl .B) = some 0x1CA9C0 ∧ execWord (.shr .D) = some 0x3DF1C0 := by
  decide

/-- V-MOV-1. -/
theorem test_mov_execute_words :
    execWord (.mov (.reg .A) (.reg .B)) = some 0x020000 ∧ execWord (.mov (.reg .D) .bank) = some 0x3E0000
      ∧ execWord (.mov .out .acc) = some 0x9C0000 ∧ execWord (.mov .bank (.lit 5)) = some 0x7A0000
      ∧ execWord (.mov (.lit 4) .bank) = some 0x4E0000 ∧ execWord (.mov (.lit 6) (.reg .B)) = some 0x620000
      ∧ execWord (.mov (.lit 8) (.lit 5)) = some 0x8A0000 ∧ execWord (.mov (.reg .A) (.reg .A)) = some 0x000000 := by decide

/-- R61. -/
theorem test_spelling :
    spelling (.add .A .B) = "add A, B" ∧ spelling (.mov (.lit 5) .acc) = "mov bus(5), acc" ∧ spelling (.jmp 0x04) = "jmp 4"
      ∧ spelling (.mov .out .bank) = "mov out, bank" ∧ spelling (.shl .C) = "shl C" ∧ spelling .halt = "halt" := by decide

/-! ## The ROM image -/

/-- V-ROM and V-BLD-3: length and byte sum, of the reference image and of the one with five steps. -/
theorem test_rom_sum :
    (builtImage Config.legacy).length = 336
      ∧ ((builtImage Config.legacy).map BitVec.toNat).foldl (fun a b => a + b) 0 = 4809
      ∧ (builtImage { Config.legacy with steps := 5 }).length = 210
      ∧ ((builtImage { Config.legacy with steps := 5 }).map BitVec.toNat).foldl (fun a b => a + b) 0 = 4809 := by
  decide +kernel

/-- V-ROM: step 2 of every row, and the cells that set rows 8, 9 and 13 apart. -/
theorem test_rom_rows :
    (List.range 14).map (fun op => romWord op 2) = [0x0C18E0, 0x0C18F0, 0x0C0000, 0x0C0020, 0x0C0040, 0x0018F0, 0x0C09C0,
        0x0C11C0, 0x000000, 0x680000, 0x000001, 0x000001, 0x000001, 0x000000]
      ∧ romWord 8 3 = 0x000001 ∧ romWord 9 3 = 0x4A0000 ∧ romWord 9 4 = 0x000001 ∧ romWord 13 0 = 0x000002
      ∧ romWord 12 0 = 0x680000 ∧ romWord 12 1 = 0x8A0008 ∧ romWord 0 7 = 0 := by decide +kernel

/-- V-OPC-2: add and sub swapped. -/
theorem test_build_swapped :
    let cfg := { Config.legacy with decl := [.sub, .add] ++ Config.legacy.decl.drop 2 }
    opcode cfg .sub = 0 ∧ opcode cfg .add = 1 ∧ opcode cfg .halt = 13
      ∧ ((builtImage cfg).drop 6).take 3 = [0x0C, 0x18, 0xF0] ∧ ((builtImage cfg).drop 30).take 3 = [0x0C, 0x18, 0xE0] := by
  decide +kernel

/-- R116, R117: the tags. -/
theorem test_tags :
    buildErrorTag (.sequenceTooLong .jmp 9 5 4) = 4 ∧ unpackErrorTag (.unassignedReadCode 7) = 7
      ∧ faultTag (.unwrittenRead .mar) = some 16 ∧ faultTag (.programMismatch 0 1) = some 22 := by decide

/-! ## The bench -/

/-- V-BENCH-ALU-1. -/
theorem test_alu_arithmetic :
    aluFn .b .passThrough false 0x12 0x34 = .ok 0x46 ∧ aluFn .b .passThrough false 0xFF 0x01 = .ok 0x00
      ∧ aluFn .b .passThrough true 0x34 0x12 = .ok 0x22 ∧ aluFn .b .passThrough true 0x00 0x01 = .ok 0xFF
      ∧ aluFn .b .passThrough true 0x12 0x34 = .ok 0xDE := by decide

/-- V-BENCH-ALU-2: the sixteen functions, in the order of R47. -/
theorem test_alu_logic :
    AluLogic.all.map (fun f => logicFn f 0xF0 0x3C) = [0x30, 0xFC, 0xCC, 0xCF, 0x03, 0x33, 0xF0, 0x3C,
      0x0F, 0xC3, 0xC0, 0x0C, 0xF3, 0x3F, 0x00, 0xFF] := by decide

/-- V-BENCH-ALU-3. -/
theorem test_alu_shifts :
    aluFn .zero .shiftLeft false 0x81 0 = .ok 0x02 ∧ aluFn .zero .shiftLeft false 0x40 0 = .ok 0x80
      ∧ aluFn .zero .shiftRight false 0x81 0 = .ok 0x40 ∧ aluFn .zero .shiftRight false 0x01 0 = .ok 0x00 := by decide

/-- V-BENCH-ALU-4. -/
theorem test_alu_refuses :
    aluFn .and .passThrough false 0 0 = .error (.aluUnmodelled .and .passThrough false)
      ∧ aluFn .and .noShift true 0 0 = .error (.aluUnmodelled .and .noShift true)
      ∧ aluFn .or .shiftLeft false 0 0 = .error (.aluUnmodelled .or .shiftLeft false)
      ∧ aluFn .zero .shiftLeft true 0 0 = .error (.aluUnmodelled .zero .shiftLeft true) := by decide

/-- V-BENCH-CYC-1: the cycles that change one register. -/
theorem test_cycle_registers :
    gives 0x000000 s0 = true ∧ gives 0x680000 (s0.withMar 0x01) = true
      ∧ gives 0x8A0008 ((s0.withIr 0x08).withPc 0x02) = true ∧ gives 0x200000 (s0.withReg .C 0x11) = true
      ∧ gives 0x700000 (s0.withBank 0x11) = true ∧ gives 0x7E0000 s0 = true ∧ gives 0x3C0000 (s0.withReg .D 0x11) = true
      ∧ gives 0x2A0000 (s0.withReg .C 0x08) = true ∧ gives 0x620000 (s0.withMar 0x22) = true
      ∧ gives 0x400000 (s0.withPc 0x11) = true ∧ gives 0x080000 (s0.withReg .A 0x01) = true
      ∧ gives 0x820000 (s0.withIr 0x22) = true := by decide

/-- V-BENCH-CYC-1: the ALU, the sinks, the increment. -/
theorem test_cycle_alu_and_sinks :
    gives 0x0C38E0 (s0.withReg .A 0x33) = true ∧ gives 0x0C38F0 (s0.withReg .A 0xEF) = true ∧ gives 0x0038F0 s0 = true
      ∧ gives 0x1CA9C0 (s0.withReg .B 0x44) = true ∧ gives 0x920000 { s0 with out := [0x22] } = true
      ∧ gives 0x520000 { s0 with mem := [(0x00, 0x22), (0x10, 0x77)] } = true ∧ gives 0x000008 (s0.withPc 0x02) = true
      ∧ gives 0x000001 s0 = true ∧ cycle (s0.withPc 0xFF) 0x000008 = some (.ok (s0.withPc 0x00)) := by decide

/-- V-BENCH-CYC-1: the faults. -/
theorem test_cycle_faults :
    faults 0x040000 (.unwrittenRead (.reg .C)) = true ∧ faults 0x0E0000 (.unwrittenRead .bank) = true
      ∧ faults 0x2D18E0 (.unwrittenRead (.reg .C)) = true ∧ faults 0x400008 .pcWriteConflict = true
      ∧ faults 0x000004 .bankSelectUnmodelled = true ∧ faults 0x40000C .bankSelectUnmodelled = true
      ∧ faults 0x0C1820 (.aluUnmodelled .or .passThrough false) = true
      ∧ cycle { s0 with mar := none } 0x520000 = some (.error (.unwrittenRead .mar)) := by decide

/-! ## The meanings, one step each -/

/-- R73: `C3 + C3` wraps to `86` (program P1); the operands are the instruction's own. -/
theorem test_add_wraps : seen (exec (.add .A .A) (bench [(0, 0x00)] (some 0xC3) none none)) (fun t => (t.regs.a, t.pc, t.mar))
    = some (some 0x86, 0x01, some 0x00) := by decide

theorem test_sub : seen (exec (.sub .A .B) (bench [(0, 0x01)] (some 0x12) (some 0x34) none)) (fun t => (t.regs.a, t.regs.b))
    = some (some 0xDE, some 0x34) := by decide

theorem test_and : seen (exec (.and .A .B) (bench [(0, 0x02)] (some 0xF0) (some 0x3C) none)) (fun t => t.regs.a)
    = some (some 0x30) := by decide

theorem test_or : seen (exec (.or .B .A) (bench [(0, 0x03)] (some 0xF0) (some 0x3C) none)) (fun t => t.regs.b)
    = some (some 0xFC) := by decide

theorem test_xor : seen (exec (.xor .A .B) (bench [(0, 0x04)] (some 0xF0) (some 0x3C) none)) (fun t => t.regs.a)
    = some (some 0xCC) := by decide

theorem test_cmp : seen (exec (.cmp .A .C) (bench [(0, 0x05)] (some 0xF0) none none)) (fun t => (t.regs, t.pc))
    = some (⟨some 0xF0, none, none, none⟩, 0x01) := by decide

theorem test_shl : seen (exec (.shl .A) (bench [(0, 0x06)] (some 0x81) none none)) (fun t => t.regs.a)
    = some (some 0x02) := by decide

theorem test_shr : seen (exec (.shr .A) (bench [(0, 0x07)] (some 0x81) none none)) (fun t => t.regs.a)
    = some (some 0x40) := by decide

/-- Program P4, its first instruction: the byte read is the opcode itself (R85). -/
theorem test_mov_from_memory : seen (exec (.mov (.reg .C) (.lit 5)) (bench [(0, 0x08)] (some 0x10) none none))
    (fun t => (t.regs.c, t.pc, t.mar, t.ir)) = some (some 0x08, 0x01, some 0x00, 0x08) := by decide

/-- Program P4, its fourth instruction: the move overwrites its own opcode (R134). -/
theorem test_mov_to_memory : seen (exec (.mov (.lit 5) (.reg .A)) { bench [(3, 0x08)] (some 0x18) none none with pc := 3 })
    (fun t => (t.mem, t.pc)) = some ([(3, 0x18)], 0x04) := by decide

/-- Program P2, its first instruction. -/
theorem test_jmp : seen (exec (.jmp 0x04) (bench [(0, 0x09), (1, 0x04)] none none none)) (fun t => (t.pc, t.mar, t.ir))
    = some (0x04, some 0x01, 0x09) := by decide

/-- Program P3, its first instruction: the immediate is not consumed (R133). -/
theorem test_jc : seen (exec (.jc 0x04) (bench [(0, 0x0A), (1, 0x04)] none none none)) (fun t => (t.pc, t.mar))
    = some (0x01, some 0x00) := by decide

theorem test_jz : seen (exec (.jz 0x04) (bench [(0, 0x0B), (1, 0x04)] none none none)) (fun t => (t.pc, t.mar))
    = some (0x01, some 0x00) := by decide

theorem test_nop : seen (exec .nop (bench [(0, 0x0C)] none none none)) (fun t => (t.pc, t.ir)) = some (0x01, 0x0C) := by decide

theorem test_halt : exec .halt (bench [] none none none) = .next (bench [] none none none).withHalted := rfl

/-- V-M2-3. -/
theorem test_nop_unimplemented :
    stopped (exec .nop { bench [(0, 0x0C)] none none none with cfg := ref }) = some (.unimplemented .nop) := by decide

/-! ## The machines -/

/-- V-M1-1 and V-M1-2: two cycles of the prologue, then shr, then the epilogue, four cycles in all. -/
theorem test_m1_shr :
    m1Clock 2 (m1 [(0, 0x07)] (some 0x81))
        = ⟨{ m1 [(0, 0x07)] (some 0x81) with mar := some 0, ir := 0x07, pc := 0x01, stepCount := 2 }, 2, none⟩
      ∧ m1Instruction (m1 [(0, 0x07)] (some 0x81))
        = ⟨{ m1 [(0, 0x07)] (some 0x40) with mar := some 0, ir := 0x07, pc := 0x01 }, 4, none⟩ := by decide +kernel

/-- V-M1-3, V-M1-5 and V-M1-7: an unwritten operand, an opcode with no row, a fetch from unwritten memory. -/
theorem test_m1_faults :
    m1Instruction (m1 [(0, 0x00)] none)
        = ⟨{ m1 [(0, 0x00)] none with mar := some 0, pc := 0x01, stepCount := 2 }, 3, some (.unwrittenRead (.reg .A))⟩
      ∧ m1Instruction (m1 [(0, 0x20)] (some 1))
        = ⟨{ m1 [(0, 0x20)] (some 1) with mar := some 0, ir := 0x20, pc := 1, stepCount := 2 }, 2,
            some (.opcodeOutOfImage 0x20)⟩
      ∧ m1Instruction (m1 [] (some 1))
        = ⟨{ m1 [] (some 1) with mar := some 0, stepCount := 1 }, 2, some (.unwrittenRead (.mem 0))⟩ := by decide +kernel

/-- V-M1-6: hand-made images. -/
theorem test_m1_hand_made :
    (m1Instruction { m1 [(0, 0x00)] (some 1) with rom := [0x00, 0x06, 0x00] ++ (builtImage Config.legacy).drop 3 }).fault
        = some (.unpackFailed (.unusedBitsSet 0x000600))
      ∧ (m1Instruction { m1 [(0, 0x00)] (some 1) with rom := [0xA0, 0x00, 0x00] ++ (builtImage Config.legacy).drop 3 })
        = ⟨{ m1 [(0, 0x00)] (some 1) with rom := [0xA0, 0x00, 0x00] ++ (builtImage Config.legacy).drop 3 }, 0,
            some (.unpackFailed (.unassignedWriteCode 10))⟩ := by decide +kernel

/-- V-M1-4, halt's opcode in IR at reset, and program P1, cycles 8 to 16: halt after the prologue and the padding (R132). -/
theorem test_m1_halt :
    m1Instruction { m1 [(0, 0x00)] (some 1) with ir := 0x0D }
        = ⟨{ m1 [(0, 0x00)] (some 1) with ir := 0x0D, halted := true }, 1, none⟩
      ∧ m1Instruction { m1 [(2, 0x0D)] (some 0x43) with pc := 2, ir := 0x07 }
        = ⟨{ m1 [(2, 0x0D)] (some 0x43) with pc := 3, mar := some 2, ir := 0x0D, halted := true }, 9, none⟩ := by
  decide +kernel

/-- V-M2-1: a program mismatch. -/
theorem test_m2_mismatch :
    stopped (step (m2 (.add .A .A) [(0, 0x01)] (some 1))) = some (.programMismatch 0x00 0x01)
      ∧ (runInstr (.add .A .A) (m2 (.add .A .A) [(0, 0x01)] (some 1))).state.pc = 0x01
      ∧ (runInstr (.add .A .A) (m2 (.add .A .A) [(0, 0x01)] (some 1))).cycles = 2 := by decide

/-- V-M2-2: no instruction. -/
theorem test_m2_no_instruction :
    stopped (step { m2 .halt [] none with prog := [] }) = some (.noInstructionAtPC 0x00) := by decide

/-- R28, R129: boot with nothing loaded is the state after reset; V-BLD-1, R106: under the reference policy there is no image. -/
theorem test_boot :
    bootM1 Config.legacy Load.empty = .ok State.reset
      ∧ bootM1 Config.reference Load.empty = .error (.build (.unimplemented .jc 10)) := by decide +kernel

/-- R128: a program that overwrote its own byte at 0 is whole again after reset and runs from 0x00, on M2 and on M1. -/
theorem test_reset_keeps_program :
    (match bootM2 Config.legacy [(0, .mov (.lit 5) (.lit 4)), (1, .halt)] Load.empty with
      | .ok s => seen (step s) (fun t => (t.mem, (restart t Load.empty).mem, seen (step (restart t Load.empty)) (fun u => u.pc)))
      | .error _ => none) = some ([(0, 0x01), (1, 0x0D)], [(0, 0x08), (1, 0x0D)], some 0x01)
      ∧ (match bootM1 Config.legacy { Load.empty with cells := [(0, 0x0C)] } with
      | .ok s => seen (step s) (fun t => seen (step (resetState t)) (fun u => (u.pc, u.mem)))
      | .error _ => none) = some (some (0x01, [(0, 0x0C)])) := by decide +kernel

/-- R8, V-M1-6: a boot on a hand-made image checks the configuration and takes any image. -/
theorem test_boot_hand_made :
    bootHandMade { ref with steps := 0 } [0x00, 0x06, 0x00] Load.empty = .error .invalidConfiguration
      ∧ bootHandMade ref [0x00, 0x06, 0x00] Load.empty = .ok { State.reset with cfg := ref, rom := [0x00, 0x06, 0x00] } := by
  decide +kernel

/-- The placed word is fetched and run: a jump from reset on both machines (log entry 8). -/
theorem test_with_fetch_word :
    seen (step (State.reset.withFetchWord 16 0x0409)) (fun t => t.pc) = some 0x04
      ∧ seen (step (State.withFetchWord (m2 .nop [] none) 16 0x0409)) (fun t => t.pc) = some 0x04 := by decide +kernel

/-- R29: addresses wrap at the top of the space. -/
theorem test_program_cells_wrap : programCells 0xFF [0x09, 0x04] = [(0xFF, 0x09), (0x00, 0x04)] := by decide

/-! ## Witnesses: values that meet the hypotheses of each statement that has any -/

/-- The reference image is what `build` gives (V-ROM). -/
theorem legacy_build : build Config.legacy = .ok (builtImage Config.legacy) := by decide +kernel

/-- M1 after reset, with any memory and register A, has a built image. -/
theorem m1_built (cells : Memory) (a : Option Byte) : (m1 cells a).built :=
  ⟨(by decide : Config.legacy.valid = true), legacy_build⟩

theorem m1_atFetch (cells : Memory) (a : Option Byte) : (m1 cells a).atFetch :=
  ⟨rfl, rfl, rfl, .add, (by decide : Config.legacy.decl[0]? = some .add), by decide⟩

theorem legacy_rows_keep_ir : rowsKeepIr Config.legacy := by
  show dstComp Config.legacy (.reg .A) ≠ some .ir
  decide

theorem witness_ConfigurationCheckIsTheConstraints : ({ ref with steps := 0 } : Config).valid = false := by decide

theorem witness_valid_configuration : Config.legacy.valid = true ∧ ({ Config.legacy with steps := 1 } : Config).valid = true := by
  decide

theorem witness_PackUnpackRoundTrip : ref.valid = true ∧ unpack ref 0x9F 0xF9 0xFF
    = .ok ⟨.bank, .out, .D, .D, .passThrough, .ones, true, true, true, true, true⟩ := by decide

theorem witness_PackInjectiveNeutralGolden : ref.valid = true := by decide

/-- One word for each of the three clauses: an unused bit, the first unassigned write code, the last assigned one. -/
theorem witness_UnpackRefusesInOrder :
    ref.valid = true ∧ (0x000200 : Word24).extractLsb' 9 2 ≠ 0#2
      ∧ ((0xA00000 : Word24).extractLsb' 9 2 = 0#2 ∧ ref.writeAssigned ((0xA00000 : Word24).extractLsb' 20 4) = false)
      ∧ ((0x900000 : Word24).extractLsb' 9 2 = 0#2 ∧ ref.writeCode .out = (0x900000 : Word24).extractLsb' 20 4) := by decide

theorem witness_DecodeAfterEncode :
    Config.legacy.valid = true ∧ instrLength (Instr.jmp 0xFF).variant = 2
      ∧ Instr.add .A .A = Config.legacy.rowInstance (Instr.add .A .A).variant := by decide

theorem witness_EncodeAfterDecode :
    Config.legacy.valid = true ∧ decode Config.legacy [0x09, 0x04, 0x0D] = .ok (.jmp 0x04, [0x0D]) := by decide

/-- The first and last opcodes, and the first and last of length two. -/
theorem witness_LengthFromOpcodeByte :
    Config.legacy.valid = true ∧ decode Config.legacy [0x00] = .ok (.add .A .A, [])
      ∧ decode Config.legacy [0x0D] = .ok (.halt, []) ∧ decode Config.legacy [0x09, 0xFF] = .ok (.jmp 0xFF, [])
      ∧ decode Config.legacy [0x0B, 0x00] = .ok (.jz 0x00, []) := by decide

/-- The smallest index that holds the fourteen variants, and the largest that does not. -/
theorem witness_OpcodesAreDensePositions :
    ({ ref with opcodeBits := 4 } : Config).valid = true
      ∧ ({ ref with opcodeBits := 4 } : Config).decl.length ≤ 2 ^ ({ ref with opcodeBits := 4 } : Config).opcodeBits := by decide

theorem witness_ExhaustionIsFatal :
    2 ^ ({ ref with opcodeBits := 3 } : Config).opcodeBits < ({ ref with opcodeBits := 3 } : Config).decl.length
      ∧ ({ ref with opcodeBits := 4 } : Config).decl.length ≤ 2 ^ ({ ref with opcodeBits := 4 } : Config).opcodeBits := by decide

theorem witness_SwappedDeclarationsSwapOpcodes :
    ref.valid = true ∧ (0 : Nat) ≠ 13 ∧ ref.decl[0]? = some .add ∧ ref.decl[13]? = some .halt := by decide

/-- Both branches: jc under Fail, and under LegacyEmpty. -/
theorem witness_CompileIsTotalOnWellFormed :
    (Instr.jc 0).wf ref = true ∧ (ref.unimpl = .fail ∧ isOpenPoint (Instr.jc 0).variant = true)
      ∧ (Instr.jc 0).wf Config.legacy = true ∧ ¬(Config.legacy.unimpl = .fail) := by decide

theorem witness_CompiledSequenceShape :
    compile Config.legacy .nop = .ok [fetch0, fetch1, epilogue] ∧ compile ref .halt = .ok [haltWord] := by decide

/-- The shortest and the longest sequence, and the policy that gives none. -/
theorem witness_CompiledSequenceLengths :
    compile ref .halt = .ok [haltWord] ∧ (words ref (.jmp 0)).map List.length = some 5
      ∧ ref.unimpl = .fail ∧ isOpenPoint Instr.nop.variant = true := by decide

theorem witness_MoveWordBytes :
    ref.valid = true ∧ dstComp ref (.lit 9) = some .out ∧ srcComp ref (.lit 7) = some .bank := by decide

theorem witness_LiteralEndpointsAreTheirComponents : ref.valid = true := by decide

/-- The first and the last row and step. -/
theorem witness_BuiltImageCells :
    Config.legacy.valid = true ∧ build Config.legacy = .ok (builtImage Config.legacy)
      ∧ Config.legacy.decl[0]? = some .add ∧ Config.legacy.decl[13]? = some .halt ∧ 7 < Config.legacy.steps :=
  ⟨by decide, legacy_build, by decide, by decide, by decide⟩

/-- The shortest row that fits, and the longest that does not. -/
theorem witness_ShortRowsFailTheBuild :
    let five := { Config.legacy with steps := 5 }
    let four := { Config.legacy with steps := 4 }
    (five.valid = true ∧ five.rowsWellFormed = true ∧ five.unimpl = .legacyEmpty
        ∧ five.decl.length ≤ 2 ^ five.opcodeBits ∧ 5 ≤ five.steps)
      ∧ (four.valid = true ∧ four.rowsWellFormed = true ∧ four.unimpl = .legacyEmpty
        ∧ four.decl.length ≤ 2 ^ four.opcodeBits ∧ four.steps < 5) := by decide

theorem witness_EveryRowHoldsThePrologue :
    Config.legacy.valid = true ∧ build Config.legacy = .ok (builtImage Config.legacy)
      ∧ (Config.legacy.decl[12]? = some .nop ∧ Variant.nop ≠ .halt) ∧ Config.legacy.decl[13]? = some .halt :=
  ⟨by decide, legacy_build, by decide, by decide⟩

theorem witness_ReferenceImageStepThree : 8 < 14 ∧ 9 < 14 ∧ 13 < 14 := by decide

/-- One word for each arm, and one for none. -/
theorem witness_AluComputesTheTable :
    (addWords .A .B = [aluWord .A .B .b .passThrough false]
        ∧ (aluWord .A .B .b .passThrough false).aluLogic = .b
        ∧ (aluWord .A .B .b .passThrough false).aluShift = .passThrough)
      ∧ (neutral.aluShift = .noShift ∧ neutral.aluSubtract = false)
      ∧ (let w := aluWord .A .A .zero .shiftLeft false;
          w.aluLogic = .zero ∧ w.aluShift = .shiftLeft ∧ w.aluSubtract = false)
      ∧ (let w := aluWord .A .A .zero .shiftRight false;
          w.aluLogic = .zero ∧ w.aluShift = .shiftRight ∧ w.aluSubtract = false)
      ∧ (let w := aluWord .A .A .or .passThrough false;
          ¬(w.aluLogic = .b ∧ w.aluShift = .passThrough) ∧ ¬(w.aluShift = .noShift ∧ w.aluSubtract = false)
            ∧ ¬(w.aluLogic = .zero ∧ (w.aluShift = .shiftLeft ∨ w.aluShift = .shiftRight) ∧ w.aluSubtract = false)) := by
  decide

/-- A word and a state for each clause: `s0` has A, B and MAR written, C, D and BANK not. -/
theorem witness_BenchFaultPriority :
    ({ neutral with bankSelectEnable := true } : ControlWord).bankSelectEnable = true
      ∧ (let w := { neutral with programCounterEnable := true, writeTo := .pc };
          w.bankSelectEnable = false ∧ w.programCounterEnable = true ∧ w.writeTo = .pc)
      ∧ (∀ w ∈ [moveWord (.reg .A) (.reg .C), moveWord (.reg .A) .bank, moveWord (.reg .A) .mem, aluWord .C .A .b .passThrough false,
            aluWord .A .C .b .passThrough false, moveWord .mem (.reg .A)],
          w.bankSelectEnable = false ∧ ¬(w.programCounterEnable = true ∧ w.writeTo = .pc)
            ∧ selfTransfer w.readFrom w.writeTo = false)
      ∧ readReg s0.regs .C = none ∧ s0.bank = none ∧ (bench [] none none none).mar = none
      ∧ (bench [] none none (some 0xFF)).mar = some 0xFF ∧ readMem (bench [] none none (some 0xFF)).mem 0xFF = none
      ∧ readReg s0.regs .A = some 0x11
      ∧ (let w := { aluWord .A .B .or .passThrough false with writeTo := .mem };
          ¬(w.programCounterEnable = true ∧ w.writeTo = .pc) ∧ selfTransfer w.readFrom w.writeTo = false ∧ w.readFrom = .acc
            ∧ readReg s0.regs w.aluLeft = some 0x11 ∧ readReg s0.regs w.aluRight = some 0x22
            ∧ benchAlu w 0x11 0x22 = .error (.aluUnmodelled .or .passThrough false))
      ∧ drive (bench [] (some 1) none none) (moveWord .mem (.reg .A)) = .ok 1 := by decide

theorem witness_SelfTransferReadsNothing :
    (neutral.bankSelectEnable = false ∧ selfTransfer neutral.readFrom neutral.writeTo = true
        ∧ neutral.programCounterEnable = false)
      ∧ (let w := { neutral with programCounterEnable := true };
          w.bankSelectEnable = false ∧ selfTransfer w.readFrom w.writeTo = true ∧ w.programCounterEnable = true
            ∧ w.writeTo ≠ .pc) := by decide

/-- The five instructions, each at its opcode, and one register as both operands. -/
theorem witness_TwoOperandAluCompletes :
    (∀ p ∈ [(Instr.add .A .B, (0x00 : Byte)), (Instr.sub .A .B, 0x01), (Instr.and .A .B, 0x02), (Instr.or .A .B, 0x03),
        (Instr.xor .A .A, 0x04)], (twoOperandResult p.1).isSome = true ∧ p.2.toNat = opcode Config.legacy p.1.variant)
      ∧ (let s := bench [(0, 0x00)] (some 0xFF) (some 0x01) none;
          readMem s.mem s.pc = some 0x00 ∧ readReg s.regs .A = some 0xFF ∧ readReg s.regs .B = some 0x01
            ∧ s.cfg = Config.legacy) := by decide

theorem witness_CmpCompletes :
    let s := bench [(0, 0x05)] none none none
    readMem s.mem s.pc = some 0x05 ∧ (0x05 : Byte).toNat = opcode s.cfg .cmp := by decide

theorem witness_ShiftsComplete :
    let s := bench [(0, 0x06)] (some 0x81) none none
    let t := bench [(0, 0x07)] (some 0x81) none none
    (readMem s.mem s.pc = some 0x06 ∧ readReg s.regs .A = some 0x81 ∧ (0x06 : Byte).toNat = opcode s.cfg .shl)
      ∧ (readMem t.mem t.pc = some 0x07 ∧ readReg t.regs .A = some 0x81 ∧ (0x07 : Byte).toNat = opcode t.cfg .shr) := by decide

/-- A move from memory to PC, between two literals. -/
theorem witness_MovCompletes :
    let s := bench [(0, 0x08)] none none none
    dstComp s.cfg (.lit 4) = some .pc ∧ srcComp s.cfg (.lit 5) = some .mem ∧ selfTransfer .mem .pc = false
      ∧ readMem s.mem s.pc = some 0x08 ∧ (0x08 : Byte).toNat = opcode s.cfg .mov
      ∧ movSource s 0x08 .mem = some 0x08 := by decide

theorem witness_MovSelfTransferCompletes :
    let s := bench [(0, 0x08)] none none none
    dstComp s.cfg .bank = some .bank ∧ srcComp s.cfg .bank = some .bank ∧ selfTransfer .bank .bank = true
      ∧ readMem s.mem s.pc = some 0x08 ∧ (0x08 : Byte).toNat = opcode s.cfg .mov := by decide

theorem witness_JmpCompletes :
    let s := bench [(0, 0x09), (1, 0xFF)] none none none
    readMem s.mem s.pc = some 0x09 ∧ (0x09 : Byte).toNat = opcode s.cfg .jmp
      ∧ readMem s.mem (s.pc + 1) = some 0xFF := by decide

theorem witness_OpenPointCompletesUnderLegacy :
    ∀ p ∈ [(Instr.jc 0, (0x0A : Byte)), (Instr.jz 0, 0x0B), (Instr.nop, 0x0C)],
      let s := bench [(0, p.2)] none none none
      isOpenPoint p.1.variant = true ∧ s.cfg.unimpl = .legacyEmpty ∧ readMem s.mem s.pc = some p.2
        ∧ p.2.toNat = opcode s.cfg p.1.variant := by decide

theorem witness_OpenPointFaultsUnderFail :
    let s := { bench [] none none none with cfg := ref }
    isOpenPoint (Instr.jz 0).variant = true ∧ s.cfg.unimpl = .fail := by decide

theorem witness_FetchFaults :
    let s := bench [(0, 0x01)] none none none
    compile s.cfg .nop = .ok [fetch0, fetch1, epilogue] ∧ Instr.nop ≠ .halt
      ∧ readMem (bench [] none none none).mem (bench [] none none none).pc = none
      ∧ readMem s.mem s.pc = some 0x01 ∧ (0x01 : Byte).toNat ≠ opcode s.cfg Instr.nop.variant := by decide

theorem witness_UnwrittenOperandsFault :
    let s := bench [(0, 0x00)] none (some 1) none
    let t := bench [(0, 0x06)] none none none
    (readMem s.mem s.pc = some 0x00 ∧ (0x00 : Byte).toNat = opcode s.cfg (Instr.add .A .B).variant
        ∧ (twoOperandResult (.add .A .B)).isSome = true ∧ readReg s.regs .A = none
        ∧ readReg s.regs .B = some 1 ∧ readReg s.regs .C = none)
      ∧ (readMem t.mem t.pc = some 0x06 ∧ (0x06 : Byte).toNat = opcode t.cfg (Instr.shl .A).variant
        ∧ readReg t.regs .A = none) := by decide

theorem witness_UnwrittenMoveSourceFaults :
    let s := bench [(0, 0x08)] none none none
    dstComp s.cfg .out = some .out ∧ srcComp s.cfg .acc = some .acc ∧ selfTransfer .acc .out = false
      ∧ readMem s.mem s.pc = some 0x08 ∧ (0x08 : Byte).toNat = opcode s.cfg .mov ∧ movSource s 0x08 .acc = none := by decide

theorem witness_UnwrittenJumpTargetFaults :
    let s := bench [(0, 0x09)] none none none
    readMem s.mem s.pc = some 0x09 ∧ (0x09 : Byte).toNat = opcode s.cfg .jmp ∧ readMem s.mem (s.pc + 1) = none := by decide

theorem witness_MalformedMoveStops :
    MoveDst.wf ref (.lit 10) = false
      ∧ (let cfg := { ref with readCodes := { ref.readCodes with bank := 0 } };
          MoveDst.wf cfg (.lit 9) = true ∧ MoveSrc.wf cfg (.lit 7) = false) := by decide

theorem witness_WellFormedInstructionFaults : (Instr.mov (.lit 9) (.lit 7)).wf State.reset.cfg = true := by decide

theorem witness_AluFrame :
    isAlu (Instr.shr .A).variant = true
      ∧ seen (exec (.shr .A) (bench [(0, 0x07)] (some 0x81) none none)) (fun t => t.regs.a) = some (some 0x40) := by decide

theorem witness_MovFrame :
    let s := bench [(0, 0x08)] none none none
    dstComp s.cfg (.lit 5) = some .mem ∧ (s.fetched 0x08).mar = some 0 ∧ readMem s.mem s.pc = some 0x08
      ∧ seen (exec (.mov (.lit 5) (.lit 4)) s) (fun t => t.mem) = some [(0, 0x01)] := by decide

theorem witness_ControlFlowFrame :
    (Instr.jmp 0).variant = .jmp
      ∧ seen (exec (.jmp 0) (bench [(0, 0x09), (1, 0xFF)] none none none)) (fun t => t.pc) = some 0xFF := by decide

theorem witness_OnlyNamedInstructionsWriteSpecialState :
    seen (exec (.mov .out (.lit 4)) (bench [(0, 0x08)] none none none)) (fun t => t.out) = some [0x01] := by decide

/-- A jump at PC that decodes, jc with its immediate never written, and a PC at a cell never written. -/
theorem witness_StepRunsDecodedInstruction :
    (let s := m1 [(0, 0x09), (1, 0x04)] none;
      s.built ∧ s.atFetch ∧ decode s.cfg (bytesAt s) = .ok (.jmp 0x04, []) ∧ s.rowAtPc (.jmp 0x04) ∧ Instr.jmp 0x04 ≠ .halt)
      ∧ (let s := m1 [(0, 0x0A)] none;
          s.built ∧ s.atFetch ∧ s.rowAtPc (.jc 0) ∧ decode s.cfg (bytesAt s) = .error (.missingImmediate 0x0A))
      ∧ (let s := m1 [] none;
          s.built ∧ s.atFetch ∧ readMem s.mem s.pc = none)
      ∧ rowsKeepIr Config.legacy :=
  ⟨⟨m1_built _ _, m1_atFetch _ _, by decide, ⟨0x09, 0x04, by decide, by decide, rfl⟩, by decide⟩,
    ⟨m1_built _ _, m1_atFetch _ _, ⟨0x0A, 0, by decide, by decide, rfl⟩, by decide⟩,
    ⟨m1_built _ _, m1_atFetch _ _, by decide⟩, legacy_rows_keep_ir⟩

theorem witness_StepRunsHaltAfterPrologue :
    let s := m1 [(0, 0x0D)] none
    s.built ∧ s.cfg.pad = ControlWord.neutral ∧ s.atFetch ∧ readMem s.mem s.pc = some 0x0D
      ∧ (0x0D : Byte).toNat = opcode s.cfg .halt :=
  ⟨m1_built _ _, rfl, m1_atFetch _ _, by decide, by decide⟩

theorem witness_SequenceStepRunsProgram :
    let s := m2 .nop [] none
    s.drive = .sequence ∧ s.withHalted.halted = true ∧ s.halted = false ∧ programAt s.prog s.pc.toNat = some .nop
      ∧ programAt ({ s with prog := [] } : State).prog s.pc.toNat = none := by decide

/-- The first byte without a row, and the last. -/
theorem witness_ByteWithoutRowFaults :
    (let s := m1 [(0, 0x0E)] none;
      s.built ∧ s.atFetch ∧ readMem s.mem s.pc = some 0x0E ∧ s.cfg.decl.length ≤ (0x0E : Byte).toNat)
      ∧ (let s := m1 [(0, 0xFF)] none;
      s.built ∧ s.atFetch ∧ readMem s.mem s.pc = some 0xFF ∧ s.cfg.decl.length ≤ (0xFF : Byte).toNat) :=
  ⟨⟨m1_built _ _, m1_atFetch _ _, by decide, by decide⟩, m1_built _ _, m1_atFetch _ _, by decide, by decide⟩

/-- nop, and halt with its padding. -/
theorem witness_CyclesPerInstruction :
    (let s := m1 [(0, 0x0C)] none;
      s.built ∧ s.atFetch ∧ s.rowAtPc .nop ∧ (m1Instruction s).fault = none)
      ∧ (let s := m1 [(0, 0x0D)] none;
          s.built ∧ s.atFetch ∧ s.rowAtPc .halt ∧ s.cfg.pad = ControlWord.neutral ∧ (m1Instruction s).fault = none) :=
  ⟨⟨m1_built _ _, m1_atFetch _ _, ⟨0x0C, 0, by decide, by decide, rfl⟩, by decide +kernel⟩,
    ⟨m1_built _ _, m1_atFetch _ _, ⟨0x0D, 0, by decide, by decide, rfl⟩, rfl, by decide +kernel⟩⟩

/-- A configuration whose mov row writes register A to IR: A is 0 for a row, and 0x0E for none. -/
def irRow : Config := { Config.legacy with rows := { Config.legacy.rows with mov := (.lit 8, .reg .A) } }

/-- M1 with the image of `irRow`, mov at 0, and register A. -/
def irMachine (a : Byte) : State := { m1 [(0, 0x08)] (some a) with cfg := irRow, rom := builtImage irRow }

theorem irMachine_ready : ∀ a, (irMachine a).built ∧ (irMachine a).atFetch := fun _ =>
  ⟨⟨(by decide : irRow.valid = true), (by decide +kernel : build irRow = .ok (builtImage irRow))⟩,
    rfl, rfl, rfl, .add, (by decide : irRow.decl[0]? = some .add), by decide⟩

theorem witness_MoveToIrChangesRow :
    (irMachine 0x0D).built ∧ (irMachine 0x0D).atFetch ∧ readMem (irMachine 0x0D).mem (irMachine 0x0D).pc = some 0x08
      ∧ (0x08 : Byte).toNat = opcode irRow .mov ∧ dstComp irRow irRow.rows.mov.1 = some .ir
      ∧ srcComp irRow irRow.rows.mov.2 = some (.reg .A) ∧ movSource (irMachine 0x0D) 0x08 (.reg .A) = some 0x0D
      ∧ irRow.decl[(0x0D : Byte).toNat]? = some .halt
      ∧ movSource (irMachine 0x0E) 0x08 (.reg .A) = some 0x0E ∧ irRow.decl.length ≤ (0x0E : Byte).toNat :=
  ⟨(irMachine_ready _).1, (irMachine_ready _).2, by decide, by decide, by decide, by decide, by decide, by decide, by decide,
    by decide⟩

theorem witness_MachinesAgreeOnRowInstances :
    let s1 := m1 [(0, 0x00)] (some 1)
    let s2 := m2 (.add .A .A) [(0, 0x00)] (some 1)
    Paired s1 s2 ∧ s1.rowAtPc (.add .A .A) ∧ Instr.add .A .A ≠ .halt ∧ (Instr.add .A .A).variant ≠ .mov
      ∧ programAt s2.prog s2.pc.toNat = some (.add .A .A) :=
  ⟨⟨m1_built _ _, m1_atFetch _ _, rfl, rfl, rfl, rfl, rfl, rfl, rfl, rfl, rfl, rfl⟩, ⟨0x00, 0, by decide, by decide, rfl⟩,
    by decide, by decide, by decide⟩

/-- A machine in the last step of a row. -/
theorem witness_BuiltMachineFaults :
    let s := { m1 [(0, 0x00)] none with stepCount := 7 }
    s.built ∧ s.cfg.pad = ControlWord.neutral ∧ s.drive = .rom ∧ s.stepCount < s.cfg.steps :=
  ⟨⟨by decide, legacy_build⟩, rfl, rfl, by decide⟩

theorem witness_HaltedUntilReset :
    haltWord.halt = true ∧ (State.reset.withHalted).halted = true ∧ Reaches State.reset.withHalted State.reset.withHalted :=
  ⟨rfl, rfl, .refl _⟩

/-- Two states of which the second is one step further. -/
theorem witness_RomAndConfigurationNeverChange : Reaches (m2 .halt [] none) (m2 .halt [] none).withHalted :=
  .tail (.refl _) rfl

theorem witness_EveryStepKeepsTheInvariant :
    (m2 .halt [] none).inv ∧ step (m2 .halt [] none) = .next (m2 .halt [] none).withHalted :=
  ⟨⟨by decide, by decide, by decide⟩, rfl⟩

/-- The least number of steps. -/
theorem witness_ResetMeetsTheInvariant :
    let s := { State.reset with cfg := { Config.legacy with steps := 1 }, loaded := [(0, 0x0D), (0xFF, 0x00)] }
    1 ≤ s.cfg.steps ∧ Program.wf s.prog = true ∧ Memory.wf s.loaded = true := by decide

theorem witness_ResetValues : resetState (m1 [(0, 0x00)] none) = State.reset ∨ State.reset = resetState State.reset := .inl rfl

/-- M2 booted with a jump to a halt; `test_reset_keeps_program` shows runs that have gone on. -/
theorem witness_ResetRestoresTheLoadedProgram :
    ∃ s, bootM2 Config.legacy [(0, .jmp 3), (3, .halt)] Load.empty = .ok s ∧ Reaches s s ∧ s.mem = [(0, 0x09), (1, 3), (3, 0x0D)] :=
  ⟨_, rfl, .refl _, by decide +kernel⟩

theorem witness_FirstCycleAfterReset :
    let s := { m1 [] (some 0xFF) with bank := some 1 }
    s.built ∧ s.cfg.decl[0]? ≠ some .halt ∧ s.ir = 0x00 ∧ s.stepCount = 0 ∧ s.pc = 0x00 ∧ s.halted = false :=
  ⟨⟨by decide, legacy_build⟩, by decide, rfl, rfl, rfl, rfl⟩

/-- Each branch: too many variants, a first failure at 10 (jc), and none. -/
theorem witness_BuildReportsFirstError :
    (let cfg := { ref with opcodeBits := 3 };
      cfg.valid = true ∧ cfg.rowsWellFormed = true ∧ 2 ^ cfg.opcodeBits < cfg.decl.length)
      ∧ (ref.valid = true ∧ ref.rowsWellFormed = true ∧ ref.decl.length ≤ 2 ^ ref.opcodeBits ∧ ref.decl[10]? = some .jc
        ∧ rowFailure ref 10 .jc = some (.unimplemented .jc 10)
        ∧ ∀ j, j < 10 → (ref.decl[j]?.bind (rowFailure ref j)) = none)
      ∧ (∀ j, j < 14 → (Config.legacy.decl[j]?.bind (rowFailure Config.legacy j)) = none) := by decide

theorem witness_ProgramCounterWraps :
    let s := { bench [(0x00, 0x04), (0xFF, 0x09)] (some 1) none none with pc := 0xFF }
    (s.pc = 0xFF ∧ readMem s.mem 0xFF = some 0x09 ∧ (0x09 : Byte).toNat = opcode s.cfg .jmp
        ∧ readMem s.mem 0x00 = some 0x04)
      ∧ (Instr.shl .A).variant ≠ .jmp ∧ Instr.shl .A ≠ .halt
      ∧ seen (exec (.shl .A) { bench [(0xFF, 0x06)] (some 1) none none with pc := 0xFF }) (fun t => t.pc) = some 0x00 := by
  decide

end Sys2Proof.Tests
end

section
/-! PROOFS. The check of 00_scope.md R8: each of its seven parts is its constraint, and no boot passes by it. -/

namespace Sys2Proof

/-! ## The parts of the check, one lemma per constraint of R8 -/

theorem Config.codesInjective_iff (cfg : Config) : cfg.codesInjective = true ↔
    Function.Injective cfg.readCode ∧ Function.Injective cfg.writeCode ∧ Function.Injective cfg.regCode
      ∧ Function.Injective cfg.shiftCode ∧ Function.Injective cfg.logicCode := by
  simp only [Config.codesInjective, Bool.and_eq_true, and_assoc,
    distinct_map_iff ReadSrc.mem_all (by decide), distinct_map_iff WriteDst.mem_all (by decide),
    distinct_map_iff Reg.mem_all (by decide), distinct_map_iff AluShift.mem_all (by decide),
    distinct_map_iff AluLogic.mem_all (by decide)]

theorem Config.registerAZero_iff (cfg : Config) : cfg.registerAZero = true ↔
    cfg.readCode (.reg .A) = 0 ∧ cfg.writeCode (.reg .A) = 0 ∧ cfg.regCode .A = 0 := by
  simp only [Config.registerAZero, Bool.and_eq_true, beq_iff_eq, and_assoc]

theorem Config.registersAgree_iff (cfg : Config) : cfg.registersAgree = true ↔
    ∀ r, (cfg.readCode (.reg r)).toNat = (cfg.regCode r).toNat
      ∧ (cfg.writeCode (.reg r)).toNat = (cfg.regCode r).toNat := by
  simp only [Config.registersAgree, List.all_eq_true, Reg.mem_all, true_imp_iff, Bool.and_eq_true, beq_iff_eq]

theorem Config.neutralZero_iff (cfg : Config) : cfg.neutralZero = true ↔
    cfg.shiftCode ControlWord.neutral.aluShift = 0 ∧ cfg.logicCode ControlWord.neutral.aluLogic = 0 := by
  simp only [Config.neutralZero, Bool.and_eq_true, beq_iff_eq]

theorem Config.declComplete_iff (cfg : Config) :
    cfg.declComplete = true ↔ cfg.decl.Nodup ∧ ∀ v, v ∈ cfg.decl := by
  simp only [Config.declComplete, Bool.and_eq_true, distinct_iff_nodup, List.all_eq_true, Variant.mem_all,
    true_imp_iff, List.contains_iff_mem]

theorem Config.opcodeBitsOk_iff (cfg : Config) :
    cfg.opcodeBitsOk = true ↔ 1 ≤ cfg.opcodeBits ∧ cfg.opcodeBits ≤ 8 := by
  simp only [Config.opcodeBitsOk, Bool.and_eq_true, decide_eq_true_iff]

theorem Config.stepsOk_iff (cfg : Config) : cfg.stepsOk = true ↔ 1 ≤ cfg.steps := by
  simp only [Config.stepsOk, decide_eq_true_iff]

theorem Config.valid_iff (cfg : Config) : cfg.valid = true ↔
    cfg.codesInjective = true ∧ cfg.registerAZero = true ∧ cfg.registersAgree = true ∧ cfg.neutralZero = true
      ∧ cfg.declComplete = true ∧ cfg.opcodeBitsOk = true ∧ cfg.stepsOk = true := by
  simp only [Config.valid, Bool.and_eq_true, and_assoc]

namespace Machine

/-! ## The boots -/

theorem configAccepted_eq_false_of_invalid {cfg : Config} (h : cfg.valid = false) : configAccepted cfg = false := by
  simp only [configAccepted, h, Bool.false_and]

theorem bootM1_of_not_accepted {cfg : Config} (h : configAccepted cfg = false) (l : Load) :
    bootM1 cfg l = .error .invalidConfiguration := by
  simp only [bootM1, h, Bool.false_eq_true, if_false]

theorem bootM2_of_not_accepted {cfg : Config} (h : configAccepted cfg = false) (program : List (Byte × Instr)) (l : Load) :
    bootM2 cfg program l = .error .invalidConfiguration := by
  simp only [bootM2, h, Bool.false_eq_true, if_false]

theorem bootHandMade_of_not_accepted {cfg : Config} (h : configAccepted cfg = false) (image : List Byte) (l : Load) :
    bootHandMade cfg image l = .error .invalidConfiguration := by
  simp only [bootHandMade, h, Bool.false_eq_true, if_false]

/-! ## The statement -/

/-- Settles O1, constraint by constraint, and for the boots by the one check all three begin with. -/
theorem configurationCheckIsTheConstraints : Obligations.ConfigurationCheckIsTheConstraints := by
  unfold Obligations.ConfigurationCheckIsTheConstraints
  constructor
  · intro cfg
    rw [cfg.valid_iff, cfg.codesInjective_iff, cfg.registerAZero_iff, cfg.registersAgree_iff, cfg.neutralZero_iff,
      cfg.declComplete_iff, cfg.opcodeBitsOk_iff, cfg.stepsOk_iff]
  · intro cfg l hinvalid
    have hrejected : configAccepted cfg = false := configAccepted_eq_false_of_invalid hinvalid
    exact ⟨bootM1_of_not_accepted hrejected l, fun program => bootM2_of_not_accepted hrejected program l,
      fun image => bootHandMade_of_not_accepted hrejected image l⟩

end Machine
end Sys2Proof
end

section
/-! PROOFS. What every step keeps (10_state.md R13, R26, R27, 20_memory.md R29, R41), said once as the frame of a step, and
packaged for runs of any length. -/

namespace Sys2Proof.Machine

open Sys2Proof

theorem sameFixed.refl (s : State) : sameFixed s s := ⟨rfl, rfl, rfl, rfl, rfl⟩

theorem sameFixed.trans {s t u : State} (h : sameFixed s t) (h' : sameFixed t u) : sameFixed s u := by
  obtain ⟨hcfg, hrom, hloaded, hprog, hdrive⟩ := h
  obtain ⟨hcfg', hrom', hloaded', hprog', hdrive'⟩ := h'
  exact ⟨hcfg.trans hcfg', hrom.trans hrom', hloaded.trans hloaded', hprog.trans hprog', hdrive.trans hdrive'⟩

/-! ## The frame of a step -/

/-- What holds between the two ends of a run of cycles, of a step and of a run of steps: the fixed inputs are the same, STEP in
range stays in range, memory in canonical form stays in it, and the output log only grows. -/
structure StepFrame (s t : State) : Prop where
  fixed : sameFixed s t
  stepCount_lt : s.stepCount < s.cfg.steps → t.stepCount < t.cfg.steps
  mem_wf : Memory.wf s.mem = true → Memory.wf t.mem = true
  out_prefix : s.out <+: t.out

theorem StepFrame.refl (s : State) : StepFrame s s := ⟨.refl s, id, id, List.prefix_rfl⟩

theorem StepFrame.trans {s t u : State} (h : StepFrame s t) (h' : StepFrame t u) : StepFrame s u :=
  ⟨h.fixed.trans h'.fixed, h'.stepCount_lt ∘ h.stepCount_lt, h'.mem_wf ∘ h.mem_wf, h.out_prefix.trans h'.out_prefix⟩

/-- The invariant speaks of what the frame keeps: two of its parts are fixed inputs, the other two the frame carries over. -/
theorem StepFrame.inv {s t : State} (h : StepFrame s t) (hs : s.inv) : t.inv := by
  obtain ⟨hmem, hloaded, hprog, hstep⟩ := hs
  obtain ⟨-, -, eloaded, eprog, -⟩ := h.fixed
  exact ⟨h.mem_wf hmem, eloaded ▸ hloaded, eprog ▸ hprog, h.stepCount_lt hstep⟩

/-! ## What a step can do -/

theorem step_of_rom {s : State} (h : s.drive = .rom) : step s = runOutcome (m1Instruction s) := by
  simp only [step, h]

theorem step_of_sequence {s : State} (h : s.drive = .sequence) : step s = stepSequence s := by
  simp only [step, h]

/-- A step of M2 that ends in a next state stays halted, or completes the program's instruction at PC (R114). -/
theorem stepSequence_next {s t : State} (h : stepSequence s = .next t) :
    (s.halted = true ∧ t = s)
      ∨ (s.halted = false ∧ ∃ i, programAt s.prog s.pc.toNat = some i ∧ exec i s = .next t) := by
  unfold stepSequence at h
  split at h
  · next hhalted =>
    cases h
    exact .inl ⟨hhalted, rfl⟩
  · next hrunning =>
    split at h
    · cases h
    · next i hi => exact .inr ⟨by simpa using hrunning, i, hi, h⟩

theorem m1Instruction_frame (s : State) : StepFrame s (m1Instruction s).state := by
  obtain ⟨hfixed, hstep, hmem, hout⟩ := m1Cycles_frame true (s.cfg.steps + 1) 0 s
  exact ⟨hfixed, hstep, hmem, hout⟩

theorem runInstr_frame (i : Instr) (s : State) : StepFrame s (runInstr i s).state := by
  unfold runInstr
  split
  · exact .refl s
  · next words _ =>
    obtain ⟨hfixed, hstep, hmem, hout⟩ := runWords_frame s.pc (opcode s.cfg i.variant) words 0 s
    exact ⟨hfixed, fun hlt => by rwa [hstep, ← hfixed.1], hmem, hout⟩

theorem exec_frame {i : Instr} {s t : State} (h : exec i s = .next t) : StepFrame s t := by
  rw [exec_eq_runInstr, runOutcome_next] at h
  obtain ⟨-, rfl⟩ := h
  exact runInstr_frame i s

/-- Every step keeps the frame: an instruction of M1, a completed instruction of M2, and the step of a halted M2. -/
theorem step_frame {s t : State} (h : step s = .next t) : StepFrame s t := by
  cases hd : s.drive with
  | rom =>
    rw [step_of_rom hd, runOutcome_next] at h
    obtain ⟨-, rfl⟩ := h
    exact m1Instruction_frame s
  | sequence =>
    rw [step_of_sequence hd] at h
    obtain ⟨-, rfl⟩ | ⟨-, i, -, hexec⟩ := stepSequence_next h
    · exact .refl t
    · exact exec_frame hexec

theorem reaches_frame {s t : State} (h : Reaches s t) : StepFrame s t := by
  induction h with
  | refl => exact .refl s
  | tail _ hstep ih => exact ih.trans (step_frame hstep)

/-! ## The statements -/

/-- Settles O55: the frame of the step carries the invariant over. -/
theorem everyStepKeepsTheInvariant : Obligations.EveryStepKeepsTheInvariant := by
  unfold Obligations.EveryStepKeepsTheInvariant
  intro s t hinv hstep
  exact (step_frame hstep).inv hinv

/-- Settles O54, by the frame of a run of any length. -/
theorem romAndConfigurationNeverChange : Obligations.RomAndConfigurationNeverChange := by
  unfold Obligations.RomAndConfigurationNeverChange
  intro s t hreach
  have hframe := reaches_frame hreach
  exact ⟨hframe.fixed, hframe.out_prefix⟩

end Sys2Proof.Machine
end

section
/-! PROOFS. Reset and restart, field by field (10_state.md R28, 70_reset_and_hazards.md R128, R129), and the invariant they
meet. -/

namespace Sys2Proof.Machine

open Sys2Proof

@[simp] theorem resetState_ir (s : State) : (resetState s).ir = 0 := rfl
@[simp] theorem resetState_stepCount (s : State) : (resetState s).stepCount = 0 := rfl
@[simp] theorem resetState_halted (s : State) : (resetState s).halted = false := rfl
@[simp] theorem resetState_pc (s : State) : (resetState s).pc = 0 := rfl
@[simp] theorem resetState_out (s : State) : (resetState s).out = [] := rfl
@[simp] theorem resetState_mar (s : State) : (resetState s).mar = none := rfl
@[simp] theorem resetState_bank (s : State) : (resetState s).bank = none := rfl

@[simp] theorem readReg_resetState (s : State) (r : Reg) : readReg (resetState s).regs r = none := by
  cases r <;> rfl

/-- Reset writes none of what no cycle writes (R128; log entry 11). -/
theorem resetState_sameFixed (s : State) : sameFixed s (resetState s) := ⟨rfl, rfl, rfl, rfl, rfl⟩

/-- The state after reset is one that reset leaves as it is. -/
theorem resetState_reset : resetState State.reset = State.reset := rfl

@[simp] theorem restart_regs (s : State) (l : Load) : (restart s l).regs = l.regs := rfl
@[simp] theorem restart_bank (s : State) (l : Load) : (restart s l).bank = l.bank := rfl
@[simp] theorem restart_ir (s : State) (l : Load) : (restart s l).ir = l.ir := rfl
@[simp] theorem restart_pc (s : State) (l : Load) : (restart s l).pc = 0 := rfl
@[simp] theorem restart_mar (s : State) (l : Load) : (restart s l).mar = none := rfl
@[simp] theorem restart_out (s : State) (l : Load) : (restart s l).out = [] := rfl
@[simp] theorem restart_stepCount (s : State) (l : Load) : (restart s l).stepCount = 0 := rfl
@[simp] theorem restart_halted (s : State) (l : Load) : (restart s l).halted = false := rfl
@[simp] theorem restart_cfg (s : State) (l : Load) : (restart s l).cfg = s.cfg := rfl
@[simp] theorem restart_rom (s : State) (l : Load) : (restart s l).rom = s.rom := rfl
@[simp] theorem restart_prog (s : State) (l : Load) : (restart s l).prog = s.prog := rfl
@[simp] theorem restart_drive (s : State) (l : Load) : (restart s l).drive = s.drive := rfl

/-- Program memory after a restart: the loader's new byte, else the one it had put in before (R128, R129). -/
theorem readMem_restart (s : State) (l : Load) (a : Byte) :
    readMem (restart s l).mem a = (Claims.loadedByte l.cells a).or (readMem s.loaded a) := by
  rw [restart_mem, readMem_writeCells, Claims.loadedByte]

/-! ## The statements -/

/-- Settles O56: both canonical forms are those of the inputs, the loader's writes keep them, and STEP is 0. -/
theorem resetMeetsTheInvariant : Obligations.ResetMeetsTheInvariant := by
  unfold Obligations.ResetMeetsTheInvariant
  constructor
  · exact ⟨rfl, rfl, rfl, by decide⟩
  · intro s l hsteps hprog hloaded
    have hcells : Memory.wf (writeCells s.loaded l.cells) = true := writeCells_wf l.cells hloaded
    exact ⟨hcells, hcells, hprog, hsteps⟩

/-- Settles O57. The state after reset is itself a state reset was applied to, so the first clause is about `resetState` alone. -/
theorem resetValues : Obligations.ResetValues := by
  unfold Obligations.ResetValues
  refine ⟨fun s t ht => ?_, fun a => rfl, resetState_sameFixed, fun s l => ?_⟩
  · obtain ⟨u, rfl⟩ : ∃ u, t = resetState u := by
      obtain rfl | rfl := ht
      · exact ⟨State.reset, resetState_reset.symm⟩
      · exact ⟨s, rfl⟩
    simp
  · have hmem := readMem_restart s l
    simpa using hmem

end Sys2Proof.Machine
end

section
/-! PROOFS. What a completed instruction has done (48_sequencer_reference.md R114): its execute words run on the state after the
fetch, and, form by form, the state they leave. -/

namespace Sys2Proof.Machine

open Sys2Proof Sys2Proof.Claims

/-! ## The words after the prologue -/

/-- Execute words and the epilogue complete as the bench cycles of the execute words, one after another (R64, R114). -/
theorem runWords_append_epilogue_next {ex : List ControlWord} (hex : ∀ w ∈ ex, w.halt = false) (p : Byte) (op k : Nat)
    (s t : State) :
    runOutcome (runWords p op (k + 2) (ex ++ [epilogue]) s) = .next t ↔ ex.foldlM benchCycle s = .ok t := by
  induction ex generalizing k s with
  | nil =>
    rw [List.nil_append, runWords_epilogue, runOutcome_next, List.foldlM_nil]
    simp [pure, Except.pure]
  | cons w ws ih =>
    have hw : w.halt = false := hex w List.mem_cons_self
    rw [List.cons_append, runWords_cons hw, List.foldlM_cons]
    cases benchCycle s w with
    | error f => simp [bind, Except.bind]
    | ok s' => exact ih (fun x hx => hex x (List.mem_cons_of_mem w hx)) (k + 1) s'

/-- An instruction with a prologue completes only by fetching its own opcode and then running its execute words (R66, R114). -/
theorem exec_framed_next {i : Instr} {s t : State} {ex : List ControlWord} (hc : compile s.cfg i = .ok (framed ex))
    (hex : ∀ w ∈ ex, w.halt = false) (h : exec i s = .next t) :
    ∃ b, readMem s.mem s.pc = some b ∧ b.toNat = opcode s.cfg i.variant
      ∧ ex.foldlM benchCycle (s.fetched b) = .ok t := by
  rw [exec_eq_runInstr] at h
  simp only [runInstr, hc, runWords_framed] at h
  cases hb : readMem s.mem s.pc with
  | none => simp [hb] at h
  | some b =>
    simp only [hb] at h
    split at h
    · next hop => exact ⟨b, rfl, hop, (runWords_append_epilogue_next hex _ _ 0 _ _).1 h⟩
    · simp at h

/-- `exec_framed_next` for a single execute word. -/
theorem exec_framed_one_next {i : Instr} {s t : State} {w : ControlWord} (hc : compile s.cfg i = .ok (framed [w]))
    (hw : w.halt = false) (h : exec i s = .next t) :
    ∃ b, readMem s.mem s.pc = some b ∧ b.toNat = opcode s.cfg i.variant ∧ benchCycle (s.fetched b) w = .ok t := by
  obtain ⟨b, hb, hop, hrun⟩ := exec_framed_next hc (by simpa using hw) h
  exact ⟨b, hb, hop, by simpa using hrun⟩

/-! ## The execute words on the bench -/

/-- An ALU word that completes writes its left operand's register and nothing else (R72). -/
theorem benchCycle_aluWord_ok {s t : State} {r1 r2 : Reg} {lg : AluLogic} {sh : AluShift} {sub : Bool}
    (h : benchCycle s (aluWord r1 r2 lg sh sub) = .ok t) : ∃ v, t = s.withReg r1 v := by
  obtain ⟨-, -, ⟨hself, -⟩ | ⟨-, v, s1, -, hlatch, rfl⟩⟩ := benchCycle_ok h
  · cases hself
  · cases hlatch
    exact ⟨v, rfl⟩

/-- After the fetch MAR holds the opcode's address, so every latch succeeds (R81, R85). -/
theorem latch_fetched (s : State) (b v : Byte) (d : WriteDst) : latch (s.fetched b) d v = .ok (movTarget s b v d) := by
  cases d <;> rfl

/-- A move word after the fetch leaves the state alone or writes its one component (R84, R85). -/
theorem benchCycle_moveWord_fetched {s t : State} {b : Byte} {d : WriteDst} {c : ReadSrc}
    (h : benchCycle (s.fetched b) (moveWord d c) = .ok t) :
    (selfTransfer c d = true ∧ t = s.fetched b)
      ∨ (selfTransfer c d = false ∧ ∃ v, drive (s.fetched b) (moveWord d c) = .ok v ∧ t = movTarget s b v d) := by
  rw [benchCycle_moveWord] at h
  split at h
  · next hself =>
    cases h
    exact .inl ⟨hself, rfl⟩
  · next hself =>
    split at h
    · cases h
    · next v hv =>
      rw [latch_fetched] at h
      cases h
      exact .inr ⟨by simpa using hself, v, hv, rfl⟩

/-- The two words of jmp after the fetch: MAR at the byte after the opcode, then that byte to the PC (R87). -/
theorem jmpWords_fetched {s t : State} {b imm : Byte}
    (h : (jmpWords imm).foldlM benchCycle (s.fetched b) = .ok t) :
    ∃ v, readMem s.mem (s.pc + 1) = some v ∧ t = ((s.fetched b).withMar (s.pc + 1)).withPc v := by
  have hfirst : benchCycle (s.fetched b) (moveWord .mar .pc) = .ok ((s.fetched b).withMar (s.pc + 1)) := rfl
  have hsecond : benchCycle ((s.fetched b).withMar (s.pc + 1)) (moveWord .pc .mem) = .ok t := by
    rw [jmpWords, List.foldlM_cons, hfirst] at h
    rw [← h]
    exact (bind_pure _).symm
  obtain ⟨-, -, ⟨hself, -⟩ | ⟨-, v, s1, hdrive, hlatch, rfl⟩⟩ := benchCycle_ok hsecond
  · cases hself
  · cases hlatch
    exact ⟨v, need_ok.1 hdrive, rfl⟩

/-! ## The forms a completed instruction takes -/

theorem movWords_ok {cfg : Config} {dst : MoveDst} {src : MoveSrc} {ex : List ControlWord}
    (h : movWords cfg dst src = .ok ex) :
    ∃ d c, dstComp cfg dst = some d ∧ srcComp cfg src = some c ∧ ex = [moveWord d c] := by
  unfold movWords at h
  split at h
  · cases h
  · cases h
  · next d c hd hc =>
    cases h
    exact ⟨d, c, hd, hc, rfl⟩

/-- jc, jz and nop under LegacyEmpty are prologue and epilogue alone (R88 to R91). -/
theorem compile_openPoint_legacy {cfg : Config} {i : Instr} (hi : isOpenPoint i.variant = true)
    (hu : cfg.unimpl = .legacyEmpty) : compile cfg i = .ok (framed []) := by
  cases i with
  | jc imm => simp only [compile, jcWords, hu, framedOr]
  | jz imm => simp only [compile, jzWords, hu, framedOr]
  | nop => simp only [compile, nopWords, hu, framedOr]
  | _ => cases hi

/-- jc, jz and nop under Fail do not compile (R88). -/
theorem compile_openPoint_fail {cfg : Config} {i : Instr} (hi : isOpenPoint i.variant = true)
    (hu : cfg.unimpl = .fail) : compile cfg i = .error (.unimplemented i.variant) := by
  cases i with
  | jc imm => simp only [compile, jcWords, hu, framedOr, Instr.variant]
  | jz imm => simp only [compile, jzWords, hu, framedOr, Instr.variant]
  | nop => simp only [compile, nopWords, hu, framedOr, Instr.variant]
  | _ => cases hi

/-- What an instruction other than halt leaves once the byte `b` at PC is fetched, if it completes: one constructor per form
(R72, R78, R84, R85, R87, R88). -/
inductive Completes (s : State) (b : Byte) : Instr → State → Prop where
  | alu {i : Instr} {r : Reg} (v : Byte) (hdest : aluDest i = some r) : Completes s b i ((s.fetched b).withReg r v)
  | cmp (r1 r2 : Reg) : Completes s b (.cmp r1 r2) (s.fetched b)
  | selfMove {dst : MoveDst} {src : MoveSrc} {d : WriteDst} {c : ReadSrc} (hdst : dstComp s.cfg dst = some d)
      (hsrc : srcComp s.cfg src = some c) (hself : selfTransfer c d = true) : Completes s b (.mov dst src) (s.fetched b)
  | move {dst : MoveDst} {src : MoveSrc} {d : WriteDst} {c : ReadSrc} {v : Byte} (hdst : dstComp s.cfg dst = some d)
      (hsrc : srcComp s.cfg src = some c) (hself : selfTransfer c d = false)
      (hdrive : drive (s.fetched b) (moveWord d c) = .ok v) : Completes s b (.mov dst src) (movTarget s b v d)
  | jump {v : Byte} (imm : Byte) (htarget : readMem s.mem (s.pc + 1) = some v) :
      Completes s b (.jmp imm) (((s.fetched b).withMar (s.pc + 1)).withPc v)
  | openPoint {i : Instr} (hi : isOpenPoint i.variant = true) (hlegacy : s.cfg.unimpl = .legacyEmpty) :
      Completes s b i (s.fetched b)

/-- An instruction whose one execute word is an ALU word (R72). -/
theorem completes_of_aluWord {i : Instr} {s t : State} {r1 r2 : Reg} {lg : AluLogic} {sh : AluShift} {sub : Bool}
    (hc : compile s.cfg i = .ok (framed [aluWord r1 r2 lg sh sub])) (hdest : aluDest i = some r1)
    (h : exec i s = .next t) :
    ∃ b, readMem s.mem s.pc = some b ∧ b.toNat = opcode s.cfg i.variant ∧ Completes s b i t := by
  obtain ⟨b, hb, hop, hcycle⟩ := exec_framed_one_next hc rfl h
  obtain ⟨v, rfl⟩ := benchCycle_aluWord_ok hcycle
  exact ⟨b, hb, hop, .alu v hdest⟩

/-- jc, jz and nop (R88). -/
theorem completes_of_openPoint {i : Instr} {s t : State} (hi : isOpenPoint i.variant = true) (h : exec i s = .next t) :
    ∃ b, readMem s.mem s.pc = some b ∧ b.toNat = opcode s.cfg i.variant ∧ Completes s b i t := by
  cases hu : s.cfg.unimpl with
  | fail => simp [exec_eq_runInstr, runInstr, compile_openPoint_fail hi hu] at h
  | legacyEmpty =>
    obtain ⟨b, hb, hop, hrun⟩ := exec_framed_next (compile_openPoint_legacy hi hu) (by simp) h
    cases hrun
    exact ⟨b, hb, hop, .openPoint hi hu⟩

theorem completes_of_mov {dst : MoveDst} {src : MoveSrc} {s t : State} (h : exec (.mov dst src) s = .next t) :
    ∃ b, readMem s.mem s.pc = some b ∧ b.toNat = opcode s.cfg .mov ∧ Completes s b (.mov dst src) t := by
  cases hm : movWords s.cfg dst src with
  | error e => simp [exec_eq_runInstr, runInstr, compile, framedOr, hm] at h
  | ok ex =>
    obtain ⟨d, c, hd, hsrc, rfl⟩ := movWords_ok hm
    have hc : compile s.cfg (.mov dst src) = .ok (framed [moveWord d c]) := by simp only [compile, hm, framedOr]
    obtain ⟨b, hb, hop, hcycle⟩ := exec_framed_one_next hc rfl h
    obtain ⟨hself, rfl⟩ | ⟨hself, v, hdrive, rfl⟩ := benchCycle_moveWord_fetched hcycle
    · exact ⟨b, hb, hop, .selfMove hd hsrc hself⟩
    · exact ⟨b, hb, hop, .move hd hsrc hself hdrive⟩

/-- Everything a completed instruction can have done: halt stops the machine; every other one has fetched its opcode and then left
one of the forms of `Completes` (R92, R114). -/
theorem exec_next {i : Instr} {s t : State} (h : exec i s = .next t) :
    (i = .halt ∧ t = s.withHalted)
      ∨ ∃ b, readMem s.mem s.pc = some b ∧ b.toNat = opcode s.cfg i.variant ∧ Completes s b i t := by
  cases i with
  | add r1 r2 => exact .inr (completes_of_aluWord rfl rfl h)
  | sub r1 r2 => exact .inr (completes_of_aluWord rfl rfl h)
  | and r1 r2 => exact .inr (completes_of_aluWord rfl rfl h)
  | or r1 r2 => exact .inr (completes_of_aluWord rfl rfl h)
  | xor r1 r2 => exact .inr (completes_of_aluWord rfl rfl h)
  | shl r => exact .inr (completes_of_aluWord rfl rfl h)
  | shr r => exact .inr (completes_of_aluWord rfl rfl h)
  | cmp r1 r2 =>
    obtain ⟨b, hb, hop, hcycle⟩ := exec_framed_one_next rfl rfl h
    cases hcycle
    exact .inr ⟨b, hb, hop, .cmp r1 r2⟩
  | mov dst src => exact .inr (completes_of_mov h)
  | jmp imm =>
    obtain ⟨b, hb, hop, hrun⟩ := exec_framed_next (ex := jmpWords imm) rfl (by simp [jmpWords, moveWord, ControlWord.neutral]) h
    obtain ⟨v, hv, rfl⟩ := jmpWords_fetched hrun
    exact .inr ⟨b, hb, hop, .jump imm hv⟩
  | jc imm => exact .inr (completes_of_openPoint rfl h)
  | jz imm => exact .inr (completes_of_openPoint rfl h)
  | nop => exact .inr (completes_of_openPoint rfl h)
  | halt =>
    cases h
    exact .inl ⟨rfl, rfl⟩

/-! ## The statement -/

/-- Settles O44, form by form: only a move's own component, a jump's PC and halt's HALTED go beyond the fetch and the registers. -/
theorem onlyNamedInstructionsWriteSpecialState : Obligations.OnlyNamedInstructionsWriteSpecialState := by
  unfold Obligations.OnlyNamedInstructionsWriteSpecialState
  intro i s t h
  obtain ⟨rfl, rfl⟩ | ⟨b, -, -, hform⟩ := exec_next h
  · exact ⟨.inr (.inr (.inl ⟨rfl, rfl⟩)), .inl rfl, .inl rfl, .inl rfl, .inr rfl⟩
  · cases hform with
    | alu v hdest => exact ⟨.inl rfl, .inl rfl, .inl rfl, .inl rfl, .inl rfl⟩
    | cmp r1 r2 => exact ⟨.inl rfl, .inl rfl, .inl rfl, .inl rfl, .inl rfl⟩
    | selfMove hdst hsrc hself => exact ⟨.inl rfl, .inl rfl, .inl rfl, .inl rfl, .inl rfl⟩
    | openPoint hi hlegacy => exact ⟨.inl rfl, .inl rfl, .inl rfl, .inl rfl, .inl rfl⟩
    | jump imm htarget => exact ⟨.inr (.inl rfl), .inl rfl, .inl rfl, .inl rfl, .inl rfl⟩
    | @move dst src d c v hdst hsrc hself hdrive =>
      cases d with
      | reg r => exact ⟨.inl rfl, .inl rfl, .inl rfl, .inl rfl, .inl rfl⟩
      | mar => exact ⟨.inl rfl, .inl rfl, .inl rfl, .inl rfl, .inl rfl⟩
      | ir => exact ⟨.inl rfl, .inl rfl, .inl rfl, .inl rfl, .inl rfl⟩
      | pc => exact ⟨.inr (.inr (.inr ⟨dst, src, rfl, hdst⟩)), .inl rfl, .inl rfl, .inl rfl, .inl rfl⟩
      | bank => exact ⟨.inl rfl, .inr ⟨dst, src, rfl, hdst⟩, .inl rfl, .inl rfl, .inl rfl⟩
      | out => exact ⟨.inl rfl, .inl rfl, .inr ⟨dst, src, v, rfl, hdst, rfl⟩, .inl rfl, .inl rfl⟩
      | mem => exact ⟨.inl rfl, .inl rfl, .inl rfl, .inr ⟨dst, src, v, rfl, hdst, rfl⟩, .inl rfl⟩

end Sys2Proof.Machine
end

section
/-! PROOFS. Packing and unpacking of control words (30_encoding.md R48 to R53): under a configuration that meets R8 a cell unpacks
to a word exactly when the word packs to that cell, and the round trip, injectivity and the refusals follow from that. -/

namespace Sys2Proof

/-! ## The inverses of the code maps -/

theorem Config.injective_of_valid {cfg : Config} (h : cfg.valid = true) :
    Function.Injective cfg.readCode ∧ Function.Injective cfg.writeCode ∧ Function.Injective cfg.regCode
      ∧ Function.Injective cfg.shiftCode ∧ Function.Injective cfg.logicCode := by
  obtain ⟨hcodes, -⟩ := cfg.valid_iff.1 h
  exact cfg.codesInjective_iff.1 hcodes

theorem find_code_iff {α β : Type} [DecidableEq β] {l : List α} {f : α → β} (hf : Function.Injective f)
    (hl : ∀ a, a ∈ l) {y : β} {a : α} : l.find? (fun c => f c == y) = some a ↔ f a = y := by
  constructor
  · exact code_of_find
  · rintro rfl
    exact find_code hf (hl a)

/-- Where no code is left unassigned, the default of a look-up is never taken. -/
theorem find_code_getD_iff {α : Type} {n : Nat} {l : List α} {f : α → BitVec n} (hf : Function.Injective f)
    (hnodup : l.Nodup) (hlen : l.length = 2 ^ n) {y : BitVec n} {a default : α} :
    (l.find? fun c => f c == y).getD default = a ↔ f a = y := by
  obtain ⟨b, hfind, rfl⟩ := find_assigned (code_onto hnodup hf hlen y)
  rw [hfind, Option.getD_some, hf.eq_iff, eq_comm]

theorem Config.writeDstOf_eq_some_iff {cfg : Config} (h : Function.Injective cfg.writeCode) {a : BitVec 4} {d : WriteDst} :
    cfg.writeDstOf a = some d ↔ cfg.writeCode d = a :=
  find_code_iff h WriteDst.mem_all

theorem Config.readSrcOf_eq_some_iff {cfg : Config} (h : Function.Injective cfg.readCode) {a : BitVec 3} {c : ReadSrc} :
    cfg.readSrcOf a = some c ↔ cfg.readCode c = a :=
  find_code_iff h ReadSrc.mem_all

theorem Config.regOf_eq_iff {cfg : Config} (h : Function.Injective cfg.regCode) {a : BitVec 2} {r : Reg} :
    cfg.regOf a = r ↔ cfg.regCode r = a :=
  find_code_getD_iff h (l := Reg.all) (by decide) rfl

theorem Config.shiftOf_eq_iff {cfg : Config} (h : Function.Injective cfg.shiftCode) {a : BitVec 2} {c : AluShift} :
    cfg.shiftOf a = c ↔ cfg.shiftCode c = a :=
  find_code_getD_iff h (l := AluShift.all) (by decide) rfl

theorem Config.logicOf_eq_iff {cfg : Config} (h : Function.Injective cfg.logicCode) {a : BitVec 4} {c : AluLogic} :
    cfg.logicOf a = c ↔ cfg.logicCode c = a :=
  find_code_getD_iff h (l := AluLogic.all) (by decide) rfl

/-- Eight components share the eight read codes, so none is unassigned (R52). -/
theorem Config.exists_readSrcOf {cfg : Config} (h : Function.Injective cfg.readCode) (a : BitVec 3) :
    ∃ c, cfg.readSrcOf a = some c := by
  obtain ⟨c, -, hc⟩ := code_onto (l := ReadSrc.all) (by decide) h rfl a
  exact ⟨c, (cfg.readSrcOf_eq_some_iff h).2 hc⟩

theorem Config.writeDstOf_eq_none {cfg : Config} {a : BitVec 4} (h : ∀ d, cfg.writeCode d ≠ a) :
    cfg.writeDstOf a = none := by
  simp [Config.writeDstOf, h]

/-! ## Packing -/

/-- A word is its twelve fields of R48, joined high field first. -/
theorem join_wordFields (x : Word24) :
    x.extractLsb' 20 4 ++ x.extractLsb' 17 3 ++ x.extractLsb' 15 2 ++ x.extractLsb' 13 2 ++ x.extractLsb' 11 2
      ++ x.extractLsb' 9 2 ++ x.extractLsb' 5 4 ++ BitVec.ofBool (x.getLsbD 4) ++ BitVec.ofBool (x.getLsbD 3)
      ++ BitVec.ofBool (x.getLsbD 2) ++ BitVec.ofBool (x.getLsbD 1) ++ BitVec.ofBool (x.getLsbD 0) = x := by
  apply BitVec.eq_of_getLsbD_eq
  intro i hi
  interval_cases i <;>
    (simp only [BitVec.getLsbD_append, BitVec.getLsbD_extractLsb', BitVec.getLsbD_ofBool]; simp)

/-- A control word packs to `x` exactly when each field of `x` is the code of the word's field (R48). -/
theorem pack_eq_iff {cfg : Config} {w : ControlWord} {x : Word24} : pack cfg w = x ↔
    x.extractLsb' 20 4 = cfg.writeCode w.writeTo ∧ x.extractLsb' 17 3 = cfg.readCode w.readFrom
      ∧ x.extractLsb' 15 2 = cfg.regCode w.aluLeft ∧ x.extractLsb' 13 2 = cfg.regCode w.aluRight
      ∧ x.extractLsb' 11 2 = cfg.shiftCode w.aluShift ∧ x.extractLsb' 9 2 = 0#2
      ∧ x.extractLsb' 5 4 = cfg.logicCode w.aluLogic ∧ x.getLsbD 4 = w.aluSubtract
      ∧ x.getLsbD 3 = w.programCounterEnable ∧ x.getLsbD 2 = w.bankSelectEnable
      ∧ x.getLsbD 1 = w.halt ∧ x.getLsbD 0 = w.stepReset := by
  constructor
  · rintro rfl
    exact pack_fields cfg w
  · rintro ⟨hwrite, hread, hleft, hright, hshift, hunused, hlogic, hsub, hpce, hbse, hhalt, hreset⟩
    rw [← join_wordFields x, hwrite, hread, hleft, hright, hshift, hunused, hlogic, hsub, hpce, hbse, hhalt, hreset]
    rfl

/-- R48's formula, each field shifted to its place. -/
theorem pack_toNat (cfg : Config) (w : ControlWord) :
    (pack cfg w).toNat = (cfg.writeCode w.writeTo).toNat <<< 20 ||| (cfg.readCode w.readFrom).toNat <<< 17
      ||| (cfg.regCode w.aluLeft).toNat <<< 15 ||| (cfg.regCode w.aluRight).toNat <<< 13
      ||| (cfg.shiftCode w.aluShift).toNat <<< 11 ||| (cfg.logicCode w.aluLogic).toNat <<< 5
      ||| w.aluSubtract.toNat <<< 4 ||| w.programCounterEnable.toNat <<< 3 ||| w.bankSelectEnable.toNat <<< 2
      ||| w.halt.toNat <<< 1 ||| w.stepReset.toNat := by
  simp only [pack, BitVec.toNat_append, Nat.shiftLeft_or_distrib, ← Nat.shiftLeft_add, BitVec.toNat_ofBool,
    BitVec.toNat_ofNat, Nat.zero_mod, Nat.or_zero]

/-- The three bytes of a word are its base-256 digits, most significant first (R30). -/
theorem wordBytesOf_toNat (x : Word24) :
    (wordBytesOf x).map BitVec.toNat = [x.toNat / 65536, x.toNat / 256 % 256, x.toNat % 256] := by
  have hhigh : x.toNat / 65536 < 256 := by have := x.isLt; omega
  simp [wordBytesOf, Nat.shiftRight_eq_div_pow, Nat.mod_eq_of_lt hhigh]

/-- A word that is neutral but for its latch packs to the latch's code in the top four bits: R8 gives every other field code 0. -/
theorem packBytes_neutral_writeTo {cfg : Config} (h : cfg.valid = true) (d : WriteDst) :
    packBytes cfg { ControlWord.neutral with writeTo := d } = [cfg.writeCode d ++ 0#4, 0, 0] := by
  obtain ⟨-, hregA, -, hneutral, -⟩ := cfg.valid_iff.1 h
  obtain ⟨hread, -, hreg⟩ := cfg.registerAZero_iff.1 hregA
  obtain ⟨hshift, hlogic⟩ := cfg.neutralZero_iff.1 hneutral
  have hpack : pack cfg { ControlWord.neutral with writeTo := d } = (cfg.writeCode d ++ 0#4) ++ 0#8 ++ 0#8 := by
    rw [pack_eq_iff]
    simp only [ControlWord.neutral] at hshift hlogic ⊢
    rw [hread, hreg, hshift, hlogic]
    generalize cfg.writeCode d = code
    revert code
    decide
  rw [packBytes, hpack]
  exact wordBytesOf_join _ _ _

/-! ## Unpacking -/

/-- Unpacking inverts packing on whole words: what unpacks to `w` is exactly what `w` packs to (R53). -/
theorem unpackWord_eq_ok_iff {cfg : Config} (h : cfg.valid = true) {x : Word24} {w : ControlWord} :
    unpackWord cfg x = .ok w ↔ pack cfg w = x := by
  obtain ⟨hread, hwrite, hreg, hshift, hlogic⟩ := Config.injective_of_valid h
  rw [pack_eq_iff]
  constructor
  · intro hunpack
    unfold unpackWord at hunpack
    split at hunpack
    · cases hunpack
    · next hunused =>
      split at hunpack
      · cases hunpack
      · next d hd =>
        split at hunpack
        · cases hunpack
        · next c hc =>
          cases hunpack
          exact ⟨((cfg.writeDstOf_eq_some_iff hwrite).1 hd).symm, ((cfg.readSrcOf_eq_some_iff hread).1 hc).symm,
            ((cfg.regOf_eq_iff hreg).1 rfl).symm, ((cfg.regOf_eq_iff hreg).1 rfl).symm,
            ((cfg.shiftOf_eq_iff hshift).1 rfl).symm, not_not.1 hunused, ((cfg.logicOf_eq_iff hlogic).1 rfl).symm,
            rfl, rfl, rfl, rfl, rfl⟩
  · rintro ⟨hw, hr, hl, hrt, hs, hunused, hlg, hsub, hpce, hbse, hhalt, hreset⟩
    simp only [unpackWord, hunused, ne_eq, not_true_eq_false, if_false, (cfg.writeDstOf_eq_some_iff hwrite).2 hw.symm,
      (cfg.readSrcOf_eq_some_iff hread).2 hr.symm, (cfg.regOf_eq_iff hreg).2 hl.symm,
      (cfg.regOf_eq_iff hreg).2 hrt.symm, (cfg.shiftOf_eq_iff hshift).2 hs.symm,
      (cfg.logicOf_eq_iff hlogic).2 hlg.symm, hsub, hpce, hbse, hhalt, hreset]

theorem pack_injective {cfg : Config} (h : cfg.valid = true) : Function.Injective (pack cfg) := by
  intro w w' heq
  have hw : unpackWord cfg (pack cfg w') = .ok w := (unpackWord_eq_ok_iff h).2 heq
  have hw' : unpackWord cfg (pack cfg w') = .ok w' := (unpackWord_eq_ok_iff h).2 rfl
  exact Except.ok.inj (hw.symm.trans hw')

theorem unpackWord_of_unused {cfg : Config} {x : Word24} (h : x.extractLsb' 9 2 ≠ 0#2) :
    unpackWord cfg x = .error (.unusedBitsSet x) := by
  rw [unpackWord, if_pos h]

theorem unpackWord_of_unassigned {cfg : Config} {x : Word24} (hunused : x.extractLsb' 9 2 = 0#2)
    (hcode : ∀ d, cfg.writeCode d ≠ x.extractLsb' 20 4) :
    unpackWord cfg x = .error (.unassignedWriteCode (x.extractLsb' 20 4)) := by
  simp only [unpackWord, hunused, ne_eq, not_true_eq_false, if_false, cfg.writeDstOf_eq_none hcode]

theorem unpackWord_of_assigned {cfg : Config} (h : cfg.valid = true) {x : Word24} (hunused : x.extractLsb' 9 2 = 0#2)
    {d : WriteDst} (hcode : cfg.writeCode d = x.extractLsb' 20 4) : ∃ w, unpackWord cfg x = .ok w := by
  obtain ⟨hread, hwrite, -⟩ := Config.injective_of_valid h
  obtain ⟨c, hc⟩ := Config.exists_readSrcOf hread (x.extractLsb' 17 3)
  have hd : cfg.writeDstOf (x.extractLsb' 20 4) = some d := (cfg.writeDstOf_eq_some_iff hwrite).2 hcode
  simp only [unpackWord, hunused, ne_eq, not_true_eq_false, if_false, hd, hc]
  exact ⟨_, rfl⟩

/-! ## The statements -/

/-- Settles O4: `unpackWord_eq_ok_iff`, with the three bytes joined to the word and the word cut into them. -/
theorem packUnpackRoundTrip : Obligations.PackUnpackRoundTrip := by
  unfold Obligations.PackUnpackRoundTrip
  intro cfg hvalid
  constructor
  · intro w
    refine ⟨_, _, _, rfl, ?_⟩
    rw [unpack, join_wordBytes, unpackWord_eq_ok_iff hvalid]
  · intro b0 b1 b2 w hunpack
    rw [packBytes, (unpackWord_eq_ok_iff hvalid).1 hunpack, wordBytesOf_join]

/-- Settles O2: R48's formula, then the word's base-256 digits. -/
theorem packLayout : Obligations.PackLayout := by
  unfold Obligations.PackLayout
  exact fun cfg w => ⟨pack_toNat cfg w, wordBytesOf_toNat (pack cfg w)⟩

/-- Settles O3: the neutral word is the one whose latch is register A, of code 0. -/
theorem packInjectiveNeutralGolden : Obligations.PackInjectiveNeutralGolden := by
  unfold Obligations.PackInjectiveNeutralGolden
  constructor
  · intro cfg hvalid
    obtain ⟨-, hregA, -⟩ := cfg.valid_iff.1 hvalid
    obtain ⟨-, hwriteA, -⟩ := cfg.registerAZero_iff.1 hregA
    have hneutral : packBytes cfg ControlWord.neutral = [cfg.writeCode (.reg .A) ++ 0#4, 0, 0] :=
      packBytes_neutral_writeTo hvalid (.reg .A)
    rw [hwriteA] at hneutral
    exact ⟨pack_injective hvalid, hneutral, packBytes_neutral_writeTo hvalid .mem⟩
  · exact packBytes_neutral_writeTo (cfg := Config.reference) (by decide) .mem

/-- Settles O5, one lemma for each outcome of the two checks. -/
theorem unpackRefusesInOrder : Obligations.UnpackRefusesInOrder := by
  unfold Obligations.UnpackRefusesInOrder
  intro cfg x hvalid
  exact ⟨unpackWord_of_unused, unpackWord_of_unassigned,
    fun hunused ⟨_, hcode⟩ => unpackWord_of_assigned hvalid hunused hcode⟩

end Sys2Proof
end

section
/-! PROOFS. The program-memory format (30_encoding.md R57 to R60): what `decode` answers on an opcode byte and what `encode`
writes, by the length of the variant, and their round trips in both directions. -/

namespace Sys2Proof

/-! ## Opcodes -/

theorem Config.decl_of_valid {cfg : Config} (h : cfg.valid = true) : cfg.decl.Nodup ∧ ∀ v, v ∈ cfg.decl := by
  obtain ⟨-, -, -, -, hdecl, -⟩ := cfg.valid_iff.1 h
  exact cfg.declComplete_iff.1 hdecl

theorem opcode_eq_iff {cfg : Config} (h : cfg.valid = true) {v : Variant} {k : Nat} :
    cfg.decl[k]? = some v ↔ k = opcode cfg v := by
  obtain ⟨hnodup, hmem⟩ := Config.decl_of_valid h
  constructor
  · exact fun hk => (idxOf_of_getElem? hnodup hk).symm
  · rintro rfl
    exact getElem?_idxOf (hmem v)

/-- Every opcode fits its byte, since `DECL` has no more entries than there are variants (R57, R95). -/
theorem opcode_lt {cfg : Config} (h : cfg.valid = true) (v : Variant) : opcode cfg v < 256 := by
  obtain ⟨hnodup, hmem⟩ := Config.decl_of_valid h
  have hlength : cfg.decl.length ≤ Variant.all.length :=
    (hnodup.subperm fun v _ => v.mem_all).length_le
  calc opcode cfg v < cfg.decl.length := List.idxOf_lt_length_of_mem (hmem v)
    _ ≤ Variant.all.length := hlength
    _ < 256 := by decide

/-- The opcode byte of a variant is the one byte that names it in `DECL` (R57, R93). -/
theorem opcodeByte_eq_iff {cfg : Config} (h : cfg.valid = true) {b : Byte} {v : Variant} :
    opcodeByte cfg v = b ↔ cfg.decl[b.toNat]? = some v := by
  have hlt : opcode cfg v < 256 := opcode_lt h v
  rw [opcode_eq_iff h, opcodeByte, ← BitVec.toNat_inj, BitVec.toNat_ofNat, Nat.mod_eq_of_lt hlt, eq_comm]

/-! ## Encode and decode, by the length of the variant -/

theorem encode_of_one_byte {cfg : Config} {i : Instr} (h : instrLength i.variant ≠ 2) :
    encode cfg i = [opcodeByte cfg i.variant] := by
  cases i with
  | jmp imm => exact absurd rfl h
  | jc imm => exact absurd rfl h
  | jz imm => exact absurd rfl h
  | _ => rfl

theorem encode_withImm {cfg : Config} {i : Instr} (h : instrLength i.variant = 2) (imm : Byte) :
    encode cfg (i.withImm imm) = [opcodeByte cfg i.variant, imm] := by
  cases i with
  | jmp _ => rfl
  | jc _ => rfl
  | jz _ => rfl
  | _ => cases h

theorem decode_of_one_byte {cfg : Config} (h : cfg.valid = true) {v : Variant} (hlen : instrLength v ≠ 2)
    (rest : List Byte) : decode cfg (opcodeByte cfg v :: rest) = .ok (cfg.rowInstance v, rest) := by
  simp only [decode, (opcodeByte_eq_iff h).1 rfl, if_neg hlen]

theorem decode_of_two_bytes {cfg : Config} (h : cfg.valid = true) {v : Variant} (hlen : instrLength v = 2) (imm : Byte)
    (rest : List Byte) :
    decode cfg (opcodeByte cfg v :: imm :: rest) = .ok ((cfg.rowInstance v).withImm imm, rest) := by
  simp only [decode, (opcodeByte_eq_iff h).1 rfl, if_pos hlen]

theorem decode_of_no_row {cfg : Config} {b : Byte} (h : cfg.decl.length ≤ b.toNat) (rest : List Byte) :
    decode cfg (b :: rest) = .error (.opcodeOutOfImage b) := by
  simp only [decode, List.getElem?_eq_none h]

theorem instrLength_eq_two_iff (v : Variant) : instrLength v = 2 ↔ v = .jmp ∨ v = .jc ∨ v = .jz := by
  cases v <;> decide

theorem instrLength_eq_one {v : Variant} (h : instrLength v ≠ 2) : instrLength v = 1 := by
  cases v with
  | jmp => exact absurd rfl h
  | jc => exact absurd rfl h
  | jz => exact absurd rfl h
  | _ => rfl

/-- The bytes `decode` reads are as many as the length of the variant it answers (R59). -/
theorem decode_length {cfg : Config} {bytes rest : List Byte} {i : Instr} (h : decode cfg bytes = .ok (i, rest)) :
    bytes.length = rest.length + instrLength i.variant := by
  obtain ⟨b, tl, v, rfl, -, hvariant, ⟨hlen, imm, rfl, -⟩ | ⟨hlen, rfl, -⟩⟩ := decode_ok h
  · rw [hvariant, hlen]
    rfl
  · rw [hvariant, instrLength_eq_one hlen]
    rfl

/-- The row form keeps a jump whole and makes anything else the value of its variant's row (R58, R102). -/
theorem rowForm_eq (cfg : Config) (i : Instr) :
    rowForm cfg i = if instrLength i.variant = 2 then i else cfg.rowInstance i.variant := by
  cases i <;> rfl

theorem decode_encode {cfg : Config} (h : cfg.valid = true) (i : Instr) (rest : List Byte) :
    decode cfg (encode cfg i ++ rest) = .ok (rowForm cfg i, rest) := by
  cases i with
  | jmp imm => exact decode_of_two_bytes h (v := .jmp) rfl imm rest
  | jc imm => exact decode_of_two_bytes h (v := .jc) rfl imm rest
  | jz imm => exact decode_of_two_bytes h (v := .jz) rfl imm rest
  | _ => exact decode_of_one_byte h (by decide) rest

/-- A lone byte without a row is no instruction, under the host's entry to the decoder (R60). -/
theorem decodeTableWord_of_no_row {b : Nat} (hbyte : b < 256) (hrow : 14 ≤ b) : decodeTableWord 8 b = none := by
  have hlow : b % 2 ^ 8 = b := Nat.mod_eq_of_lt hbyte
  have hout : Config.legacy.decl.length ≤ (BitVec.ofNat 8 b).toNat := by
    rw [BitVec.toNat_ofNat, hlow]
    exact hrow
  rw [decodeTableWord, instructionBytes, hlow, decode_of_no_row hout]

/-! ## The statements -/

/-- Settles O7: `decode_encode`, and each of the instructions of its second clause is its own row form. -/
theorem decodeAfterEncode : Obligations.DecodeAfterEncode := by
  unfold Obligations.DecodeAfterEncode
  intro cfg i rest hvalid
  refine ⟨decode_encode hvalid i rest, fun hwhole => ?_⟩
  have hself : rowForm cfg i = i := by
    obtain hjump | rfl | rfl | hrow := hwhole
    · rw [rowForm_eq, if_pos hjump]
    · rfl
    · rfl
    · rw [rowForm_eq, ← hrow, ite_self]
  rw [decode_encode hvalid, hself]

/-- Settles O8, by the two lengths `decode` can have read. -/
theorem encodeAfterDecode : Obligations.EncodeAfterDecode := by
  unfold Obligations.EncodeAfterDecode
  intro cfg bytes rest i hvalid hdecode
  obtain ⟨b, tl, v, rfl, hv, -, ⟨hlen, imm, rfl, rfl⟩ | ⟨hlen, rfl, rfl⟩⟩ := decode_ok hdecode
  · rw [encode_withImm (by rwa [rowInstance_variant]), rowInstance_variant, (opcodeByte_eq_iff hvalid).2 hv]
    rfl
  · rw [encode_of_one_byte (by rwa [rowInstance_variant]), rowInstance_variant, (opcodeByte_eq_iff hvalid).2 hv]
    rfl

/-- Settles O9: the byte is the opcode of the decoded variant alone, so it tells the three jumps from the rest. -/
theorem lengthFromOpcodeByte : Obligations.LengthFromOpcodeByte := by
  unfold Obligations.LengthFromOpcodeByte
  intro cfg b rest rest' i hvalid hdecode
  obtain ⟨_, _, _, heq, hv, rfl, -⟩ := decode_ok hdecode
  cases heq
  have hjump (v : Variant) : b.toNat = opcode cfg v ↔ i.variant = v := by
    rw [← opcode_eq_iff hvalid, hv, Option.some_inj]
  refine ⟨hv, ?_⟩
  simp only [decode_length hdecode, hjump, ← instrLength_eq_two_iff]
  split
  · next hlen => rw [hlen]
  · next hlen => rw [instrLength_eq_one hlen]

/-- Settles O6: the fourteen rows by evaluation, every later byte by `decodeTableWord_of_no_row`. -/
theorem tableWordsDecode : Obligations.TableWordsDecode := by
  unfold Obligations.TableWordsDecode
  exact ⟨rfl, rfl, rfl, rfl, rfl, rfl, rfl, rfl, rfl, rfl, rfl, rfl, rfl, rfl,
    fun _ hbyte hrow => decodeTableWord_of_no_row hbyte hrow⟩

end Sys2Proof
end

section
/-! PROOFS. Ill-formed move values (30_encoding.md R55; log entry 10): a literal endpoint that names no component is the one thing
that keeps a move from compiling, and a value that does not compile stops where it is executed. -/

namespace Sys2Proof.Machine

open Sys2Proof

theorem find_isSome_eq_any {α : Type} (p : α → Bool) (l : List α) : (l.find? p).isSome = l.any p := by
  rw [Bool.eq_iff_iff, List.find?_isSome, List.any_eq_true]

theorem writeDstOf_isSome (cfg : Config) (a : BitVec 4) : (cfg.writeDstOf a).isSome = cfg.writeAssigned a :=
  find_isSome_eq_any (fun c => cfg.writeCode c == a) WriteDst.all

theorem readSrcOf_isSome (cfg : Config) (a : BitVec 3) : (cfg.readSrcOf a).isSome = cfg.readAssigned a :=
  find_isSome_eq_any (fun c => cfg.readCode c == a) ReadSrc.all

theorem dstComp_isSome (cfg : Config) (dst : MoveDst) : (dstComp cfg dst).isSome = dst.wf cfg := by
  cases dst with
  | lit a => exact writeDstOf_isSome cfg a
  | _ => rfl

theorem srcComp_isSome (cfg : Config) (src : MoveSrc) : (srcComp cfg src).isSome = src.wf cfg := by
  cases src with
  | lit a => exact readSrcOf_isSome cfg a
  | _ => rfl

theorem lit_of_dst_not_wf {cfg : Config} {dst : MoveDst} (h : dst.wf cfg = false) : ∃ a, dst = .lit a := by
  cases dst with
  | lit a => exact ⟨a, rfl⟩
  | _ => cases h

theorem lit_of_src_not_wf {cfg : Config} {src : MoveSrc} (h : src.wf cfg = false) : ∃ a, src = .lit a := by
  cases src with
  | lit a => exact ⟨a, rfl⟩
  | _ => cases h

theorem compile_mov_of_dst_not_wf {cfg : Config} {dst : MoveDst} (h : dst.wf cfg = false) (src : MoveSrc) :
    compile cfg (.mov dst src) = .error (.malformedInstruction ⟨.mov, .dst, dstCode dst⟩) := by
  have hnone : dstComp cfg dst = none := by simp [← Option.not_isSome_iff_eq_none, dstComp_isSome, h]
  simp only [compile, movWords, hnone, framedOr]

theorem compile_mov_of_src_not_wf {cfg : Config} {dst : MoveDst} {src : MoveSrc} (hdst : dst.wf cfg = true)
    (hsrc : src.wf cfg = false) :
    compile cfg (.mov dst src) = .error (.malformedInstruction ⟨.mov, .src, srcCode src⟩) := by
  obtain ⟨d, hd⟩ : ∃ d, dstComp cfg dst = some d := by rwa [← Option.isSome_iff_exists, dstComp_isSome]
  have hnone : srcComp cfg src = none := by simp [← Option.not_isSome_iff_eq_none, srcComp_isSome, hsrc]
  simp only [compile, movWords, hd, hnone, framedOr]

/-- A value that does not compile stops with its compile error, before any cycle (R114, R117). -/
theorem exec_of_compile_error {i : Instr} {s : State} {e : CompileError} (h : compile s.cfg i = .error e) :
    exec i s = .fault (compileFault e) := by
  rw [exec_eq_runInstr, runOutcome_fault]
  simp only [runInstr, h]

/-! ## The statement -/

/-- Settles O39: an endpoint that is not well-formed is a literal, and the move does not compile. -/
theorem malformedMoveStops : Obligations.MalformedMoveStops := by
  unfold Obligations.MalformedMoveStops
  intro s dst src
  constructor
  · intro hdst
    obtain ⟨a, rfl⟩ := lit_of_dst_not_wf hdst
    exact ⟨a, rfl, exec_of_compile_error (compile_mov_of_dst_not_wf hdst src)⟩
  · intro hdst hsrc
    obtain ⟨a, rfl⟩ := lit_of_src_not_wf hsrc
    exact ⟨a, rfl, exec_of_compile_error (compile_mov_of_src_not_wf hdst hsrc)⟩

end Sys2Proof.Machine
end

section
/-! PROOFS. The compiled sequences (40_compiler_common.md R62 to R71): which values compile, and what is between the prologue and
the epilogue of a sequence, from which its shape and its length follow. -/

namespace Sys2Proof.Machine

open Sys2Proof Sys2Proof.Claims

/-! ## The execute phase -/

/-- A word that stands before the epilogue of a sequence (R71): it neither ends the instruction nor selects a bank. -/
structure MidWord (w : ControlWord) : Prop where
  stepReset : w.stepReset = false
  halt : w.halt = false
  bankSelectEnable : w.bankSelectEnable = false

/-- What `compile` puts between the prologue and the epilogue of an instruction: as many words as R69 leaves for it, each of
them a `MidWord`. -/
structure ExecutePhase (i : Instr) (ex : List ControlWord) : Prop where
  length : ex.length + 3 = sequenceLength i.variant
  mid : ∀ w ∈ ex, MidWord w

theorem moveWord_mid (d : WriteDst) (c : ReadSrc) : MidWord (moveWord d c) := ⟨rfl, rfl, rfl⟩

/-- jmp's execute phase is two moves (R87). -/
theorem jmpWords_executePhase (imm : Byte) : ExecutePhase (.jmp imm) (jmpWords imm) where
  length := rfl
  mid := List.forall_mem_cons.2 ⟨moveWord_mid .mar .pc, List.forall_mem_singleton.2 (moveWord_mid .pc .mem)⟩

/-- The execute phase of an instruction that compiles to a single execute word. -/
theorem executePhase_of_word {cfg : Config} {i : Instr} {seq : List ControlWord} {w : ControlWord}
    (hc : compile cfg i = .ok (framed [w])) (hlength : sequenceLength i.variant = 4) (hw : MidWord w)
    (h : compile cfg i = .ok seq) : ∃ ex, seq = framed ex ∧ ExecutePhase i ex :=
  ⟨[w], Except.ok.inj (h.symm.trans hc), hlength.symm, List.forall_mem_singleton.2 hw⟩

theorem sequenceLength_openPoint {v : Variant} (h : isOpenPoint v = true) : sequenceLength v = 3 := by
  cases v with
  | jc => rfl
  | jz => rfl
  | nop => rfl
  | _ => cases h

/-- jc, jz and nop have no execute word where they compile (R88). -/
theorem executePhase_of_openPoint {cfg : Config} {i : Instr} {seq : List ControlWord} (hi : isOpenPoint i.variant = true)
    (h : compile cfg i = .ok seq) : ∃ ex, seq = framed ex ∧ ExecutePhase i ex := by
  cases hu : cfg.unimpl with
  | fail =>
    rw [compile_openPoint_fail hi hu] at h
    cases h
  | legacyEmpty =>
    rw [compile_openPoint_legacy hi hu] at h
    cases h
    exact ⟨[], rfl, (sequenceLength_openPoint hi).symm, List.forall_mem_nil _⟩

theorem executePhase_of_mov {cfg : Config} {dst : MoveDst} {src : MoveSrc} {seq : List ControlWord}
    (h : compile cfg (.mov dst src) = .ok seq) : ∃ ex, seq = framed ex ∧ ExecutePhase (.mov dst src) ex := by
  cases hm : movWords cfg dst src with
  | error e => simp [compile, framedOr, hm] at h
  | ok ex =>
    obtain ⟨d, c, -, -, rfl⟩ := movWords_ok hm
    exact executePhase_of_word (by simp only [compile, hm, framedOr]) rfl (moveWord_mid d c) h

/-- What a compiled sequence can be: halt's single word, or an execute phase between the prologue and the epilogue (R66, R67). -/
theorem compile_ok {cfg : Config} {i : Instr} {seq : List ControlWord} (h : compile cfg i = .ok seq) :
    (i = .halt ∧ seq = [haltWord]) ∨ (i ≠ .halt ∧ ∃ ex, seq = framed ex ∧ ExecutePhase i ex) := by
  cases i with
  | halt =>
    cases h
    exact .inl ⟨rfl, rfl⟩
  | mov dst src => exact .inr ⟨nofun, executePhase_of_mov h⟩
  | jmp imm =>
    cases h
    exact .inr ⟨nofun, jmpWords imm, rfl, jmpWords_executePhase imm⟩
  | jc imm => exact .inr ⟨nofun, executePhase_of_openPoint rfl h⟩
  | jz imm => exact .inr ⟨nofun, executePhase_of_openPoint rfl h⟩
  | nop => exact .inr ⟨nofun, executePhase_of_openPoint rfl h⟩
  | _ => exact .inr ⟨nofun, executePhase_of_word rfl rfl ⟨rfl, rfl, rfl⟩ h⟩

/-! ## The frame around the execute phase (R66) -/

theorem framed_eq_concat (ex : List ControlWord) : framed ex = (fetch0 :: fetch1 :: ex) ++ [epilogue] := rfl

@[simp] theorem length_framed (ex : List ControlWord) : (framed ex).length = ex.length + 3 := by
  rw [framed_eq_concat, List.length_append]
  rfl

theorem framed_getLast (ex : List ControlWord) : (framed ex)[(framed ex).length - 1]? = some epilogue := by
  rw [← List.getLast?_eq_getElem?, framed_eq_concat, List.getLast?_concat]

/-- The prologue too is made of words that stand before the epilogue (R63). -/
theorem mid_before_epilogue {ex : List ControlWord} (hex : ∀ w ∈ ex, MidWord w) :
    ∀ w ∈ fetch0 :: fetch1 :: ex, MidWord w :=
  List.forall_mem_cons.2 ⟨⟨rfl, rfl, rfl⟩, List.forall_mem_cons.2 ⟨⟨rfl, rfl, rfl⟩, hex⟩⟩

theorem mid_of_framed_getElem? {ex : List ControlWord} (hex : ∀ w ∈ ex, MidWord w) {k : Nat} {w : ControlWord}
    (hk : k < (framed ex).length - 1) (hw : (framed ex)[k]? = some w) : MidWord w := by
  rw [length_framed] at hk
  have hlt : k < (fetch0 :: fetch1 :: ex).length := hk
  rw [framed_eq_concat, List.getElem?_append_left hlt] at hw
  exact mid_before_epilogue hex w (List.mem_of_getElem? hw)

/-- No word of a framed sequence stops the machine or selects a bank; the epilogue only resets STEP (R64). -/
theorem quiet_of_mem_framed {ex : List ControlWord} (hex : ∀ w ∈ ex, MidWord w) {w : ControlWord} (hw : w ∈ framed ex) :
    w.halt = false ∧ w.bankSelectEnable = false := by
  rw [framed_eq_concat, List.mem_append, List.mem_singleton] at hw
  obtain hmid | rfl := hw
  · obtain ⟨-, hhalt, hbank⟩ := mid_before_epilogue hex w hmid
    exact ⟨hhalt, hbank⟩
  · exact ⟨rfl, rfl⟩

/-! ## Which values compile -/

theorem compile_mov_of_wf {cfg : Config} {dst : MoveDst} {src : MoveSrc} (hdst : dst.wf cfg = true)
    (hsrc : src.wf cfg = true) : ∃ seq, compile cfg (.mov dst src) = .ok seq := by
  obtain ⟨d, hd⟩ : ∃ d, dstComp cfg dst = some d := by rwa [← Option.isSome_iff_exists, dstComp_isSome]
  obtain ⟨c, hc⟩ : ∃ c, srcComp cfg src = some c := by rwa [← Option.isSome_iff_exists, srcComp_isSome]
  exact ⟨framed [moveWord d c], by simp only [compile, movWords, hd, hc, framedOr]⟩

theorem compile_of_wf {cfg : Config} {i : Instr} (hwf : i.wf cfg = true)
    (hopen : ¬(cfg.unimpl = .fail ∧ isOpenPoint i.variant = true)) : ∃ seq, compile cfg i = .ok seq := by
  have hlegacy (hi : isOpenPoint i.variant = true) : cfg.unimpl = .legacyEmpty := by
    cases hu : cfg.unimpl with
    | fail => exact absurd ⟨hu, hi⟩ hopen
    | legacyEmpty => rfl
  cases i with
  | mov dst src =>
    obtain ⟨hdst, hsrc⟩ := Bool.and_eq_true_iff.1 hwf
    exact compile_mov_of_wf hdst hsrc
  | jc imm => exact ⟨_, compile_openPoint_legacy rfl (hlegacy rfl)⟩
  | jz imm => exact ⟨_, compile_openPoint_legacy rfl (hlegacy rfl)⟩
  | nop => exact ⟨_, compile_openPoint_legacy rfl (hlegacy rfl)⟩
  | _ => exact ⟨_, rfl⟩

/-! ## The statements -/

/-- Settles O13: the open point does not compile under Fail, and every other well-formed value does. -/
theorem compileIsTotalOnWellFormed : Obligations.CompileIsTotalOnWellFormed := by
  unfold Obligations.CompileIsTotalOnWellFormed
  intro cfg i hwf
  split
  · next hopen =>
    obtain ⟨hfail, hi⟩ := hopen
    exact compile_openPoint_fail hi hfail
  · next hopen => exact compile_of_wf hwf hopen

/-- Settles O14, by the two forms of a compiled sequence. -/
theorem compiledSequenceShape : Obligations.CompiledSequenceShape := by
  unfold Obligations.CompiledSequenceShape
  intro cfg i seq h
  obtain ⟨rfl, rfl⟩ | ⟨hi, ex, rfl, -, hmid⟩ := compile_ok h
  · exact ⟨absurd rfl, fun _ => rfl, absurd rfl, List.forall_mem_singleton.2 rfl⟩
  · refine ⟨fun _ => ⟨rfl, rfl, framed_getLast ex, fun k w hk hw => ?_⟩, fun hhalt => absurd hhalt hi, fun _ w hw => ?_,
      fun w hw => ?_⟩
    · exact (mid_of_framed_getElem? hmid hk hw).stepReset
    · exact (quiet_of_mem_framed hmid hw).left
    · exact (quiet_of_mem_framed hmid hw).right

theorem compile_length {cfg : Config} {i : Instr} {seq : List ControlWord} (h : compile cfg i = .ok seq) :
    seq.length = sequenceLength i.variant := by
  obtain ⟨rfl, rfl⟩ | ⟨-, ex, rfl, hlength, -⟩ := compile_ok h
  · rfl
  · rw [length_framed, hlength]

theorem sequenceLength_le_five (v : Variant) : sequenceLength v ≤ 5 := by
  cases v <;> decide

/-- Settles O15: `compile_length`, and the open point under Fail compiles to an error. -/
theorem compiledSequenceLengths : Obligations.CompiledSequenceLengths := by
  unfold Obligations.CompiledSequenceLengths
  constructor
  · intro cfg i seq h
    have hlength := compile_length h
    exact ⟨hlength, hlength ▸ sequenceLength_le_five i.variant⟩
  · intro cfg i hfail hi seq h
    rw [compile_openPoint_fail hi hfail] at h
    cases h

end Sys2Proof.Machine
end

section
/-! PROOFS. The ALU family (41_alu_ops.md R72 to R80): every instruction of it but cmp is one word that latches the ALU, so its
completion, its faults and its frame are those of that word after the fetch; cmp's word is a self-transfer. -/

namespace Sys2Proof.Machine

open Sys2Proof Sys2Proof.Claims

/-! ## One execute word after the fetch -/

/-- An instruction of one execute word, once its own opcode is fetched, is that word's cycle and the epilogue (R66, R114). -/
theorem runInstr_framed_one_of_ok {i : Instr} {s t : State} {w : ControlWord} {op : Byte}
    (hc : compile s.cfg i = .ok (framed [w])) (hw : w.halt = false) (hmem : readMem s.mem s.pc = some op)
    (hop : op.toNat = opcode s.cfg i.variant) (hcycle : benchCycle (s.fetched op) w = .ok t) :
    runInstr i s = ⟨t, 4, none⟩ := by
  simp only [runInstr, hc, runWords_framed_one hw, hmem, hop, if_true, hcycle]

/-- A fault of the one execute word leaves the state of the fetch, after three cycles (R112, R114, R119). -/
theorem runInstr_framed_one_of_error {i : Instr} {s : State} {w : ControlWord} {op : Byte} {f : Fault}
    (hc : compile s.cfg i = .ok (framed [w])) (hw : w.halt = false) (hmem : readMem s.mem s.pc = some op)
    (hop : op.toNat = opcode s.cfg i.variant) (hcycle : benchCycle (s.fetched op) w = .error f) :
    runInstr i s = ⟨s.fetched op, 3, some f⟩ := by
  simp only [runInstr, hc, runWords_framed_one hw, hmem, hop, if_true, hcycle]

/-! ## Instructions that latch the ALU -/

/-- The instruction compiles, under every configuration, to one ALU word on `r1` and `r2` whose selectors compute `f` (R72). -/
def LatchesAlu (i : Instr) (r1 r2 : Reg) (f : Byte → Byte → Byte) : Prop :=
  ∃ logic shift subtract, (∀ cfg, compile cfg i = .ok (framed [aluWord r1 r2 logic shift subtract]))
    ∧ ∀ a b, aluFn logic shift subtract a b = .ok (f a b)

theorem latchesAlu_of_twoOperandResult {i : Instr} {r1 r2 : Reg} {f : Byte → Byte → Byte}
    (h : twoOperandResult i = some (r1, r2, f)) : LatchesAlu i r1 r2 f := by
  cases i with
  | add | sub | and | or | xor =>
    cases h
    exact ⟨_, _, _, fun _ => rfl, fun _ _ => rfl⟩
  | _ => cases h

theorem latchesAlu_shl (r : Reg) : LatchesAlu (.shl r) r r fun a _ => a <<< 1 :=
  ⟨_, _, _, fun _ => rfl, fun _ _ => rfl⟩

theorem latchesAlu_shr (r : Reg) : LatchesAlu (.shr r) r r fun a _ => a >>> 1 :=
  ⟨_, _, _, fun _ => rfl, fun _ _ => rfl⟩

section

variable {i : Instr} {s : State} {r1 r2 : Reg} {f : Byte → Byte → Byte} {op : Byte}

theorem LatchesAlu.exec_next (h : LatchesAlu i r1 r2 f) (hmem : readMem s.mem s.pc = some op)
    (hop : op.toNat = opcode s.cfg i.variant) {a b : Byte} (hleft : readReg s.regs r1 = some a)
    (hright : readReg s.regs r2 = some b) : exec i s = .next ((s.fetched op).withReg r1 (f a b)) := by
  obtain ⟨logic, shift, subtract, hc, halu⟩ := h
  have hcycle : benchCycle (s.fetched op) (aluWord r1 r2 logic shift subtract)
      = .ok ((s.fetched op).withReg r1 (f a b)) := by
    simp [benchCycle_aluWord, hleft, hright, halu]
  rw [exec_eq_runInstr, runInstr_framed_one_of_ok (hc s.cfg) rfl hmem hop hcycle]
  rfl

/-- The left operand is read first, whatever the right one holds (R118). -/
theorem LatchesAlu.left_unwritten (h : LatchesAlu i r1 r2 f) (hmem : readMem s.mem s.pc = some op)
    (hop : op.toNat = opcode s.cfg i.variant) (hleft : readReg s.regs r1 = none) :
    runInstr i s = ⟨s.fetched op, 3, some (.unwrittenRead (.reg r1))⟩ := by
  obtain ⟨logic, shift, subtract, hc, -⟩ := h
  refine runInstr_framed_one_of_error (hc s.cfg) rfl hmem hop ?_
  simp [benchCycle_aluWord, hleft]

theorem LatchesAlu.right_unwritten (h : LatchesAlu i r1 r2 f) (hmem : readMem s.mem s.pc = some op)
    (hop : op.toNat = opcode s.cfg i.variant) {a : Byte} (hleft : readReg s.regs r1 = some a)
    (hright : readReg s.regs r2 = none) :
    runInstr i s = ⟨s.fetched op, 3, some (.unwrittenRead (.reg r2))⟩ := by
  obtain ⟨logic, shift, subtract, hc, -⟩ := h
  refine runInstr_framed_one_of_error (hc s.cfg) rfl hmem hop ?_
  simp [benchCycle_aluWord, hleft, hright]

end

/-! ## The shifts as numbers -/

theorem shiftLeft_one_eq_ofNat (a : Byte) : a <<< 1 = BitVec.ofNat 8 (a.toNat * 2) := by
  apply BitVec.eq_of_toNat_eq
  rw [BitVec.toNat_shiftLeft, Nat.shiftLeft_eq, BitVec.toNat_ofNat, Nat.pow_one]

theorem shiftRight_one_eq_ofNat (a : Byte) : a >>> 1 = BitVec.ofNat 8 (a.toNat / 2) := by
  have hlt : a.toNat / 2 < 2 ^ 8 := (Nat.div_le_self _ _).trans_lt a.isLt
  apply BitVec.eq_of_toNat_eq
  rw [BitVec.toNat_ushiftRight, Nat.shiftRight_eq_div_pow, BitVec.toNat_ofNat, Nat.mod_eq_of_lt hlt, Nat.pow_one]

/-! ## What a completed instruction of the family leaves -/

theorem isOpenPoint_eq_false_of_isAlu {v : Variant} (h : isAlu v = true) : isOpenPoint v = false := by
  cases v with
  | jc | jz | nop => cases h
  | _ => rfl

/-- `exec_next` on the family: the fetch, and at most a write to the destination register on top of it (R72, R78). -/
theorem exec_next_of_isAlu {i : Instr} {s t : State} (hi : isAlu i.variant = true) (h : exec i s = .next t) :
    ∃ b, readMem s.mem s.pc = some b
      ∧ (t = s.fetched b ∨ ∃ r v, aluDest i = some r ∧ t = (s.fetched b).withReg r v) := by
  obtain ⟨rfl, -⟩ | ⟨b, hb, -, hform⟩ := exec_next h
  · cases hi
  · refine ⟨b, hb, ?_⟩
    cases hform with
    | alu v hdest => exact .inr ⟨_, v, hdest, rfl⟩
    | cmp r1 r2 => exact .inl rfl
    | openPoint hopen _ => simp [isOpenPoint_eq_false_of_isAlu hi] at hopen
    | selfMove | move | jump => cases hi

/-! ## The statements -/

/-- Settles O26: each of the five latches the ALU's result. -/
theorem twoOperandAluCompletes : Obligations.TwoOperandAluCompletes := by
  unfold Obligations.TwoOperandAluCompletes
  intro i s r1 r2 f op a b hi hmem hop hleft hright
  exact (latchesAlu_of_twoOperandResult hi).exec_next hmem hop hleft hright

/-- Settles O27: cmp's word moves A to itself, so its cycle reads nothing and changes nothing (R78, R84). -/
theorem cmpCompletes : Obligations.CmpCompletes := by
  unfold Obligations.CmpCompletes
  intro s r1 r2 op hmem hop
  have hrun : runInstr (.cmp r1 r2) s = ⟨s.fetched op, 4, none⟩ := runInstr_framed_one_of_ok rfl rfl hmem hop rfl
  rw [exec_eq_runInstr, hrun]
  rfl

/-- Settles O28: the shifts latch the ALU with the register on both inputs. -/
theorem shiftsComplete : Obligations.ShiftsComplete := by
  unfold Obligations.ShiftsComplete
  intro s r op a hmem ha
  rw [← shiftLeft_one_eq_ofNat, ← shiftRight_one_eq_ofNat]
  exact ⟨fun hop => (latchesAlu_shl r).exec_next hmem hop ha ha, fun hop => (latchesAlu_shr r).exec_next hmem hop ha ha⟩

/-- Settles O36, by the order in which an ALU word reads its operands. -/
theorem unwrittenOperandsFault : Obligations.UnwrittenOperandsFault := by
  unfold Obligations.UnwrittenOperandsFault
  intro i s op hmem hop
  refine ⟨fun r1 r2 f hi => ?_, fun r hi hr => ?_⟩
  · have hlatches := latchesAlu_of_twoOperandResult hi
    exact ⟨hlatches.left_unwritten hmem hop, fun a hleft hright => hlatches.right_unwritten hmem hop hleft hright⟩
  · obtain rfl | rfl := hi
    · exact (latchesAlu_shl r).left_unwritten hmem hop hr
    · exact (latchesAlu_shr r).left_unwritten hmem hop hr

/-- Settles O41: of the two forms a completed instruction of the family leaves, one writes a register, the destination's. -/
theorem aluFrame : Obligations.AluFrame := by
  unfold Obligations.AluFrame
  intro i s t hi h
  obtain ⟨b, hb, rfl | ⟨r, v, hdest, rfl⟩⟩ := exec_next_of_isAlu hi h
  · exact ⟨fun _ _ => rfl, fun _ => rfl, rfl, rfl, rfl, rfl, .refl s, rfl, hb, rfl⟩
  · refine ⟨fun r' hr' => ?_, fun _ => rfl, rfl, rfl, rfl, rfl, .refl s, rfl, hb, rfl⟩
    have hne : r' ≠ r := fun heq => hr' (heq ▸ hdest)
    exact readReg_writeReg_other s.regs v hne

end Sys2Proof.Machine
end

section
/-! PROOFS. The move (42_move.md R81 to R85): it compiles to one word that names two components, so its bytes are their codes, and
its completion, its fault and its frame are those of that word after the fetch. -/

namespace Sys2Proof.Machine

open Sys2Proof Sys2Proof.Claims

/-! ## The execute word -/

/-- Endpoints that name components compile to the move word between them (R81). -/
theorem compile_mov {cfg : Config} {dst : MoveDst} {src : MoveSrc} {d : WriteDst} {c : ReadSrc}
    (hd : dstComp cfg dst = some d) (hc : srcComp cfg src = some c) :
    compile cfg (.mov dst src) = .ok (framed [moveWord d c]) := by
  simp only [compile, movWords, hd, hc, framedOr]

/-- A move word is its two codes: R8 gives every neutral field code 0 (R82). -/
theorem pack_moveWord_toNat {cfg : Config} (h : cfg.valid = true) (d : WriteDst) (c : ReadSrc) :
    (pack cfg (moveWord d c)).toNat = ((cfg.writeCode d).toNat <<< 4 ||| (cfg.readCode c).toNat <<< 1) * 65536 := by
  obtain ⟨-, hregA, -, hneutral, -⟩ := cfg.valid_iff.1 h
  obtain ⟨-, -, hreg⟩ := cfg.registerAZero_iff.1 hregA
  obtain ⟨hshift, hlogic⟩ := cfg.neutralZero_iff.1 hneutral
  simp only [ControlWord.neutral] at hshift hlogic
  have hcodes : (pack cfg (moveWord d c)).toNat = (cfg.writeCode d).toNat <<< 20 ||| (cfg.readCode c).toNat <<< 17 := by
    simp [pack_toNat, moveWord, ControlWord.neutral, hreg, hshift, hlogic]
  rw [hcodes, ← Nat.shiftLeft_eq _ 16, Nat.shiftLeft_or_distrib, ← Nat.shiftLeft_add, ← Nat.shiftLeft_add]

/-- Bytes 1 and 2 of a move word are zero (R82). -/
theorem packBytes_moveWord_toNat {cfg : Config} (h : cfg.valid = true) (d : WriteDst) (c : ReadSrc) :
    (packBytes cfg (moveWord d c)).map BitVec.toNat
      = [(cfg.writeCode d).toNat <<< 4 ||| (cfg.readCode c).toNat <<< 1, 0, 0] := by
  rw [packBytes, wordBytesOf_toNat, pack_moveWord_toNat h, List.cons.injEq, List.cons.injEq, List.cons.injEq]
  exact ⟨by omega, by omega, by omega, rfl⟩

/-! ## Literal endpoints -/

theorem srcComp_lit_readCode {cfg : Config} (h : cfg.valid = true) (c : ReadSrc) :
    srcComp cfg (.lit (cfg.readCode c)) = some c := by
  obtain ⟨hread, -⟩ := Config.injective_of_valid h
  exact (cfg.readSrcOf_eq_some_iff hread).2 rfl

theorem dstComp_lit_writeCode {cfg : Config} (h : cfg.valid = true) (d : WriteDst) :
    dstComp cfg (.lit (cfg.writeCode d)) = some d := by
  obtain ⟨-, hwrite, -⟩ := Config.injective_of_valid h
  exact (cfg.writeDstOf_eq_some_iff hwrite).2 rfl

/-- Of a source that names a component, `compile` sees the component alone, whatever the destination is. -/
theorem compile_mov_eq_of_srcComp {cfg : Config} {src src' : MoveSrc} {c : ReadSrc} (hc : srcComp cfg src = some c)
    (hc' : srcComp cfg src' = some c) (dst : MoveDst) : compile cfg (.mov dst src) = compile cfg (.mov dst src') := by
  simp only [compile, movWords, hc, hc']
  cases dstComp cfg dst with
  | none => rfl
  | some d => rfl

/-- Of a destination that names a component, `compile` sees the component alone, whatever the source is. -/
theorem compile_mov_eq_of_dstComp {cfg : Config} {dst dst' : MoveDst} {d : WriteDst} (hd : dstComp cfg dst = some d)
    (hd' : dstComp cfg dst' = some d) (src : MoveSrc) : compile cfg (.mov dst src) = compile cfg (.mov dst' src) := by
  simp only [compile, movWords, hd, hd']
  cases srcComp cfg src with
  | none => rfl
  | some c => rfl

/-! ## The bench cycle -/

/-- A self-transfer that the bench does not refuse neither reads nor latches (R84, R110). -/
theorem benchCycle_selfTransfer {s : State} {w : ControlWord} (hbank : w.bankSelectEnable = false)
    (hpc : (w.programCounterEnable && w.writeTo == .pc) = false) (hself : selfTransfer w.readFrom w.writeTo = true) :
    benchCycle s w = .ok (incPC s w) := by
  simp only [benchCycle, hbank, hpc, hself, Bool.false_eq_true, if_false, if_true]

/-- What a move's source drives after the fetch: MAR is written by then, so only a register or BANK can be unwritten (R85). -/
theorem drive_moveWord_fetched {s : State} {op : Byte} (hmem : readMem s.mem s.pc = some op) (d : WriteDst) (c : ReadSrc) :
    drive (s.fetched op) (moveWord d c) = need (movSourceCell c) (movSource s op c) := by
  cases c with
  | reg r => rfl
  | pc => rfl
  | bank => rfl
  | acc => exact drive_moveWord_acc (s.fetched op) d
  | mem =>
    have hread : drive (s.fetched op) (moveWord d .mem) = need (.mem s.pc) (readMem s.mem s.pc) := rfl
    rw [hread, hmem]
    rfl

/-- Between different storage a move word after the fetch is one read that may fault, then one write that cannot (R81, R85). -/
theorem benchCycle_moveWord_fetched_eq {s : State} {op : Byte} {d : WriteDst} {c : ReadSrc}
    (hmem : readMem s.mem s.pc = some op) (hself : selfTransfer c d = false) :
    benchCycle (s.fetched op) (moveWord d c)
      = (need (movSourceCell c) (movSource s op c)).map fun v => movTarget s op v d := by
  rw [benchCycle_moveWord, if_neg (by simp [hself]), drive_moveWord_fetched hmem]
  cases need (movSourceCell c) (movSource s op c) with
  | error f => rfl
  | ok v => exact latch_fetched s op v d

/-! ## What a move leaves unchanged, component by component -/

section

variable (s : State) (b v : Byte) {d : WriteDst}

theorem movTarget_readReg_other {r : Reg} (h : d ≠ .reg r) : readReg (movTarget s b v d).regs r = readReg s.regs r := by
  cases d with
  | reg r' =>
    have hne : r ≠ r' := fun heq => h (heq ▸ rfl)
    exact readReg_writeReg_other s.regs v hne
  | _ => rfl

theorem movTarget_mem (h : d ≠ .mem) : (movTarget s b v d).mem = s.mem := by
  cases d with
  | mem => exact absurd rfl h
  | _ => rfl

/-- The store of a move goes to the opcode's own address (R85, R134). -/
theorem movTarget_readMem_other (d : WriteDst) {x : Byte} (h : x ≠ s.pc) :
    readMem (movTarget s b v d).mem x = readMem s.mem x := by
  cases d with
  | mem => exact readMem_writeMem_other s.mem v h
  | _ => rfl

theorem movTarget_bank (h : d ≠ .bank) : (movTarget s b v d).bank = s.bank := by
  cases d with
  | bank => exact absurd rfl h
  | _ => rfl

theorem movTarget_out (h : d ≠ .out) : (movTarget s b v d).out = s.out := by
  cases d with
  | out => exact absurd rfl h
  | _ => rfl

theorem movTarget_mar (h : d ≠ .mar) : (movTarget s b v d).mar = some s.pc := by
  cases d with
  | mar => exact absurd rfl h
  | _ => rfl

theorem movTarget_ir (h : d ≠ .ir) : (movTarget s b v d).ir = b := by
  cases d with
  | ir => exact absurd rfl h
  | _ => rfl

theorem movTarget_pc (h : d ≠ .pc) : (movTarget s b v d).pc = s.pc + 1 := by
  cases d with
  | pc => exact absurd rfl h
  | _ => rfl

theorem movTarget_fixed (d : WriteDst) : sameFixed s (movTarget s b v d)
    ∧ (movTarget s b v d).stepCount = s.stepCount ∧ (movTarget s b v d).halted = s.halted :=
  latch_fixed (s := s.fetched b) (latch_fetched s b v d)

end

/-- A completed move leaves the fetch alone, or the fetch and a value in its destination (R84, R85). -/
theorem exec_mov_next {s t : State} {dst : MoveDst} {src : MoveSrc} {d : WriteDst} (hd : dstComp s.cfg dst = some d)
    (h : exec (.mov dst src) s = .next t) :
    ∃ b, readMem s.mem s.pc = some b ∧ (t = s.fetched b ∨ ∃ v, t = movTarget s b v d) := by
  obtain ⟨b, hb, -, hform⟩ := completes_of_mov h
  refine ⟨b, hb, ?_⟩
  cases hform with
  | selfMove => exact .inl rfl
  | move hdst =>
    cases hd.symm.trans hdst
    exact .inr ⟨_, rfl⟩
  | alu _ hdest => cases hdest
  | openPoint hopen => cases hopen

/-! ## The statements -/

/-- Settles O25: PC to PC with the increment is the one self-transfer the bench refuses. -/
theorem selfTransferReadsNothing : Obligations.SelfTransferReadsNothing := by
  unfold Obligations.SelfTransferReadsNothing
  intro s w hbank hself
  constructor
  · intro hpce
    rw [benchCycle_selfTransfer hbank (by simp [hpce]) hself, incPC_off hpce]
  · intro hpce hdst
    rw [benchCycle_selfTransfer hbank (by simp [hdst]) hself, incPC_on hpce]

/-- Settles O16: the execute word is the move word between the two components. -/
theorem moveWordBytes : Obligations.MoveWordBytes := by
  unfold Obligations.MoveWordBytes
  intro cfg dst src d c hvalid hd hc
  exact ⟨moveWord d c, compile_mov hd hc, packBytes_moveWord_toNat hvalid d c⟩

/-- Settles O17: the literal of a component's code and the component's own form name the same component. -/
theorem literalEndpointsAreTheirComponents : Obligations.LiteralEndpointsAreTheirComponents := by
  unfold Obligations.LiteralEndpointsAreTheirComponents
  intro cfg dst src hvalid
  have hsrc {named : MoveSrc} (c : ReadSrc) (hnamed : srcComp cfg named = some c) :
      compile cfg (.mov dst (.lit (cfg.readCode c))) = compile cfg (.mov dst named) :=
    compile_mov_eq_of_srcComp (srcComp_lit_readCode hvalid c) hnamed dst
  have hdst {named : MoveDst} (d : WriteDst) (hnamed : dstComp cfg named = some d) :
      compile cfg (.mov (.lit (cfg.writeCode d)) src) = compile cfg (.mov named src) :=
    compile_mov_eq_of_dstComp (dstComp_lit_writeCode hvalid d) hnamed src
  exact ⟨fun r => ⟨hsrc (.reg r) rfl, hdst (.reg r) rfl⟩, hsrc .bank rfl, hsrc .acc rfl, hdst .bank rfl, hdst .out rfl⟩

/-- Settles O29: after the fetch the source drives and the destination latches. -/
theorem movCompletes : Obligations.MovCompletes := by
  unfold Obligations.MovCompletes
  intro s dst src d c op v hd hc hself hmem hop hv
  have hcycle : benchCycle (s.fetched op) (moveWord d c) = .ok (movTarget s op v d) := by
    rw [benchCycle_moveWord_fetched_eq hmem hself, hv]
    rfl
  rw [exec_eq_runInstr, runInstr_framed_one_of_ok (compile_mov hd hc) rfl hmem hop hcycle]
  rfl

/-- Settles O30: the move's word is a self-transfer. -/
theorem movSelfTransferCompletes : Obligations.MovSelfTransferCompletes := by
  unfold Obligations.MovSelfTransferCompletes
  intro s dst src d c op hd hc hself hmem hop
  have hcycle : benchCycle (s.fetched op) (moveWord d c) = .ok (s.fetched op) := benchCycle_selfTransfer rfl rfl hself
  rw [exec_eq_runInstr, runInstr_framed_one_of_ok (compile_mov hd hc) rfl hmem hop hcycle]
  rfl

/-- Settles O37: the read of the execute word is the fault. -/
theorem unwrittenMoveSourceFaults : Obligations.UnwrittenMoveSourceFaults := by
  unfold Obligations.UnwrittenMoveSourceFaults
  intro s dst src d c op hd hc hself hmem hop hv
  refine runInstr_framed_one_of_error (compile_mov hd hc) rfl hmem hop ?_
  rw [benchCycle_moveWord_fetched_eq hmem hself, hv]
  rfl

/-- Settles O42, by the two forms a completed move leaves. -/
theorem movFrame : Obligations.MovFrame := by
  unfold Obligations.MovFrame
  intro s t dst src d hd h
  obtain ⟨b, hb, rfl | ⟨v, rfl⟩⟩ := exec_mov_next hd h
  · refine ⟨fun _ _ => rfl, fun _ _ => rfl, fun _ a _ ha => ⟨(Option.some.inj ha).symm, fun _ _ => rfl⟩, fun _ => rfl,
      fun _ => rfl, fun _ => rfl, fun _ => hb, fun _ => rfl, rfl, rfl, .refl s⟩
  · obtain ⟨hfixed, hstep, hhalted⟩ := movTarget_fixed s b v d
    refine ⟨fun _ => movTarget_readReg_other s b v, fun hne x => by rw [movTarget_mem s b v hne], fun _ a _ ha => ?_,
      movTarget_bank s b v, movTarget_out s b v, movTarget_mar s b v, fun hne => by rw [hb, movTarget_ir s b v hne],
      movTarget_pc s b v, hhalted, hstep, hfixed⟩
    have hpc : a = s.pc := (Option.some.inj ha).symm
    exact ⟨hpc, fun x hx => movTarget_readMem_other s b v d (hpc ▸ hx)⟩

end Sys2Proof.Machine
end

section
/-! PROOFS. The jump family, nop and halt (43_control_flow.md R86 to R92): what their words do after the fetch, and the three forms
in which one of them completes. -/

namespace Sys2Proof.Machine

open Sys2Proof Sys2Proof.Claims

/-! ## The words after the fetch -/

/-- An instruction with a prologue, once its own opcode is fetched, is its execute words and the epilogue, two cycles counted
(R66, R114). -/
theorem runInstr_framed_fetched {i : Instr} {s : State} {ex : List ControlWord} {op : Byte}
    (hc : compile s.cfg i = .ok (framed ex)) (hmem : readMem s.mem s.pc = some op)
    (hop : op.toNat = opcode s.cfg i.variant) :
    runInstr i s = runWords s.pc (opcode s.cfg i.variant) 2 (ex ++ [epilogue]) (s.fetched op) := by
  simp only [runInstr, hc, runWords_framed, hmem, hop, if_true]

/-- J1 reads the byte that J0 has addressed, and only that read can fault (R87). -/
theorem benchCycle_jumpTarget (s : State) (a : Byte) :
    benchCycle (s.withMar a) (moveWord .pc .mem) = (need (.mem a) (readMem s.mem a)).map (s.withMar a).withPc := by
  have hread : drive (s.withMar a) (moveWord .pc .mem) = need (.mem a) (readMem s.mem a) := rfl
  rw [benchCycle_moveWord, hread]
  cases need (.mem a) (readMem s.mem a) with
  | error f => rfl
  | ok v => rfl

/-- After the fetch J0 cannot fault, so the jump's run is decided in its fourth cycle, J1 (R87). -/
theorem runInstr_jmp {s : State} {op : Byte} (imm : Byte) (hmem : readMem s.mem s.pc = some op)
    (hop : op.toNat = opcode s.cfg .jmp) :
    runInstr (.jmp imm) s
      = runWords s.pc (opcode s.cfg .jmp) 3 [moveWord .pc .mem, epilogue] ((s.fetched op).withMar (s.pc + 1)) := by
  have hc : compile s.cfg (.jmp imm) = .ok (framed (jmpWords imm)) := rfl
  have hfirst : benchCycle (s.fetched op) (moveWord .mar .pc) = .ok ((s.fetched op).withMar (s.pc + 1)) := rfl
  have hwords : jmpWords imm ++ [epilogue] = moveWord .mar .pc :: [moveWord .pc .mem, epilogue] := rfl
  rw [runInstr_framed_fetched hc hmem hop, hwords, runWords_cons (k := 0) rfl, hfirst]
  rfl

/-- The five cycles of a jump whose immediate byte is written (R87). -/
theorem runInstr_jmp_of_target {s : State} {op target : Byte} (imm : Byte) (hmem : readMem s.mem s.pc = some op)
    (hop : op.toNat = opcode s.cfg .jmp) (htarget : readMem s.mem (s.pc + 1) = some target) :
    runInstr (.jmp imm) s = ⟨((s.fetched op).withMar (s.pc + 1)).withPc target, 5, none⟩ := by
  have hread : readMem (s.fetched op).mem (s.pc + 1) = some target := htarget
  rw [runInstr_jmp imm hmem hop, runWords_cons (k := 1) rfl, benchCycle_jumpTarget, hread]
  exact runWords_epilogue _ _ 2 _

/-- The four cycles of a jump whose immediate byte was never written (R87, R119). -/
theorem runInstr_jmp_of_unwritten {s : State} {op : Byte} (imm : Byte) (hmem : readMem s.mem s.pc = some op)
    (hop : op.toNat = opcode s.cfg .jmp) (htarget : readMem s.mem (s.pc + 1) = none) :
    runInstr (.jmp imm) s
      = ⟨(s.fetched op).withMar (s.pc + 1), 4, some (.unwrittenRead (.mem (s.pc + 1)))⟩ := by
  have hread : readMem (s.fetched op).mem (s.pc + 1) = none := htarget
  rw [runInstr_jmp imm hmem hop, runWords_cons (k := 1) rfl, benchCycle_jumpTarget, hread]
  rfl

/-- Under LegacyEmpty jc, jz and nop are the fetch and the epilogue, three cycles (R88). -/
theorem runInstr_openPoint_legacy {i : Instr} {s : State} {op : Byte} (hi : isOpenPoint i.variant = true)
    (hu : s.cfg.unimpl = .legacyEmpty) (hmem : readMem s.mem s.pc = some op) (hop : op.toNat = opcode s.cfg i.variant) :
    runInstr i s = ⟨s.fetched op, 3, none⟩ := by
  rw [runInstr_framed_fetched (compile_openPoint_legacy hi hu) hmem hop]
  exact runWords_epilogue _ _ 0 _

/-- Under Fail jc, jz and nop stop before their first cycle: there are no words to run (R88, R114). -/
theorem runInstr_openPoint_fail {i : Instr} {s : State} (hi : isOpenPoint i.variant = true) (hu : s.cfg.unimpl = .fail) :
    runInstr i s = ⟨s, 0, some (.unimplemented i.variant)⟩ := by
  simp only [runInstr, compile_openPoint_fail hi hu, compileFault]

/-- Halt's single word stops with no transfer (R92, R114). -/
theorem runInstr_halt (s : State) : runInstr .halt s = ⟨s.withHalted, 1, none⟩ := rfl

/-! ## What a completed instruction of the family leaves -/

theorem isAlu_of_aluDest {i : Instr} {r : Reg} (h : aluDest i = some r) : isAlu i.variant = true := by
  cases i with
  | cmp | mov | jmp | jc | jz | nop | halt => cases h
  | _ => rfl

/-- `exec_next` outside the ALU family and mov: halt, a jump to the byte after its opcode, or the fetch alone (R87, R88, R92). -/
theorem exec_next_of_controlFlow {i : Instr} {s t : State} (halu : isAlu i.variant = false) (hmov : i.variant ≠ .mov)
    (h : exec i s = .next t) :
    (i = .halt ∧ t = s.withHalted)
      ∨ ∃ b, readMem s.mem s.pc = some b
        ∧ ((∃ imm v, i = .jmp imm ∧ t = ((s.fetched b).withMar (s.pc + 1)).withPc v)
          ∨ (isOpenPoint i.variant = true ∧ t = s.fetched b)) := by
  obtain hhalt | ⟨b, hb, -, hform⟩ := exec_next h
  · exact .inl hhalt
  · refine .inr ⟨b, hb, ?_⟩
    cases hform with
    | jump imm _ => exact .inl ⟨imm, _, rfl, rfl⟩
    | openPoint hopen _ => exact .inr ⟨hopen, rfl⟩
    | alu v hdest => simp [isAlu_of_aluDest hdest] at halu
    | cmp => cases halu
    | selfMove | move => exact absurd rfl hmov

/-! ## The statements -/

/-- Settles O31: the run of a jump whose immediate byte is written. -/
theorem jmpCompletes : Obligations.JmpCompletes := by
  unfold Obligations.JmpCompletes
  intro s imm target op hmem hop htarget
  rw [exec_eq_runInstr, runInstr_jmp_of_target imm hmem hop htarget]
  rfl

/-- Settles O32: there is no word between the prologue and the epilogue. -/
theorem openPointCompletesUnderLegacy : Obligations.OpenPointCompletesUnderLegacy := by
  unfold Obligations.OpenPointCompletesUnderLegacy
  intro i s op hi hu hmem hop
  rw [exec_eq_runInstr, runInstr_openPoint_legacy hi hu hmem hop]
  rfl

/-- Settles O38: J0 has moved MAR when J1's read faults. -/
theorem unwrittenJumpTargetFaults : Obligations.UnwrittenJumpTargetFaults := by
  unfold Obligations.UnwrittenJumpTargetFaults
  intro s imm op hmem hop htarget
  exact runInstr_jmp_of_unwritten imm hmem hop htarget

/-- Settles O43, by the three forms a completed instruction of the family leaves. -/
theorem controlFlowFrame : Obligations.ControlFlowFrame := by
  unfold Obligations.ControlFlowFrame
  intro i s t hi h
  have hfamily : isAlu i.variant = false ∧ i.variant ≠ .mov := by
    obtain hv | hv | hv | hv | hv := hi <;> simp [hv, isAlu]
  obtain ⟨rfl, rfl⟩ | ⟨b, hb, ⟨imm, v, rfl, rfl⟩ | ⟨hopen, rfl⟩⟩ := exec_next_of_controlFlow hfamily.1 hfamily.2 h
  · exact ⟨fun _ => rfl, fun _ => rfl, rfl, rfl, rfl, .refl s, fun _ => rfl, fun hne => absurd rfl hne, nofun, nofun⟩
  · exact ⟨fun _ => rfl, fun _ => rfl, rfl, rfl, rfl, .refl s, nofun, fun _ => ⟨rfl, hb⟩, fun _ => rfl, nofun⟩
  · have hnotHalt : i ≠ .halt := by
      rintro rfl
      cases hopen
    have hnotJump : i.variant ≠ .jmp := fun hv => by simp [hv, isOpenPoint] at hopen
    exact ⟨fun _ => rfl, fun _ => rfl, rfl, rfl, rfl, .refl s, fun hhalt => absurd hhalt hnotHalt, fun _ => ⟨rfl, hb⟩,
      fun hjump => absurd hjump hnotJump, fun _ => ⟨rfl, rfl⟩⟩

/-- Settles O33: compile gives the fault, and nothing runs. -/
theorem openPointFaultsUnderFail : Obligations.OpenPointFaultsUnderFail := by
  unfold Obligations.OpenPointFaultsUnderFail
  intro i s hi hu
  rw [exec_eq_runInstr, runInstr_openPoint_fail hi hu]
  exact ⟨rfl, rfl, rfl⟩

/-- Settles O34: halt's run is its one word. -/
theorem haltCompletes : Obligations.HaltCompletes := by
  unfold Obligations.HaltCompletes
  intro s
  rw [exec_eq_runInstr, runInstr_halt]
  exact ⟨rfl, rfl⟩

end Sys2Proof.Machine
end

section
/-! PROOFS. Opcode assignment (45_opcode_assignment.md R93 to R97): the two answers of `assign`, and `DECL` reordered. -/

namespace Sys2Proof.Machine

open Sys2Proof

/-! ## The two answers of `assign` -/

theorem assign_of_fits {cfg : Config} (h : cfg.decl.length ≤ 2 ^ cfg.opcodeBits) : assign cfg = .ok (opcode cfg) :=
  if_neg h.not_gt

theorem assign_of_exhausted {cfg : Config} (h : 2 ^ cfg.opcodeBits < cfg.decl.length) :
    assign cfg = .error (.opcodeSpaceExhausted cfg.decl.length cfg.opcodeBits) :=
  if_pos h

/-- A failed assignment ends the build before any row is compiled (R96, R106). -/
theorem build_of_assign_error {cfg : Config} {e : BuildError} (h : assign cfg = .error e) : build cfg = .error e := by
  simp only [build, h]

/-! ## Positions in DECL -/

/-- The variant that has the opcode stands at it: `opcode_eq_iff` at the opcode itself. -/
theorem getElem?_opcode {cfg : Config} (h : cfg.valid = true) (v : Variant) : cfg.decl[opcode cfg v]? = some v :=
  (opcode_eq_iff h).2 rfl

/-- A listed variant's opcode is the position of its entry (R93). -/
theorem opcode_of_getElem? {cfg : Config} (h : cfg.valid = true) {k : Nat} {v : Variant} (hk : cfg.decl[k]? = some v) :
    opcode cfg v = k :=
  ((opcode_eq_iff h).1 hk).symm

theorem opcode_lt_length {cfg : Config} (h : cfg.valid = true) (v : Variant) : opcode cfg v < cfg.decl.length :=
  List.idxOf_lt_length_of_mem ((Config.decl_of_valid h).2 v)

theorem opcode_injective {cfg : Config} (h : cfg.valid = true) : Function.Injective (opcode cfg) := by
  intro v w hvw
  have hv : cfg.decl[opcode cfg w]? = some v := (opcode_eq_iff h).2 hvw.symm
  exact Option.some.inj (hv.symm.trans (getElem?_opcode h w))

theorem exists_opcode_eq {cfg : Config} (h : cfg.valid = true) {k : Nat} (hk : k < cfg.decl.length) :
    ∃ v, opcode cfg v = k :=
  ⟨cfg.decl[k], opcode_of_getElem? h (List.getElem?_eq_getElem hk)⟩

/-! ## DECL reordered -/

/-- R8 constrains the set of `DECL`'s entries, not their order. -/
theorem valid_of_decl_perm {cfg : Config} (h : cfg.valid = true) {l : List Variant} (hl : l.Perm cfg.decl) :
    ({ cfg with decl := l } : Config).valid = true := by
  obtain ⟨hcodes, hregA, hregs, hneutral, hdecl, hbits, hsteps⟩ := cfg.valid_iff.1 h
  obtain ⟨hnodup, hmem⟩ := cfg.declComplete_iff.1 hdecl
  refine (Config.valid_iff _).2 ⟨hcodes, hregA, hregs, hneutral, (Config.declComplete_iff _).2 ⟨?_, ?_⟩, hbits, hsteps⟩
  · exact hl.nodup_iff.2 hnodup
  · exact fun v => hl.mem_iff.2 (hmem v)

theorem swap_perm {l : List Variant} {j k : Nat} {vj vk : Variant} (hj : l[j]? = some vj) (hk : l[k]? = some vk) :
    ((l.set j vk).set k vj).Perm l := by
  obtain ⟨hjlt, rfl⟩ := List.getElem?_eq_some_iff.1 hj
  obtain ⟨hklt, rfl⟩ := List.getElem?_eq_some_iff.1 hk
  exact List.set_set_perm hjlt hklt

/-! ## The statements -/

/-- Settles O10: the answer is `opcode`, of which `opcode_eq_iff` says that it inverts the look-up in `DECL`. -/
theorem opcodesAreDensePositions : Obligations.OpcodesAreDensePositions := by
  unfold Obligations.OpcodesAreDensePositions
  intro cfg hvalid hfits
  exact ⟨opcode cfg, assign_of_fits hfits, getElem?_opcode hvalid, opcode_injective hvalid, opcode_lt_length hvalid,
    fun _ hk => exists_opcode_eq hvalid hk⟩

/-- Settles O12: the swapped list is a permutation of `DECL`, so the swapped configuration is valid too and each opcode is read
off the entry at its position. -/
theorem swappedDeclarationsSwapOpcodes : Obligations.SwappedDeclarationsSwapOpcodes := by
  unfold Obligations.SwappedDeclarationsSwapOpcodes
  intro cfg j k vj vk hvalid hjk hj hk cfg'
  have hvalid' : cfg'.valid = true := valid_of_decl_perm hvalid (swap_perm hj hk)
  have hjlt : j < cfg.decl.length := (List.getElem?_eq_some_iff.1 hj).1
  have hklt : k < cfg.decl.length := (List.getElem?_eq_some_iff.1 hk).1
  refine ⟨opcode_of_getElem? hvalid' ?_, opcode_of_getElem? hvalid' ?_,
    fun v hvj hvk => opcode_of_getElem? hvalid' ?_⟩
  · show ((cfg.decl.set j vk).set k vj)[k]? = some vj
    rw [List.getElem?_set_self (by rwa [List.length_set])]
  · show ((cfg.decl.set j vk).set k vj)[j]? = some vk
    rw [List.getElem?_set_ne hjk.symm, List.getElem?_set_self hjlt]
  · show ((cfg.decl.set j vk).set k vj)[opcode cfg v]? = some v
    have hne {p : Nat} {w : Variant} (hp : cfg.decl[p]? = some w) (hvw : v ≠ w) : p ≠ opcode cfg v :=
      opcode_of_getElem? hvalid hp ▸ (opcode_injective hvalid).ne hvw.symm
    rw [List.getElem?_set_ne (hne hk hvk), List.getElem?_set_ne (hne hj hvj), getElem?_opcode hvalid]

/-- Settles O11: `assign` decides by the comparison of R96 alone, and `build` begins with `assign`. -/
theorem exhaustionIsFatal : Obligations.ExhaustionIsFatal := by
  unfold Obligations.ExhaustionIsFatal
  refine ⟨fun cfg h => ?_, fun cfg h => ⟨opcode cfg, assign_of_fits h⟩, ?_, ?_⟩
  · have hassign := assign_of_exhausted h
    exact ⟨hassign, build_of_assign_error hassign⟩
  · exact assign_of_exhausted (by decide)
  · decide

end Sys2Proof.Machine
end

section
/-! PROOFS. The ROM builder (46_rom_builder.md R99 to R106): the bytes of every cell of an image that builds, and, where
none does, the row that stops the build. -/

namespace Sys2Proof.Machine

open Sys2Proof Sys2Proof.Claims

/-! ## One row -/

theorem buildRow_length {cfg : Config} {op : Nat} {v : Variant} {row : List ControlWord}
    (h : buildRow cfg op v = .ok row) : row.length = cfg.steps := by
  obtain ⟨seq, -, hpad⟩ := buildRow_ok h
  obtain ⟨-, hlength, -⟩ := padRow_ok hpad
  exact hlength

theorem buildRow_of_compile_ok {cfg : Config} {op : Nat} {v : Variant} {seq : List ControlWord}
    (h : compile cfg (cfg.rowInstance v) = .ok seq) : buildRow cfg op v = padRow cfg op v seq := by
  simp only [buildRow, h]

theorem buildRow_of_compile_error {cfg : Config} {op : Nat} {v : Variant} {e : CompileError}
    (h : compile cfg (cfg.rowInstance v) = .error e) : buildRow cfg op v = .error (buildErrorOf op e) := by
  simp only [buildRow, h]

theorem rowInstance_wf {cfg : Config} (h : cfg.rowsWellFormed = true) (v : Variant) : (cfg.rowInstance v).wf cfg = true :=
  List.all_eq_true.1 h v v.mem_all

/-- What a row of a well-formed instance can be: an open point that does not compile under Fail, a sequence longer than the row,
or a row that builds (R88, R105, R106). -/
theorem buildRow_cases {cfg : Config} (h : cfg.rowsWellFormed = true) (op : Nat) (v : Variant) :
    (rowFailure cfg op v = some (.unimplemented v op) ∧ buildRow cfg op v = .error (.unimplemented v op))
      ∨ ∃ seq, compile cfg (cfg.rowInstance v) = .ok seq
        ∧ ((cfg.steps < seq.length ∧ rowFailure cfg op v = some (.sequenceTooLong v op seq.length cfg.steps)
              ∧ buildRow cfg op v = .error (.sequenceTooLong v op seq.length cfg.steps))
          ∨ (rowFailure cfg op v = none ∧ ∃ row, buildRow cfg op v = .ok row)) := by
  by_cases hopen : cfg.unimpl = .fail ∧ isOpenPoint v = true
  · obtain ⟨hfail, hv⟩ := hopen
    have hcompile : compile cfg (cfg.rowInstance v) = .error (.unimplemented v) := by
      have herror := compile_openPoint_fail (i := cfg.rowInstance v) (by rwa [rowInstance_variant]) hfail
      rwa [rowInstance_variant] at herror
    exact .inl ⟨if_pos ⟨hfail, hv⟩, buildRow_of_compile_error hcompile⟩
  · obtain ⟨seq, hcompile⟩ := compile_of_wf (rowInstance_wf h v) (by rwa [rowInstance_variant])
    have hlength : seq.length = sequenceLength v := by rw [compile_length hcompile, rowInstance_variant]
    rw [rowFailure, if_neg hopen, ← hlength, buildRow_of_compile_ok hcompile, padRow]
    refine .inr ⟨seq, hcompile, ?_⟩
    by_cases hlong : cfg.steps < seq.length
    · exact .inl ⟨hlong, if_pos hlong, if_pos hlong⟩
    · exact .inr ⟨if_neg hlong, _, if_neg hlong⟩

theorem buildRow_of_rowFailure {cfg : Config} (h : cfg.rowsWellFormed = true) {op : Nat} {v : Variant} {e : BuildError}
    (he : rowFailure cfg op v = some e) : buildRow cfg op v = .error e := by
  obtain ⟨hfailure, hrow⟩ | ⟨seq, -, ⟨-, hfailure, hrow⟩ | ⟨hfailure, -⟩⟩ := buildRow_cases h op v
  · rw [hrow, Option.some.inj (hfailure.symm.trans he)]
  · rw [hrow, Option.some.inj (hfailure.symm.trans he)]
  · rw [hfailure] at he
    cases he

theorem buildRow_of_no_rowFailure {cfg : Config} (h : cfg.rowsWellFormed = true) {op : Nat} {v : Variant}
    (hnone : rowFailure cfg op v = none) : ∃ row, buildRow cfg op v = .ok row := by
  obtain ⟨hfailure, -⟩ | ⟨seq, -, ⟨-, hfailure, -⟩ | ⟨-, hrow⟩⟩ := buildRow_cases h op v
  · rw [hfailure] at hnone
    cases hnone
  · rw [hfailure] at hnone
    cases hnone
  · exact hrow

/-! ## A list of rows -/

theorem buildRows_cons_ok_iff {cfg : Config} {op : Nat} {v : Variant} {vs : List Variant} {bytes : List Byte} :
    buildRows cfg op (v :: vs) = .ok bytes ↔ ∃ row rest, buildRow cfg op v = .ok row
      ∧ buildRows cfg (op + 1) vs = .ok rest ∧ bytes = packRow cfg row ++ rest := by
  rw [buildRows]
  cases buildRow cfg op v with
  | error e => simp
  | ok row =>
    cases buildRows cfg (op + 1) vs with
    | error e => simp
    | ok rest => simp [eq_comm]

theorem buildRows_of_rows {cfg : Config} {op : Nat} {vs : List Variant}
    (h : ∀ j u, vs[j]? = some u → ∃ row, buildRow cfg (op + j) u = .ok row) :
    ∃ bytes, buildRows cfg op vs = .ok bytes := by
  induction vs generalizing op with
  | nil => exact ⟨[], rfl⟩
  | cons v vs ih =>
    obtain ⟨row, hrow⟩ := h 0 v rfl
    obtain ⟨rest, hrest⟩ := ih (op := op + 1) fun j u hj => by
      rw [Nat.add_right_comm]
      exact h (j + 1) u hj
    exact ⟨_, buildRows_cons_ok_iff.2 ⟨row, rest, hrow, hrest, rfl⟩⟩

/-- The first row that fails gives the build its error (R99, R106). -/
theorem buildRows_of_first_error {cfg : Config} {op k : Nat} {vs : List Variant} {v : Variant} {e : BuildError}
    (hk : vs[k]? = some v) (he : buildRow cfg (op + k) v = .error e)
    (hbefore : ∀ j u, j < k → vs[j]? = some u → ∃ row, buildRow cfg (op + j) u = .ok row) :
    buildRows cfg op vs = .error e := by
  induction vs generalizing op k with
  | nil => cases hk
  | cons x vs ih =>
    cases k with
    | zero =>
      obtain rfl : x = v := Option.some.inj hk
      rw [Nat.add_zero] at he
      simp only [buildRows, he]
    | succ k =>
      obtain ⟨row, hrow⟩ := hbefore 0 x k.succ_pos rfl
      have hrest : buildRows cfg (op + 1) vs = .error e := by
        refine ih hk ?_ fun j u hj hu => ?_
        · rwa [Nat.add_right_comm]
        · rw [Nat.add_right_comm]
          exact hbefore (j + 1) u (Nat.succ_lt_succ hj) hu
      rw [Nat.add_zero] at hrow
      simp only [buildRows, hrow, hrest]

theorem buildRows_length {cfg : Config} {op : Nat} {vs : List Variant} {bytes : List Byte}
    (h : buildRows cfg op vs = .ok bytes) : bytes.length = vs.length * cfg.steps * 3 := by
  induction vs generalizing op bytes with
  | nil =>
    cases h
    simp
  | cons v vs ih =>
    obtain ⟨row, rest, hrow, hrest, rfl⟩ := buildRows_cons_ok_iff.1 h
    rw [List.length_append, packRow_length, buildRow_length hrow, ih hrest, List.length_cons]
    ring

/-- The bytes of a row stand `STEPS` cells after those of the row before it (R32, R99). -/
theorem buildRows_getElem? {cfg : Config} {op j : Nat} {vs : List Variant} {bytes : List Byte} {v : Variant}
    (h : buildRows cfg op vs = .ok bytes) (hj : vs[j]? = some v) :
    ∃ row, buildRow cfg (op + j) v = .ok row
      ∧ ∀ i, i < cfg.steps * 3 → bytes[j * (cfg.steps * 3) + i]? = (packRow cfg row)[i]? := by
  induction vs generalizing op j bytes with
  | nil => cases hj
  | cons x vs ih =>
    obtain ⟨row, rest, hrow, hrest, rfl⟩ := buildRows_cons_ok_iff.1 h
    have hlength : (packRow cfg row).length = cfg.steps * 3 := by rw [packRow_length, buildRow_length hrow]
    cases j with
    | zero =>
      obtain rfl : x = v := Option.some.inj hj
      refine ⟨row, hrow, fun i hi => ?_⟩
      rw [Nat.zero_mul, Nat.zero_add, List.getElem?_append_left (by rwa [hlength])]
    | succ j =>
      obtain ⟨row', hrow', hbytes⟩ := ih hrest hj
      rw [Nat.add_right_comm] at hrow'
      refine ⟨row', hrow', fun i hi => ?_⟩
      rw [Nat.succ_mul, Nat.add_right_comm, ← hlength, List.getElem?_append_right (Nat.le_add_left _ _),
        Nat.add_sub_cancel, hlength, hbytes i hi]

/-! ## The build -/

theorem build_of_fits {cfg : Config} (h : cfg.decl.length ≤ 2 ^ cfg.opcodeBits) : build cfg = buildRows cfg 0 cfg.decl := by
  simp only [build, assign_of_fits h]

theorem build_of_no_rowFailure {cfg : Config} (hwf : cfg.rowsWellFormed = true)
    (hfits : cfg.decl.length ≤ 2 ^ cfg.opcodeBits)
    (h : ∀ j u, cfg.decl[j]? = some u → rowFailure cfg j u = none) : ∃ image, build cfg = .ok image := by
  rw [build_of_fits hfits]
  refine buildRows_of_rows fun j u hj => ?_
  rw [Nat.zero_add]
  exact buildRow_of_no_rowFailure hwf (h j u hj)

/-- The failure of the lowest opcode that has one is the build's error (R106). -/
theorem build_of_first_rowFailure {cfg : Config} (hwf : cfg.rowsWellFormed = true)
    (hfits : cfg.decl.length ≤ 2 ^ cfg.opcodeBits) {op : Nat} {v : Variant} {e : BuildError} (hv : cfg.decl[op]? = some v)
    (he : rowFailure cfg op v = some e)
    (hbefore : ∀ j u, j < op → cfg.decl[j]? = some u → rowFailure cfg j u = none) : build cfg = .error e := by
  rw [build_of_fits hfits]
  refine buildRows_of_first_error hv ?_ fun j u hj hu => ?_
  · rw [Nat.zero_add]
    exact buildRow_of_rowFailure hwf he
  · rw [Nat.zero_add]
    exact buildRow_of_no_rowFailure hwf (hbefore j u hj hu)

/-- `build_of_first_rowFailure`, with its condition on the rows before as one that `decide` evaluates. -/
theorem build_of_first_rowFailure_bind {cfg : Config} (hwf : cfg.rowsWellFormed = true)
    (hfits : cfg.decl.length ≤ 2 ^ cfg.opcodeBits) {op : Nat} {v : Variant} {e : BuildError} (hv : cfg.decl[op]? = some v)
    (he : rowFailure cfg op v = some e) (hbefore : ∀ j < op, cfg.decl[j]?.bind (rowFailure cfg j) = none) :
    build cfg = .error e :=
  build_of_first_rowFailure hwf hfits hv he fun j u hj => Option.bind_eq_none_iff.1 (hbefore j hj) u

/-- Where some opcode fails, there is a lowest one that does. -/
theorem exists_first_rowFailure {cfg : Config} {op : Nat} {v : Variant} {e : BuildError} (hv : cfg.decl[op]? = some v)
    (he : rowFailure cfg op v = some e) :
    ∃ op' v' e', cfg.decl[op']? = some v' ∧ rowFailure cfg op' v' = some e'
      ∧ ∀ j u, j < op' → cfg.decl[j]? = some u → rowFailure cfg j u = none := by
  induction op using Nat.strong_induction_on generalizing v e with
  | _ op ih =>
    by_cases hfirst : ∀ j u, j < op → cfg.decl[j]? = some u → rowFailure cfg j u = none
    · exact ⟨op, v, e, hv, he, hfirst⟩
    · push Not at hfirst
      obtain ⟨j, u, hj, hu, hfailure⟩ := hfirst
      obtain ⟨e', he'⟩ := Option.ne_none_iff_exists'.1 hfailure
      exact ih j hj hu he'

/-- No sequence is longer than five words, so under LegacyEmpty five steps are enough for every row (R69, R105). -/
theorem rowFailure_eq_none {cfg : Config} (hlegacy : cfg.unimpl = .legacyEmpty) (hsteps : 5 ≤ cfg.steps) (op : Nat)
    (v : Variant) : rowFailure cfg op v = none := by
  have hfits : ¬cfg.steps < sequenceLength v := ((sequenceLength_le_five v).trans hsteps).not_gt
  simp [rowFailure, hlegacy, hfits]

theorem build_legacyEmpty_of_five_le {cfg : Config} (hwf : cfg.rowsWellFormed = true) (hlegacy : cfg.unimpl = .legacyEmpty)
    (hfits : cfg.decl.length ≤ 2 ^ cfg.opcodeBits) (hsteps : 5 ≤ cfg.steps) : ∃ image, build cfg = .ok image :=
  build_of_no_rowFailure hwf hfits fun j u _ => rowFailure_eq_none hlegacy hsteps j u

/-! ## The cells of an image -/

theorem build_length {cfg : Config} {image : List Byte} (h : build cfg = .ok image) :
    image.length = cfg.decl.length * cfg.steps * 3 :=
  buildRows_length (build_ok h).left

/-- Every cell of an image holds the bytes of its row's word (R100). -/
theorem build_cell {cfg : Config} {image : List Byte} (h : build cfg = .ok image) {op : Nat} {v : Variant}
    (hv : cfg.decl[op]? = some v) :
    ∃ seq, compile cfg (cfg.rowInstance v) = .ok seq ∧ ∀ s, s < cfg.steps → ∀ k, k < 3 →
      image[(op * cfg.steps + s) * 3 + k]? = (packBytes cfg (rowWord cfg seq s))[k]? := by
  obtain ⟨hrows, -⟩ := build_ok h
  obtain ⟨row, hrow, hbytes⟩ := buildRows_getElem? hrows hv
  obtain ⟨seq, hcompile, hpad⟩ := buildRow_ok hrow
  obtain ⟨-, -, hword⟩ := padRow_ok hpad
  refine ⟨seq, hcompile, fun s hs k hk => ?_⟩
  calc image[(op * cfg.steps + s) * 3 + k]?
    _ = image[op * (cfg.steps * 3) + (s * 3 + k)]? := by rw [Nat.add_mul, Nat.mul_assoc, Nat.add_assoc]
    _ = (packRow cfg row)[s * 3 + k]? := hbytes (s * 3 + k) (by omega)
    _ = (packBytes cfg (rowWord cfg seq s))[k]? := packRow_getElem? cfg hk (hword s hs)

/-- A cell that holds a word's bytes unpacks to the word (R52, R53). -/
theorem unpackCell_of_bytes {cfg : Config} (h : cfg.valid = true) {rom : List Byte} {op s : Nat} {w : ControlWord}
    (hbytes : ∀ k, k < 3 → rom[romOffset cfg op s k]? = (packBytes cfg w)[k]?) : unpackCell cfg rom op s = .ok w := by
  obtain ⟨b0, b1, b2, hpack, hunpack⟩ := (packUnpackRoundTrip cfg h).left w
  rw [hpack] at hbytes
  have h0 : rom[romOffset cfg op s 0]? = some b0 := hbytes 0 (by decide)
  have h1 : rom[romOffset cfg op s 1]? = some b1 := hbytes 1 (by decide)
  have h2 : rom[romOffset cfg op s 2]? = some b2 := hbytes 2 (by decide)
  simp only [unpackCell, h0, h1, h2, hunpack]

/-! ## The statements -/

/-- Settles O18: the length and the cells of a list of rows, and the round trip of packing for each cell. -/
theorem builtImageCells : Obligations.BuiltImageCells := by
  unfold Obligations.BuiltImageCells
  constructor
  · intro cfg image hvalid hbuild
    refine ⟨build_length hbuild, fun op v hv => ?_⟩
    obtain ⟨seq, hcompile, hbytes⟩ := build_cell hbuild hv
    exact ⟨seq, hcompile, fun s hs => ⟨hbytes s hs, unpackCell_of_bytes hvalid (hbytes s hs)⟩⟩
  · obtain ⟨image, hbuild⟩ := build_legacyEmpty_of_five_le (cfg := Config.legacy) (by decide) rfl (by decide) (by decide)
    exact ⟨image, hbuild, build_length hbuild⟩

/-- Settles O19: with fewer than five steps jmp's row fails, so some row is the first to fail, and under LegacyEmpty its error
can only be SequenceTooLong. -/
theorem shortRowsFailTheBuild : Obligations.ShortRowsFailTheBuild := by
  unfold Obligations.ShortRowsFailTheBuild
  intro cfg hvalid hwf hlegacy hfits
  refine ⟨build_legacyEmpty_of_five_le hwf hlegacy hfits, fun hshort => ?_⟩
  have hjmp : rowFailure cfg (opcode cfg .jmp) .jmp = some (.sequenceTooLong .jmp (opcode cfg .jmp) 5 cfg.steps) := by
    simp [rowFailure, isOpenPoint, sequenceLength, hshort]
  obtain ⟨op, v, e, hv, he, hbefore⟩ := exists_first_rowFailure (getElem?_opcode hvalid .jmp) hjmp
  have hbuild : build cfg = .error e := build_of_first_rowFailure hwf hfits hv he hbefore
  obtain ⟨hopen, -⟩ | ⟨seq, hcompile, ⟨hlong, hfailure, -⟩ | ⟨hfailure, -⟩⟩ := buildRow_cases hwf op v
  · simp [rowFailure, hlegacy] at hopen
  · obtain rfl := Option.some.inj (hfailure.symm.trans he)
    exact ⟨v, op, seq, hv, hcompile, hlong, hbuild⟩
  · rw [hfailure] at he
    cases he

/-- Settles O20: `assign` comes first, then the rows in opcode order; the reference cases are checked row by row. -/
theorem buildReportsFirstError : Obligations.BuildReportsFirstError := by
  unfold Obligations.BuildReportsFirstError
  refine ⟨fun cfg _ hwf => ⟨fun hmany => build_of_assign_error (assign_of_exhausted hmany),
    fun hfits => ⟨fun op v e => build_of_first_rowFailure hwf hfits, build_of_no_rowFailure hwf hfits⟩⟩, ?_, ?_, ?_⟩
  · exact build_of_first_rowFailure_bind (v := .jc) (by decide) (by decide) rfl rfl (by decide)
  · exact build_of_first_rowFailure_bind (v := .jmp) (by decide) (by decide) rfl rfl (by decide)
  · exact build_of_first_rowFailure_bind (v := .jmp) (by decide) (by decide) rfl rfl (by decide)

end Sys2Proof.Machine
end

section
/-! PROOFS. The bench ALU (48_sequencer_reference.md R111): its arms as numbers and as bits, and the combinations it refuses. -/

namespace Sys2Proof.Machine

open Sys2Proof Sys2Proof.Claims

theorem logicFn_getLsbD (f : AluLogic) (l r : Byte) {k : Nat} (hk : k < 8) :
    (logicFn f l r).getLsbD k = logicBit f (l.getLsbD k) (r.getLsbD k) := by
  cases f with
  | ones => exact (BitVec.getLsbD_allOnes (v := 8)).trans (decide_eq_true hk)
  | xnor =>
    simp only [logicFn, logicBit, BitVec.getLsbD_not, BitVec.getLsbD_xor, hk, decide_true, Bool.true_and]
    cases l.getLsbD k <;> simp
  | _ => simp [logicFn, logicBit, hk]

/-- Without shift and subtraction the ALU is the logic function (R111). -/
theorem aluFn_noShift (f : AluLogic) (l r : Byte) : aluFn f .noShift false l r = .ok (logicFn f l r) := by
  cases f <;> rfl

/-- Outside its modelled arms the ALU refuses (R111). -/
theorem aluFn_unmodelled {f : AluLogic} {shift : AluShift} {subtract : Bool} (l r : Byte)
    (hadder : ¬(f = .b ∧ shift = .passThrough)) (hlogic : ¬(shift = .noShift ∧ subtract = false))
    (hshift : ¬(f = .zero ∧ (shift = .shiftLeft ∨ shift = .shiftRight) ∧ subtract = false)) :
    aluFn f shift subtract l r = .error (.aluUnmodelled f shift subtract) := by
  unfold aluFn
  split
  · exact absurd ⟨rfl, rfl⟩ hadder
  · exact absurd ⟨rfl, rfl⟩ hadder
  · exact absurd ⟨rfl, rfl⟩ hlogic
  · exact absurd ⟨rfl, .inl rfl, rfl⟩ hshift
  · exact absurd ⟨rfl, .inr rfl, rfl⟩ hshift
  · rfl

/-! ## The statement -/

/-- Settles O23, arm by arm. -/
theorem aluComputesTheTable : Obligations.AluComputesTheTable := by
  unfold Obligations.AluComputesTheTable
  intro w l r
  simp only [benchAlu]
  refine ⟨fun hb hpass => ?_, fun hnone hsub => ?_, fun hzero hleft hsub => ?_, fun hzero hright hsub => ?_,
    fun hadder hlogic hshift => aluFn_unmodelled l r hadder hlogic hshift⟩
  · rw [hb, hpass]
    cases w.aluSubtract with
    | false => exact ⟨l + r, rfl, BitVec.toNat_add l r⟩
    | true =>
      refine ⟨l - r, rfl, ?_⟩
      rw [BitVec.toNat_sub, if_pos rfl]
      omega
  · rw [hnone, hsub, aluFn_noShift]
    exact ⟨_, rfl, fun k hk => logicFn_getLsbD w.aluLogic l r hk⟩
  · rw [hzero, hleft, hsub]
    exact ⟨l <<< 1, rfl, by rw [shiftLeft_one_eq_ofNat, BitVec.toNat_ofNat]⟩
  · rw [hzero, hright, hsub]
    exact ⟨l >>> 1, rfl, by rw [BitVec.toNat_ushiftRight, Nat.shiftRight_eq_div_pow, Nat.pow_one]⟩

end Sys2Proof.Machine
end

section
/-! PROOFS. How an instruction of M2 can end (48_sequencer_reference.md R110, R111, R114): which faults a compiled word can raise on
the bench, and which the fetch can. -/

namespace Sys2Proof.Machine

open Sys2Proof Sys2Proof.Claims

/-! ## The execute words -/

/-- The words that can stand between the prologue and the epilogue of `i` (R72, R78, R81): an ALU word under selectors the bench
models, cmp's word, or a move word, which writes IR only as the destination of a mov. -/
inductive ExecuteWord (cfg : Config) (i : Instr) : ControlWord → Prop where
  | alu (r1 r2 : Reg) {logic : AluLogic} {shift : AluShift} {subtract : Bool} {f : Byte → Byte → Byte}
      (halu : ∀ a b, aluFn logic shift subtract a b = .ok (f a b)) : ExecuteWord cfg i (aluWord r1 r2 logic shift subtract)
  | compare (r1 r2 : Reg) {w : ControlWord} (hw : w ∈ cmpWords r1 r2) : ExecuteWord cfg i w
  | move (d : WriteDst) (c : ReadSrc) (hir : d = .ir → ∃ dst src, i = .mov dst src ∧ dstComp cfg dst = some .ir) :
      ExecuteWord cfg i (moveWord d c)

theorem executeWords_of_latchesAlu {cfg : Config} {i : Instr} {r1 r2 : Reg} {f : Byte → Byte → Byte}
    {seq : List ControlWord} (h : LatchesAlu i r1 r2 f) (hc : compile cfg i = .ok seq) :
    ∃ ex, seq = framed ex ∧ ∀ w ∈ ex, ExecuteWord cfg i w := by
  obtain ⟨logic, shift, subtract, hword, halu⟩ := h
  exact ⟨_, Except.ok.inj (hc.symm.trans (hword cfg)), List.forall_mem_singleton.2 (.alu r1 r2 halu)⟩

theorem executeWords_of_openPoint {cfg : Config} {i : Instr} {seq : List ControlWord} (hi : isOpenPoint i.variant = true)
    (hc : compile cfg i = .ok seq) : ∃ ex, seq = framed ex ∧ ∀ w ∈ ex, ExecuteWord cfg i w := by
  cases hu : cfg.unimpl with
  | fail =>
    rw [compile_openPoint_fail hi hu] at hc
    cases hc
  | legacyEmpty => exact ⟨[], Except.ok.inj (hc.symm.trans (compile_openPoint_legacy hi hu)), List.forall_mem_nil _⟩

theorem executeWords_of_mov {cfg : Config} {dst : MoveDst} {src : MoveSrc} {seq : List ControlWord}
    (hc : compile cfg (.mov dst src) = .ok seq) : ∃ ex, seq = framed ex ∧ ∀ w ∈ ex, ExecuteWord cfg (.mov dst src) w := by
  cases hm : movWords cfg dst src with
  | error e => simp [compile, framedOr, hm] at hc
  | ok ex =>
    obtain ⟨d, c, hd, hsrc, rfl⟩ := movWords_ok hm
    refine ⟨_, Except.ok.inj (hc.symm.trans (compile_mov hd hsrc)), List.forall_mem_singleton.2 (.move d c ?_)⟩
    rintro rfl
    exact ⟨dst, src, rfl, hd⟩

/-- Between the prologue and the epilogue of a sequence stand execute words alone (R66). -/
theorem compile_executeWords {cfg : Config} {i : Instr} {seq : List ControlWord} (hc : compile cfg i = .ok seq)
    (hi : i ≠ .halt) : ∃ ex, seq = framed ex ∧ ∀ w ∈ ex, ExecuteWord cfg i w := by
  cases i with
  | add | sub | and | or | xor => exact executeWords_of_latchesAlu (latchesAlu_of_twoOperandResult rfl) hc
  | shl r => exact executeWords_of_latchesAlu (latchesAlu_shl r) hc
  | shr r => exact executeWords_of_latchesAlu (latchesAlu_shr r) hc
  | cmp r1 r2 => exact ⟨cmpWords r1 r2, (Except.ok.inj hc).symm, fun w hw => .compare r1 r2 hw⟩
  | mov dst src => exact executeWords_of_mov hc
  | jmp imm =>
    refine ⟨jmpWords imm, (Except.ok.inj hc).symm, List.forall_mem_cons.2 ⟨.move .mar .pc nofun, ?_⟩⟩
    exact List.forall_mem_singleton.2 (.move .pc .mem nofun)
  | jc | jz | nop => exact executeWords_of_openPoint rfl hc
  | halt => exact absurd rfl hi

theorem ExecuteWord.mid {cfg : Config} {i : Instr} {w : ControlWord} (h : ExecuteWord cfg i w) : MidWord w := by
  cases h with
  | alu => exact ⟨rfl, rfl, rfl⟩
  | compare r1 r2 hw =>
    obtain rfl := List.mem_singleton.1 hw
    exact ⟨rfl, rfl, rfl⟩
  | move d c => exact moveWord_mid d c

/-! ## The faults of a compiled word -/

/-- The bench models the word (R110, R111): no bank select, no increment over a write of the PC, and, where ACC drives, selectors
that the ALU computes. -/
structure BenchModelled (w : ControlWord) : Prop where
  bankSelectEnable : w.bankSelectEnable = false
  pcWrite : (w.programCounterEnable && w.writeTo == .pc) = false
  alu : w.readFrom = .acc → ∀ a b, ∃ v, benchAlu w a b = .ok v

theorem benchModelled_of_readFrom_ne_acc {w : ControlWord} (hbank : w.bankSelectEnable = false)
    (hpc : (w.programCounterEnable && w.writeTo == .pc) = false) (hacc : w.readFrom ≠ .acc) : BenchModelled w :=
  ⟨hbank, hpc, fun h => absurd h hacc⟩

theorem ExecuteWord.modelled {cfg : Config} {i : Instr} {w : ControlWord} (h : ExecuteWord cfg i w) : BenchModelled w := by
  cases h with
  | alu r1 r2 halu => exact ⟨rfl, rfl, fun _ a b => ⟨_, halu a b⟩⟩
  | compare r1 r2 hw =>
    obtain rfl := List.mem_singleton.1 hw
    exact benchModelled_of_readFrom_ne_acc rfl rfl nofun
  | move d c => exact ⟨rfl, rfl, fun _ a b => ⟨_, aluFn_noShift .and a b⟩⟩

theorem neutral_modelled : BenchModelled ControlWord.neutral := benchModelled_of_readFrom_ne_acc rfl rfl nofun

/-- No compiled word is one the bench refuses, halt's included. -/
theorem compile_modelled {cfg : Config} {i : Instr} {seq : List ControlWord} (hc : compile cfg i = .ok seq) :
    ∀ w ∈ seq, BenchModelled w := by
  by_cases hi : i = .halt
  · subst hi
    cases hc
    exact List.forall_mem_singleton.2 (benchModelled_of_readFrom_ne_acc rfl rfl nofun)
  · obtain ⟨ex, rfl, hex⟩ := compile_executeWords hc hi
    intro w hw
    rw [framed_eq_concat, List.mem_append, List.mem_cons, List.mem_cons, List.mem_singleton] at hw
    obtain (rfl | rfl | hmem) | rfl := hw
    · exact benchModelled_of_readFrom_ne_acc rfl rfl nofun
    · exact benchModelled_of_readFrom_ne_acc rfl rfl nofun
    · exact (hex w hmem).modelled
    · exact benchModelled_of_readFrom_ne_acc rfl rfl nofun

theorem need_error {c : Storage} {o : Option Byte} {f : Fault} (h : need c o = .error f) : f = .unwrittenRead c := by
  cases o with
  | none =>
    cases h
    rfl
  | some b => cases h

theorem driveMem_error {s : State} {f : Fault} (h : driveMem s = .error f) : ∃ c, f = .unwrittenRead c := by
  unfold driveMem at h
  split at h
  · next hmar =>
    cases h
    exact ⟨_, need_error hmar⟩
  · exact ⟨_, need_error h⟩

/-- Under selectors that the ALU computes, ACC faults only on an unwritten input (R110). -/
theorem driveAcc_error {s : State} {w : ControlWord} {f : Fault} (halu : ∀ a b, ∃ v, benchAlu w a b = .ok v)
    (h : driveAcc s w = .error f) : ∃ c, f = .unwrittenRead c := by
  unfold driveAcc at h
  split at h
  · next hleft =>
    cases h
    exact ⟨_, need_error hleft⟩
  · next a _ =>
    split at h
    · next hright =>
      cases h
      exact ⟨_, need_error hright⟩
    · next b _ =>
      obtain ⟨v, hv⟩ := halu a b
      rw [hv] at h
      cases h

theorem drive_error {s : State} {w : ControlWord} {f : Fault} (hw : BenchModelled w) (h : drive s w = .error f) :
    ∃ c, f = .unwrittenRead c := by
  unfold drive at h
  split at h
  · exact ⟨_, need_error h⟩
  · cases h
  · exact driveMem_error h
  · next hacc => exact driveAcc_error (hw.alu hacc) h
  · exact ⟨_, need_error h⟩

theorem latch_error {s : State} {d : WriteDst} {v : Byte} {f : Fault} (h : latch s d v = .error f) :
    ∃ c, f = .unwrittenRead c := by
  cases d with
  | mem =>
    simp only [latch, latchMem] at h
    split at h
    · next hmar =>
      cases h
      exact ⟨_, need_error hmar⟩
    · cases h
  | _ => cases h

/-- A word that the bench models faults only on an unwritten read (R110, R118). -/
theorem benchCycle_error {s : State} {w : ControlWord} {f : Fault} (hw : BenchModelled w)
    (h : benchCycle s w = .error f) : ∃ c, f = .unwrittenRead c := by
  unfold benchCycle at h
  rw [hw.bankSelectEnable, hw.pcWrite, if_neg Bool.false_ne_true, if_neg Bool.false_ne_true] at h
  split at h
  · cases h
  · split at h
    · next hdrive =>
      cases h
      exact drive_error hw hdrive
    · split at h
      · next hlatch =>
        cases h
        exact latch_error hlatch
      · cases h

/-! ## The faults of a sequence -/

/-- Modelled words end a run of M2 with no fault, on an unwritten read, or on a byte that is not the opcode (R114). -/
theorem runWords_fault {ws : List ControlWord} (hws : ∀ w ∈ ws, BenchModelled w) (p : Byte) (op k : Nat) (s : State) :
    (runWords p op k ws s).fault = none ∨ (∃ c, (runWords p op k ws s).fault = some (.unwrittenRead c))
      ∨ ∃ b, (runWords p op k ws s).fault = some (.programMismatch p b) := by
  induction ws generalizing k s with
  | nil => exact .inl rfl
  | cons w ws ih =>
    obtain ⟨hw, hrest⟩ := List.forall_mem_cons.1 hws
    unfold runWords
    split
    · exact .inl rfl
    · split
      · next hcycle =>
        obtain ⟨c, rfl⟩ := benchCycle_error hw hcycle
        exact .inr (.inl ⟨c, rfl⟩)
      · next s' _ =>
        split
        · exact .inr (.inr ⟨s'.ir, rfl⟩)
        · exact ih hrest (k + 1) s'

theorem runInstr_of_unwritten_fetch {i : Instr} {s : State} {seq : List ControlWord} (hc : compile s.cfg i = .ok seq)
    (hi : i ≠ .halt) (hmem : readMem s.mem s.pc = none) :
    runInstr i s = ⟨s.withMar s.pc, 2, some (.unwrittenRead (.mem s.pc))⟩ := by
  obtain ⟨ex, rfl⟩ := compile_framed hc hi
  simp only [runInstr, hc, runWords_framed, hmem]

/-- A fetched byte that is another opcode leaves the state of the fetch (R114). -/
theorem runInstr_of_mismatch {i : Instr} {s : State} {seq : List ControlWord} {b : Byte} (hc : compile s.cfg i = .ok seq)
    (hi : i ≠ .halt) (hmem : readMem s.mem s.pc = some b) (hop : b.toNat ≠ opcode s.cfg i.variant) :
    runInstr i s = ⟨s.fetched b, 2, some (.programMismatch s.pc b)⟩ := by
  obtain ⟨ex, rfl⟩ := compile_framed hc hi
  simp only [runInstr, hc, runWords_framed, hmem, if_neg hop]

/-! ## The statements -/

/-- Settles O35, by the prologue that every sequence but halt's begins with. -/
theorem fetchFaults : Obligations.FetchFaults := by
  unfold Obligations.FetchFaults
  intro i s seq hc hi
  rw [exec_eq_runInstr, runOutcome_fault]
  refine ⟨fun hmem => ?_, fun b hmem hop => ?_⟩
  · rw [runInstr_of_unwritten_fetch hc hi hmem]
    exact ⟨rfl, rfl⟩
  · rw [runOutcome_fault, runInstr_of_mismatch hc hi hmem hop]
    exact ⟨rfl, rfl⟩

/-- Settles O40: a well-formed value that does not compile is an open point under Fail, and the words of one that does are
modelled. -/
theorem wellFormedInstructionFaults : Obligations.WellFormedInstructionFaults := by
  unfold Obligations.WellFormedInstructionFaults
  intro i s hwf
  by_cases hopen : s.cfg.unimpl = .fail ∧ isOpenPoint i.variant = true
  · obtain ⟨hfail, hi⟩ := hopen
    exact .inr (.inr (.inr ⟨hfail, hi, exec_of_compile_error (compile_openPoint_fail hi hfail)⟩))
  · obtain ⟨seq, hc⟩ := compile_of_wf hwf hopen
    have hexec : exec i s = runOutcome (runWords s.pc (opcode s.cfg i.variant) 0 seq s) := by
      rw [exec_eq_runInstr, runInstr, hc]
    simp only [hexec, runOutcome_next, runOutcome_fault]
    obtain hnone | hunwritten | hmismatch := runWords_fault (compile_modelled hc) s.pc (opcode s.cfg i.variant) 0 s
    · exact .inl ⟨_, hnone, rfl⟩
    · exact .inr (.inl hunwritten)
    · exact .inr (.inr (.inl hmismatch))

end Sys2Proof.Machine
end

section
/-! PROOFS. The bench apart from the machine that drives it (48_sequencer_reference.md R110, R114): cycles read and write the bench
state alone, so they do the same in every machine that holds it; and what a step of M2 is. -/

namespace Sys2Proof.Machine

open Sys2Proof

/-- The machine `h` with the bench state, IR and HALTED of `s` (R26, R27). -/
def State.benchInto (s h : State) : State :=
  { h with
    regs := s.regs, pc := s.pc, mar := s.mar, bank := s.bank, mem := s.mem, out := s.out, ir := s.ir, halted := s.halted }

section

variable (s h : State)

@[simp] theorem benchInto_cfg : (s.benchInto h).cfg = h.cfg := rfl
@[simp] theorem benchInto_ir : (s.benchInto h).ir = s.ir := rfl

theorem sameBench_benchInto : sameBench s (s.benchInto h) := ⟨rfl, rfl, rfl, rfl, rfl, rfl, rfl⟩

theorem withStep_eq_benchInto (n : Nat) : s.withStep n = s.benchInto (s.withStep n) := rfl

end

/-- A machine that holds the bench state and HALTED of `s` already is itself. -/
theorem benchInto_of_sameBench {s h : State} (hbench : sameBench s h) (hhalted : s.halted = h.halted) : s.benchInto h = h := by
  obtain ⟨hregs, hpc, hmar, hbank, hmem, hout, hir⟩ := hbench
  cases h
  simp only [State.benchInto, hregs, hpc, hmar, hbank, hmem, hout, hir, hhalted]

/-! ## Cycles and sequences in another machine -/

theorem drive_benchInto (s h : State) (w : ControlWord) : drive (s.benchInto h) w = drive s w := rfl

theorem latch_benchInto (s h : State) (d : WriteDst) (v : Byte) :
    latch (s.benchInto h) d v = (latch s d v).map fun t => t.benchInto h := by
  cases d with
  | mem =>
    have hmar : (s.benchInto h).mar = s.mar := rfl
    simp only [latch, latchMem, hmar]
    cases s.mar with
    | none => rfl
    | some a => rfl
  | _ => rfl

theorem incPC_benchInto (s h : State) (w : ControlWord) : incPC (s.benchInto h) w = (incPC s w).benchInto h := by
  cases hw : w.programCounterEnable with
  | true =>
    rw [incPC_on hw, incPC_on hw]
    rfl
  | false => rw [incPC_off hw, incPC_off hw]

/-- A cycle reads and writes the bench state alone (R110). -/
theorem benchCycle_benchInto (s h : State) (w : ControlWord) :
    benchCycle (s.benchInto h) w = (benchCycle s w).map fun t => t.benchInto h := by
  unfold benchCycle
  split
  · rfl
  · split
    · rfl
    · split
      · rw [incPC_benchInto]
        rfl
      · rw [drive_benchInto]
        cases drive s w with
        | error f => rfl
        | ok v =>
          simp only [latch_benchInto]
          cases latch s w.writeTo v with
          | error f => rfl
          | ok t => simp only [Except.map, incPC_benchInto]

/-- No cycle reads or writes STEP (R110). -/
theorem benchCycle_withStep (s : State) (n : Nat) (w : ControlWord) :
    benchCycle (s.withStep n) w = (benchCycle s w).map fun t => t.withStep n := by
  rw [withStep_eq_benchInto, benchCycle_benchInto]
  cases hcycle : benchCycle s w with
  | error f => rfl
  | ok t =>
    obtain ⟨⟨hcfg, hrom, hloaded, hprog, hdrive⟩, -, -⟩ := benchCycle_fixed hcycle
    simp only [Except.map, State.benchInto, State.withStep, hcfg, hrom, hloaded, hprog, hdrive]

/-- The words of a sequence run in every machine alike (R114). -/
theorem runWords_benchInto (p : Byte) (op k : Nat) (ws : List ControlWord) (s h : State) :
    runWords p op k ws (s.benchInto h)
      = ⟨(runWords p op k ws s).state.benchInto h, (runWords p op k ws s).cycles, (runWords p op k ws s).fault⟩ := by
  induction ws generalizing k s with
  | nil => rfl
  | cons w ws ih =>
    simp only [runWords, benchCycle_benchInto]
    split
    · rfl
    · cases benchCycle s w with
      | error f => rfl
      | ok t =>
        simp only [Except.map, benchInto_ir]
        by_cases hop : k = 1 ∧ t.ir.toNat ≠ op
        · simp only [if_pos hop]
          exact if_pos hop
        · simp only [if_neg hop]
          exact (if_neg hop).trans (ih (k + 1) t)

/-- An instruction runs alike in every machine with the same configuration (R114). -/
theorem runInstr_benchInto (i : Instr) {s h : State} (hcfg : h.cfg = s.cfg) :
    runInstr i (s.benchInto h)
      = ⟨(runInstr i s).state.benchInto h, (runInstr i s).cycles, (runInstr i s).fault⟩ := by
  simp only [runInstr, benchInto_cfg, hcfg]
  cases compile s.cfg i with
  | error e => rfl
  | ok words => exact runWords_benchInto s.pc _ 0 words s h

theorem exec_benchInto_next {i : Instr} {s h t : State} (hcfg : h.cfg = s.cfg) :
    exec i (s.benchInto h) = .next t ↔ ∃ u, exec i s = .next u ∧ t = u.benchInto h := by
  simp only [exec_eq_runInstr, runInstr_benchInto i hcfg, runOutcome_next]
  constructor
  · rintro ⟨hfault, rfl⟩
    exact ⟨_, ⟨hfault, rfl⟩, rfl⟩
  · rintro ⟨u, ⟨hfault, rfl⟩, rfl⟩
    exact ⟨hfault, rfl⟩

theorem exec_benchInto_fault {i : Instr} {s h : State} {f : Fault} (hcfg : h.cfg = s.cfg) :
    exec i (s.benchInto h) = .fault f ↔ exec i s = .fault f := by
  simp only [exec_eq_runInstr, runInstr_benchInto i hcfg, runOutcome_fault]

/-! ## A step of M2 -/

/-- A running M2 executes the program's value at PC (R114). -/
theorem step_of_programAt {s : State} {i : Instr} (hdrive : s.drive = .sequence) (hrunning : s.halted = false)
    (hi : programAt s.prog s.pc.toNat = some i) : step s = exec i s := by
  rw [step_of_sequence hdrive, stepSequence, hrunning, hi]
  rfl

/-- Settles O47: the three branches of M2's step. -/
theorem sequenceStepRunsProgram : Obligations.SequenceStepRunsProgram := by
  unfold Obligations.SequenceStepRunsProgram
  intro s hdrive
  refine ⟨fun hhalted => ?_, fun hrunning i hi => step_of_programAt hdrive hrunning hi, fun hrunning hnone => ?_⟩
  · rw [step_of_sequence hdrive, stepSequence, if_pos hhalted]
  · rw [step_of_sequence hdrive, stepSequence, hrunning, hnone]
    rfl

end Sys2Proof.Machine
end

section
/-! PROOFS. M1 cell by cell on a built image (48_sequencer_reference.md R112, R113): which word each cell holds, what one cycle does
with it, and how a row's run ends. -/

namespace Sys2Proof.Machine

open Sys2Proof Sys2Proof.Claims

/-! ## The rows of a built image -/

/-- The row at an opcode: a sequence, which it is long enough for, and padding (R100, R103). -/
theorem built_row {s : State} (h : s.built) {op : Nat} {v : Variant} (hv : s.cfg.decl[op]? = some v) :
    ∃ seq, compile s.cfg (s.cfg.rowInstance v) = .ok seq ∧ seq.length ≤ s.cfg.steps
      ∧ ∀ j, j < s.cfg.steps → unpackCell s.cfg s.rom op j = .ok (rowWord s.cfg seq j) := by
  obtain ⟨hvalid, hbuild⟩ := h
  obtain ⟨seq, hc, hbytes⟩ := build_cell hbuild hv
  obtain ⟨hrows, -⟩ := build_ok hbuild
  obtain ⟨row, hrow, -⟩ := buildRows_getElem? hrows hv
  obtain ⟨seq', hc', hpad⟩ := buildRow_ok hrow
  obtain rfl : seq = seq' := Except.ok.inj (hc.symm.trans hc')
  obtain ⟨hlength, -, -⟩ := padRow_ok hpad
  exact ⟨seq, hc, hlength, fun j hj => unpackCell_of_bytes hvalid (hbytes j hj)⟩

/-- The row of jmp is five words (R69). -/
theorem built_steps {s : State} (h : s.built) : 5 ≤ s.cfg.steps := by
  obtain ⟨seq, hc, hlength, -⟩ := built_row h (getElem?_opcode h.left .jmp)
  rwa [compile_length hc] at hlength

theorem readCell_of_no_row {s : State} (h : s.cfg.decl.length ≤ s.ir.toNat) : readCell s = .error (.opcodeOutOfImage s.ir) :=
  if_pos h

/-- On a row of the image a cycle reads that row's cell (R112). -/
theorem readCell_of_row {s : State} {v : Variant} (hv : s.cfg.decl[s.ir.toNat]? = some v) :
    readCell s = unpackCell s.cfg s.rom s.ir.toNat s.stepCount :=
  if_neg (List.getElem?_eq_some_iff.1 hv).1.not_ge

/-- R112, "a built image never fails here". -/
theorem built_readCell {s : State} (h : s.built) (hstep : s.stepCount < s.cfg.steps) :
    readCell s = .error (.opcodeOutOfImage s.ir)
      ∨ ∃ v seq, compile s.cfg (s.cfg.rowInstance v) = .ok seq ∧ readCell s = .ok (rowWord s.cfg seq s.stepCount) := by
  cases hv : s.cfg.decl[s.ir.toNat]? with
  | none => exact .inl (readCell_of_no_row (List.getElem?_eq_none_iff.1 hv))
  | some v =>
    obtain ⟨seq, hc, -, hcells⟩ := built_row h hv
    exact .inr ⟨v, seq, hc, (readCell_of_row hv).trans (hcells s.stepCount hstep)⟩

theorem rowWord_of_getElem? {cfg : Config} {seq : List ControlWord} {j : Nat} {w : ControlWord} (h : seq[j]? = some w) :
    rowWord cfg seq j = w := by
  rw [rowWord, h]
  rfl

theorem rowWord_after {cfg : Config} {seq : List ControlWord} {j : Nat} (h : seq.length ≤ j) : rowWord cfg seq j = cfg.pad := by
  rw [rowWord, List.getElem?_eq_none h]
  rfl

/-- A cell holds a word of its row's sequence, or padding. -/
theorem rowWord_mem_or_pad (cfg : Config) (seq : List ControlWord) (j : Nat) :
    rowWord cfg seq j ∈ seq ∨ rowWord cfg seq j = cfg.pad := by
  cases hj : seq[j]? with
  | none => exact .inr (rowWord_after (List.getElem?_eq_none_iff.1 hj))
  | some w => exact .inl (rowWord_of_getElem? hj ▸ List.mem_of_getElem? hj)

/-! ## One cycle of a run -/

section

variable {s t : State} {w : ControlWord} {f : Fault} (n k : Nat)

theorem m1Cycles_of_readCell_error (stop : Bool) (hcell : readCell s = .error f) (hrunning : s.halted = false) :
    m1Cycles stop (n + 1) k s = ⟨s, k, some f⟩ := by
  simp [m1Cycles, hrunning, hcell]

theorem m1Cycles_of_benchCycle_error (stop : Bool) (hcell : readCell s = .ok w) (hrunning : s.halted = false)
    (hw : w.halt = false) (hcycle : benchCycle s w = .error f) :
    m1Cycles stop (n + 1) k s = ⟨s, k + 1, some f⟩ := by
  simp [m1Cycles, runCell, hrunning, hcell, hw, hcycle]

/-- A word that ends no instruction: the run goes on at the next step of the row, from its last one at the first (R112). -/
theorem m1Cycles_of_next (stop : Bool) (hcell : readCell s = .ok w) (hrunning : s.halted = false) (hw : w.halt = false)
    (hreset : w.stepReset = false) (hcycle : benchCycle s w = .ok t) :
    m1Cycles stop (n + 1) k s = m1Cycles stop n (k + 1) (t.withStep ((s.stepCount + 1) % s.cfg.steps)) := by
  simp [m1Cycles, runCell, nextStep, endsInstruction, hrunning, hcell, hw, hreset, hcycle]

theorem m1Cycles_of_stepReset (hcell : readCell s = .ok w) (hrunning : s.halted = false) (hw : w.halt = false)
    (hreset : w.stepReset = true) (hcycle : benchCycle s w = .ok t) :
    m1Cycles true (n + 1) k s = ⟨t.withStep 0, k + 1, none⟩ := by
  simp [m1Cycles, runCell, nextStep, endsInstruction, hrunning, hcell, hw, hreset, hcycle]

theorem m1Cycles_of_halt (hcell : readCell s = .ok w) (hrunning : s.halted = false) (hw : w.halt = true) :
    m1Cycles true (n + 1) k s = ⟨s.withHalted, k + 1, none⟩ := by
  simp [m1Cycles, runCell, endsInstruction, hrunning, hcell, hw]

end

/-! ## The prologue -/

/-- At the start of an instruction the row IR names holds the prologue in its first two cells (R131). -/
theorem atFetch_cells {s : State} (hbuilt : s.built) (hfetch : s.atFetch) :
    readCell s = .ok fetch0 ∧ readCell ((s.withMar s.pc).withStep 1) = .ok fetch1 := by
  obtain ⟨-, -, hstep, v, hv, hne⟩ := hfetch
  have hsteps := built_steps hbuilt
  obtain ⟨seq, hc, -, hcells⟩ := built_row hbuilt hv
  have hi : s.cfg.rowInstance v ≠ .halt := fun h => hne (by rw [← rowInstance_variant s.cfg v, h]; rfl)
  obtain ⟨ex, rfl⟩ := compile_framed hc hi
  constructor
  · rw [readCell_of_row hv, hstep]
    exact hcells 0 (by omega)
  · exact (readCell_of_row (s := (s.withMar s.pc).withStep 1) hv).trans (hcells 1 (by omega))

theorem State.atFetch.drive_rom {s : State} (h : s.atFetch) : s.drive = .rom := h.left

theorem State.atFetch.running {s : State} (h : s.atFetch) : s.halted = false := h.right.left

theorem State.atFetch.stepCount_zero {s : State} (h : s.atFetch) : s.stepCount = 0 := h.right.right.left

/-- FETCH0 of M1: MAR takes the PC (R63). -/
theorem m1Cycles_fetch0 {s : State} (hbuilt : s.built) (hfetch : s.atFetch) (n : Nat) :
    m1Cycles true (n + 1) 0 s = m1Cycles true n 1 ((s.withMar s.pc).withStep 1) := by
  obtain ⟨hcell, -⟩ := atFetch_cells hbuilt hfetch
  have hone : (s.stepCount + 1) % s.cfg.steps = 1 := by
    have hsteps := built_steps hbuilt
    rw [hfetch.stepCount_zero, Nat.mod_eq_of_lt (by omega)]
  rw [m1Cycles_of_next n 0 true hcell hfetch.running rfl rfl (benchCycle_fetch0 s), hone]

/-- A run of M1 whose fetch finds nothing ends there, in the second cycle (R110, R112). -/
theorem m1Cycles_unwritten_fetch {s : State} (hbuilt : s.built) (hfetch : s.atFetch) (hmem : readMem s.mem s.pc = none)
    (n : Nat) : m1Cycles true (n + 2) 0 s = ⟨(s.withMar s.pc).withStep 1, 2, some (.unwrittenRead (.mem s.pc))⟩ := by
  obtain ⟨-, hcell⟩ := atFetch_cells hbuilt hfetch
  have hcycle : benchCycle ((s.withMar s.pc).withStep 1) fetch1 = .error (.unwrittenRead (.mem s.pc)) := by
    have hread : readMem ((s.withMar s.pc).withStep 1).mem s.pc = none := hmem
    rw [benchCycle_fetch1 (a := s.pc) rfl, hread]
  rw [m1Cycles_fetch0 hbuilt hfetch]
  exact m1Cycles_of_benchCycle_error n 1 true hcell hfetch.running rfl hcycle

/-- The prologue of M1: the byte at PC is in IR and STEP is 2 (R63, R131). -/
theorem m1Cycles_fetch {s : State} {b : Byte} (hbuilt : s.built) (hfetch : s.atFetch) (hmem : readMem s.mem s.pc = some b)
    (n : Nat) : m1Cycles true (n + 2) 0 s = m1Cycles true n 2 ((s.fetched b).withStep 2) := by
  obtain ⟨-, hcell⟩ := atFetch_cells hbuilt hfetch
  have hsteps := built_steps hbuilt
  have hcycle : benchCycle ((s.withMar s.pc).withStep 1) fetch1 = .ok ((s.fetched b).withStep 1) := by
    have hread : readMem ((s.withMar s.pc).withStep 1).mem s.pc = some b := hmem
    rw [benchCycle_fetch1 (a := s.pc) rfl, hread]
    rfl
  have htwo : (((s.withMar s.pc).withStep 1).stepCount + 1) % ((s.withMar s.pc).withStep 1).cfg.steps = 2 :=
    Nat.mod_eq_of_lt (show 2 < s.cfg.steps by omega)
  rw [m1Cycles_fetch0 hbuilt hfetch, m1Cycles_of_next n 1 true hcell hfetch.running rfl rfl hcycle, htwo]
  rfl

/-! ## Bytes that lead to no row, and to halt's -/

/-- Settles O48: the third cycle finds no row. -/
theorem byteWithoutRowFaults : Obligations.ByteWithoutRowFaults := by
  unfold Obligations.ByteWithoutRowFaults
  intro s b hbuilt hfetch hmem hnone
  have hrun : m1Instruction s = ⟨(s.fetched b).withStep 2, 2, some (.opcodeOutOfImage b)⟩ := by
    have hsteps := built_steps hbuilt
    obtain ⟨n, hn⟩ : ∃ n, s.cfg.steps + 1 = n + 1 + 2 := ⟨s.cfg.steps - 2, by omega⟩
    rw [m1Instruction, hn, m1Cycles_fetch hbuilt hfetch hmem]
    exact m1Cycles_of_readCell_error n 2 true (readCell_of_no_row hnone) hfetch.running
  refine ⟨hrun, ?_⟩
  rw [step_of_rom hfetch.drive_rom, runOutcome_fault, hrun]

/-- Neutral padding does nothing but count: `d` cells before its end, a row's run comes to step 0 after `d` cycles (R132). -/
theorem m1Cycles_padding {t : State} {d : Nat} (hrunning : t.halted = false) (hd : d ≤ t.cfg.steps)
    (hcells : ∀ j, t.cfg.steps - d ≤ j → j < t.cfg.steps → readCell (t.withStep j) = .ok ControlWord.neutral) (n k : Nat) :
    m1Cycles true (d + n) k (t.withStep ((t.cfg.steps - d) % t.cfg.steps)) = m1Cycles true n (k + d) (t.withStep 0) := by
  induction d generalizing k with
  | zero => rw [Nat.sub_zero, Nat.mod_self, Nat.zero_add, Nat.add_zero]
  | succ d ih =>
    have hlt : t.cfg.steps - (d + 1) < t.cfg.steps := by omega
    have hnext : t.cfg.steps - (d + 1) + 1 = t.cfg.steps - d := by omega
    have hcell := hcells (t.cfg.steps - (d + 1)) le_rfl hlt
    rw [Nat.mod_eq_of_lt hlt, show d + 1 + n = d + n + 1 by omega,
      m1Cycles_of_next (d + n) k true hcell hrunning rfl rfl (benchCycle_neutral _)]
    show m1Cycles true (d + n) (k + 1) (t.withStep ((t.cfg.steps - (d + 1) + 1) % t.cfg.steps)) = _
    rw [hnext, ih (by omega) (fun j hj => hcells j (by omega)), show k + 1 + d = k + (d + 1) by omega]

/-- M1 on halt: the prologue of the row before, halt's padding, then its halt word at step 0 (R132). -/
theorem m1Instruction_halt {s : State} {b : Byte} (hbuilt : s.built) (hfetch : s.atFetch)
    (hpad : s.cfg.pad = ControlWord.neutral) (hmem : readMem s.mem s.pc = some b) (hrow : s.cfg.decl[b.toNat]? = some .halt) :
    m1Instruction s = ⟨((s.fetched b).withStep 0).withHalted, s.cfg.steps + 1, none⟩ := by
  have hsteps := built_steps hbuilt
  obtain ⟨seq, hc, -, hcells⟩ := built_row hbuilt hrow
  cases hc
  have hcell (j : Nat) (hj : j < s.cfg.steps) : readCell ((s.fetched b).withStep j) = .ok (rowWord s.cfg [haltWord] j) :=
    (readCell_of_row (s := (s.fetched b).withStep j) hrow).trans (hcells j hj)
  have hneutral (j : Nat) (hj : s.cfg.steps - (s.cfg.steps - 2) ≤ j) (hlt : j < s.cfg.steps) :
      readCell ((s.fetched b).withStep j) = .ok ControlWord.neutral := by
    rw [hcell j hlt, rowWord_after (show 1 ≤ j by omega), hpad]
  have htwo : (s.cfg.steps - (s.cfg.steps - 2)) % s.cfg.steps = 2 := by
    rw [show s.cfg.steps - (s.cfg.steps - 2) = 2 by omega, Nat.mod_eq_of_lt (by omega)]
  have hpadding := m1Cycles_padding (t := s.fetched b) (d := s.cfg.steps - 2) hfetch.running (Nat.sub_le _ _) hneutral 1 2
  calc m1Instruction s
    _ = m1Cycles true (s.cfg.steps - 2 + 1 + 2) 0 s := by
      rw [m1Instruction, show s.cfg.steps + 1 = s.cfg.steps - 2 + 1 + 2 by omega]
    _ = m1Cycles true (s.cfg.steps - 2 + 1) 2 ((s.fetched b).withStep 2) := m1Cycles_fetch hbuilt hfetch hmem _
    _ = m1Cycles true (0 + 1) (2 + (s.cfg.steps - 2)) ((s.fetched b).withStep 0) := by
      rw [← hpadding]
      exact congrArg (fun j => m1Cycles true (s.cfg.steps - 2 + 1) 2 ((s.fetched b).withStep j)) htwo.symm
    _ = ⟨((s.fetched b).withStep 0).withHalted, 2 + (s.cfg.steps - 2) + 1, none⟩ :=
      m1Cycles_of_halt 0 _ (hcell 0 (by omega)) hfetch.running rfl
    _ = ⟨((s.fetched b).withStep 0).withHalted, s.cfg.steps + 1, none⟩ := by
      rw [show 2 + (s.cfg.steps - 2) + 1 = s.cfg.steps + 1 by omega]

/-! ## The faults of a built image -/

/-- A cell of a built image with neutral padding holds a word that the bench models. -/
theorem rowWord_modelled {cfg : Config} {v : Variant} {seq : List ControlWord} (hc : compile cfg (cfg.rowInstance v) = .ok seq)
    (hpad : cfg.pad = ControlWord.neutral) (j : Nat) : BenchModelled (rowWord cfg seq j) := by
  obtain hmem | hword := rowWord_mem_or_pad cfg seq j
  · exact compile_modelled hc _ hmem
  · rw [hword, hpad]
    exact neutral_modelled

/-- Moving STEP cannot fault: a cell's faults are its bench cycle's (R112). -/
theorem runCell_error {s : State} {w : ControlWord} {f : Fault} (hw : BenchModelled w) (h : runCell s w = .error f) :
    ∃ c, f = .unwrittenRead c := by
  unfold runCell at h
  split at h
  · cases h
  · split at h
    · next hcycle =>
      cases h
      exact benchCycle_error hw hcycle
    · cases h

/-- Every run on a built image with neutral padding ends with no fault, on an unwritten read, or on an IR without a row (R112). -/
theorem m1Cycles_fault {s : State} (hbuilt : s.built) (hpad : s.cfg.pad = ControlWord.neutral) (hstep : s.stepCount < s.cfg.steps)
    (stop : Bool) (n k : Nat) :
    (m1Cycles stop n k s).fault = none ∨ (∃ c, (m1Cycles stop n k s).fault = some (.unwrittenRead c))
      ∨ ∃ b, (m1Cycles stop n k s).fault = some (.opcodeOutOfImage b) := by
  induction n generalizing k s with
  | zero => exact .inl rfl
  | succ n ih =>
    unfold m1Cycles
    split
    · exact .inl rfl
    · obtain hcell | ⟨v, seq, hc, hcell⟩ := built_readCell hbuilt hstep
      · simp only [hcell]
        exact .inr (.inr ⟨s.ir, rfl⟩)
      · simp only [hcell]
        split
        · next hcycle =>
          obtain ⟨c, rfl⟩ := runCell_error (rowWord_modelled hc hpad s.stepCount) hcycle
          exact .inr (.inl ⟨c, rfl⟩)
        · next t hcycle =>
          obtain ⟨⟨hcfg, hrom, -⟩, hstep', -⟩ := runCell_frame hcycle
          split
          · exact .inl rfl
          · exact ih (by rwa [State.built, ← hcfg, ← hrom]) (hcfg ▸ hpad) (hstep' hstep) (k + 1)

/-- Settles O52: a step of M1 is a run of its cycles. -/
theorem builtMachineFaults : Obligations.BuiltMachineFaults := by
  unfold Obligations.BuiltMachineFaults
  intro s hbuilt hpad hdrive hstep
  simp only [step_of_rom hdrive, runOutcome_next, runOutcome_fault, m1Instruction]
  obtain hnone | hfault := m1Cycles_fault hbuilt hpad hstep true (s.cfg.steps + 1) 0
  · exact .inl ⟨_, hnone, rfl⟩
  · exact .inr hfault

end Sys2Proof.Machine
end

section
/-! PROOFS. M1 against the meanings (48_sequencer_reference.md R112, R114): on a row that keeps IR, M1's cells are the words of the
instruction, so its run ends as the run of the meaning does; and so M1 and M2 stay paired. -/

namespace Sys2Proof.Machine

open Sys2Proof Sys2Proof.Claims

/-! ## Runs that end alike -/

/-- Two runs end alike: after as many cycles, with the same fault or none, and, without one, in the same state. The states at a fault
differ in STEP, which M2 does not count. -/
structure EndsAlike (r r' : Run) : Prop where
  cycles : r.cycles = r'.cycles
  fault : r.fault = r'.fault
  state : r'.fault = none → r.state = r'.state

theorem EndsAlike.runOutcome_eq {r r' : Run} (h : EndsAlike r r') : runOutcome r = runOutcome r' := by
  unfold runOutcome
  rw [h.fault]
  split
  · next hnone => rw [h.state hnone]
  · rfl

/-! ## M1 on the cells of a sequence -/

/-- From step `j` on, the cells of the row that IR names hold the words `ws`. -/
structure CellsHold (s : State) (j : Nat) (ws : List ControlWord) : Prop where
  fits : j + ws.length ≤ s.cfg.steps
  cell : ∀ d w, ws[d]? = some w → readCell (s.withStep (j + d)) = .ok w

theorem CellsHold.head {s : State} {j : Nat} {w : ControlWord} {ws : List ControlWord} (h : CellsHold s j (w :: ws)) :
    readCell (s.withStep j) = .ok w :=
  h.cell 0 w rfl

/-- A cycle that keeps IR stays on the row. -/
theorem CellsHold.tail {s t : State} {j : Nat} {w x : ControlWord} {ws : List ControlWord} (h : CellsHold s j (w :: ws))
    (hcycle : benchCycle s x = .ok t) (hx : x.writeTo ≠ .ir) : CellsHold t (j + 1) ws := by
  obtain ⟨⟨hcfg, hrom, -⟩, -⟩ := benchCycle_fixed hcycle
  have hir := benchCycle_ir hcycle hx
  have hread (m : Nat) : readCell (t.withStep m) = readCell (s.withStep m) := by
    simp only [readCell, withStep_cfg, withStep_rom, withStep_ir, withStep_stepCount, hcfg, hrom, hir]
  constructor
  · rw [← hcfg, show j + 1 + ws.length = j + (w :: ws).length by rw [List.length_cons]; omega]
    exact h.fits
  · intro d y hy
    rw [hread, show j + 1 + d = j + (d + 1) by omega]
    exact h.cell (d + 1) y hy

/-- M1 on the cells of execute words that keep IR, and of the epilogue, ends as M2 on the words. -/
theorem m1Cycles_endsAlike {ex : List ControlWord} (hmid : ∀ w ∈ ex, MidWord w) (hkeep : ∀ w ∈ ex, w.writeTo ≠ .ir)
    {s : State} (hrunning : s.halted = false) (hstep : s.stepCount = 0) {j n : Nat}
    (hcells : CellsHold s (j + 2) (ex ++ [epilogue])) (hn : ex.length < n) (p : Byte) (op : Nat) :
    EndsAlike (m1Cycles true n (j + 2) (s.withStep (j + 2))) (runWords p op (j + 2) (ex ++ [epilogue]) s) := by
  induction ex generalizing s j n with
  | nil =>
    obtain ⟨n, rfl⟩ := Nat.exists_eq_add_of_lt hn
    have hcycle : benchCycle (s.withStep (j + 2)) epilogue = .ok (s.withStep (j + 2)) := benchCycle_epilogue _
    rw [List.nil_append, runWords_epilogue, m1Cycles_of_stepReset _ _ hcells.head hrunning rfl rfl hcycle]
    exact ⟨rfl, rfl, fun _ => by rw [← hstep]; rfl⟩
  | cons w ex ih =>
    obtain ⟨⟨hreset, hhalt, -⟩, hmidRest⟩ := List.forall_mem_cons.1 hmid
    obtain ⟨hw, hkeepRest⟩ := List.forall_mem_cons.1 hkeep
    obtain ⟨n, rfl⟩ : ∃ m, n = m + 1 := ⟨n - 1, by omega⟩
    have hn' : ex.length < n := by simpa using hn
    rw [List.cons_append, runWords_cons hhalt]
    have hcell : readCell (s.withStep (j + 2)) = .ok w := hcells.head
    cases hcycle : benchCycle s w with
    | error f =>
      have hcycle' : benchCycle (s.withStep (j + 2)) w = .error f := by
        rw [benchCycle_withStep, hcycle]
        rfl
      rw [m1Cycles_of_benchCycle_error n (j + 2) true hcell hrunning hhalt hcycle']
      exact ⟨rfl, rfl, nofun⟩
    | ok t =>
      obtain ⟨⟨hcfg, -⟩, hstepEq, hhaltedEq⟩ := benchCycle_fixed hcycle
      have hcycle' : benchCycle (s.withStep (j + 2)) w = .ok (t.withStep (j + 2)) := by
        rw [benchCycle_withStep, hcycle]
        rfl
      have hnext : ((s.withStep (j + 2)).stepCount + 1) % (s.withStep (j + 2)).cfg.steps = j + 1 + 2 := by
        have hfits := hcells.fits
        simp only [List.cons_append, List.length_cons, List.length_append, List.length_nil] at hfits
        exact Nat.mod_eq_of_lt (show j + 2 + 1 < s.cfg.steps by omega)
      rw [m1Cycles_of_next n (j + 2) true hcell hrunning hhalt hreset hcycle', hnext]
      exact ih hmidRest hkeepRest (hhaltedEq.trans hrunning) (hstepEq.trans hstep) (hcells.tail hcycle hw) hn'

/-! ## M1 on an instruction -/

theorem variant_eq_halt_iff (i : Instr) : i.variant = .halt ↔ i = .halt := by
  constructor
  · intro h
    cases i with
    | halt => rfl
    | _ => cases h
  · rintro rfl
    rfl

/-- What `State.rowAtPc` means on a built image, for an instruction with a prologue: the byte at PC is its opcode, and its row is the
compiled instruction itself (R87, R102). -/
theorem rowAtPc_row {s : State} {i : Instr} (hbuilt : s.built) (hrow : s.rowAtPc i) (hi : i ≠ .halt) :
    ∃ b ex, readMem s.mem s.pc = some b ∧ b.toNat = opcode s.cfg i.variant ∧ s.cfg.decl[b.toNat]? = some i.variant
      ∧ compile s.cfg i = .ok (framed ex) ∧ (∀ w ∈ ex, ExecuteWord s.cfg i w) ∧ (framed ex).length ≤ s.cfg.steps
      ∧ ∀ j, j < s.cfg.steps → unpackCell s.cfg s.rom b.toNat j = .ok (rowWord s.cfg (framed ex) j) := by
  obtain ⟨b, imm, hmem, hv, heq⟩ := hrow
  obtain ⟨seq, hc, hlength, hcells⟩ := built_row hbuilt hv
  have hci : compile s.cfg i = .ok seq := by rw [heq, compile_withImm, hc]
  obtain ⟨ex, rfl, hex⟩ := compile_executeWords hci hi
  exact ⟨b, ex, hmem, (opcode_of_getElem? hbuilt.left hv).symm, hv, hci, hex, hlength, hcells⟩

theorem dst_eq_of_rowAtPc_mov {s : State} {dst : MoveDst} {src : MoveSrc} (h : s.rowAtPc (.mov dst src)) :
    dst = s.cfg.rows.mov.1 := by
  obtain ⟨b, imm, -, -, heq⟩ := h
  cases heq
  rfl

/-- Outside the hazard of R135 what M1 runs is no move to IR. -/
theorem mov_keeps_ir {s : State} {i : Instr} (hrow : s.rowAtPc i) (hkeep : i.variant = .mov → rowsKeepIr s.cfg)
    (dst : MoveDst) (src : MoveSrc) (hi : i = .mov dst src) : dstComp s.cfg dst ≠ some .ir := by
  subst hi
  rw [dst_eq_of_rowAtPc_mov hrow]
  exact hkeep rfl

/-- Of the execute words only a move to IR writes it. -/
theorem ExecuteWord.keeps_ir {cfg : Config} {i : Instr} {w : ControlWord} (h : ExecuteWord cfg i w)
    (hkeep : ∀ dst src, i = .mov dst src → dstComp cfg dst ≠ some .ir) : w.writeTo ≠ .ir := by
  cases h with
  | alu => nofun
  | compare r1 r2 hw =>
    obtain rfl := List.mem_singleton.1 hw
    nofun
  | move d c hir =>
    intro hd
    obtain ⟨dst, src, hi, hdst⟩ := hir hd
    exact hkeep dst src hi hdst

/-- After the fetch of a sequence that its row holds, the cells from step 2 on are its execute words and the epilogue. -/
theorem cellsHold_of_row {s : State} {v : Variant} {ex : List ControlWord} (hv : s.cfg.decl[s.ir.toNat]? = some v)
    (hlength : (framed ex).length ≤ s.cfg.steps)
    (hcells : ∀ j, j < s.cfg.steps → unpackCell s.cfg s.rom s.ir.toNat j = .ok (rowWord s.cfg (framed ex) j)) :
    CellsHold s 2 (ex ++ [epilogue]) := by
  have htail : (ex ++ [epilogue]).length + 2 = (framed ex).length := rfl
  constructor
  · omega
  · intro d w hw
    have hlt : 2 + d < s.cfg.steps := by
      have hd := (List.getElem?_eq_some_iff.1 hw).1
      omega
    have hword : (framed ex)[2 + d]? = some w := by
      rw [Nat.add_comm]
      exact hw
    rw [← rowWord_of_getElem? (cfg := s.cfg) hword]
    exact (readCell_of_row (s := s.withStep (2 + d)) hv).trans (hcells _ hlt)

/-- M1 at the start of an instruction runs its row's instruction to the end that the meaning has (R112, R131, R136). -/
theorem m1Instruction_endsAlike {s : State} {i : Instr} (hbuilt : s.built) (hfetch : s.atFetch) (hrow : s.rowAtPc i)
    (hi : i ≠ .halt) (hkeep : i.variant = .mov → rowsKeepIr s.cfg) : EndsAlike (m1Instruction s) (runInstr i s) := by
  obtain ⟨b, ex, hmem, hop, hv, hc, hex, hlength, hcells⟩ := rowAtPc_row hbuilt hrow hi
  have hcellsHold : CellsHold (s.fetched b) 2 (ex ++ [epilogue]) := cellsHold_of_row (s := s.fetched b) hv hlength hcells
  have hkeepIr (w : ControlWord) (hw : w ∈ ex) : w.writeTo ≠ .ir := (hex w hw).keeps_ir (mov_keeps_ir hrow hkeep)
  rw [length_framed] at hlength
  obtain ⟨n, hn⟩ : ∃ n, s.cfg.steps + 1 = n + 2 := ⟨s.cfg.steps - 1, by omega⟩
  rw [runInstr_framed_fetched hc hmem hop, m1Instruction, hn, m1Cycles_fetch hbuilt hfetch hmem]
  exact m1Cycles_endsAlike (s := s.fetched b) (fun w hw => (hex w hw).mid) hkeepIr hfetch.running hfetch.stepCount_zero
    hcellsHold (by omega) s.pc _

/-- A step of M1 at the start of an instruction is the meaning of its row's instruction. -/
theorem step_eq_exec_of_rowAtPc {s : State} {i : Instr} (hbuilt : s.built) (hfetch : s.atFetch) (hrow : s.rowAtPc i)
    (hi : i ≠ .halt) (hkeep : i.variant = .mov → rowsKeepIr s.cfg) : step s = exec i s := by
  have halike := m1Instruction_endsAlike hbuilt hfetch hrow hi hkeep
  rw [step_of_rom hfetch.drive_rom, exec_eq_runInstr, halike.runOutcome_eq]

theorem withImm_of_one_byte {i : Instr} (h : instrLength i.variant ≠ 2) (imm : Byte) : i.withImm imm = i := by
  cases i with
  | jmp | jc | jz => exact absurd rfl h
  | _ => rfl

theorem bytesAt_cons {s : State} {b : Byte} {tl : List Byte} (h : bytesAt s = b :: tl) : readMem s.mem s.pc = some b := by
  unfold bytesAt at h
  split at h
  · cases h
  · next hmem =>
    rw [hmem]
    split at h <;> cases h <;> rfl

/-- Where the bytes at PC decode, they name the row of what they decode to (R102, R136). -/
theorem rowAtPc_of_decode {s : State} {i : Instr} {rest : List Byte} (h : decode s.cfg (bytesAt s) = .ok (i, rest)) :
    s.rowAtPc i := by
  obtain ⟨b, tl, v, hbytes, hv, rfl, ⟨-, imm, -, heq⟩ | ⟨hlength, -, heq⟩⟩ := decode_ok h
  · exact ⟨b, imm, bytesAt_cons hbytes, hv, heq⟩
  · refine ⟨b, 0, bytesAt_cons hbytes, hv, ?_⟩
    rwa [withImm_of_one_byte (by rwa [rowInstance_variant])]

/-- Settles O45: what decodes has its row at PC, and a fetch that finds nothing ends the run. -/
theorem stepRunsDecodedInstruction : Obligations.StepRunsDecodedInstruction := by
  unfold Obligations.StepRunsDecodedInstruction
  intro s hbuilt hfetch
  refine ⟨fun i hdecoded hi hkeep => ?_, fun hmem => ?_⟩
  · have hrow : s.rowAtPc i := by
      obtain ⟨rest, hdecode⟩ | hrow := hdecoded
      · exact rowAtPc_of_decode hdecode
      · exact hrow
    exact step_eq_exec_of_rowAtPc hbuilt hfetch hrow hi hkeep
  · have hrun : m1Instruction s = ⟨(s.withMar s.pc).withStep 1, 2, some (.unwrittenRead (.mem s.pc))⟩ := by
      obtain ⟨n, hn⟩ : ∃ n, s.cfg.steps + 1 = n + 2 := ⟨s.cfg.steps - 1, by have := built_steps hbuilt; omega⟩
      rw [m1Instruction, hn, m1Cycles_unwritten_fetch hbuilt hfetch hmem]
    refine ⟨hrun, ?_⟩
    rw [step_of_rom hfetch.drive_rom, runOutcome_fault, hrun]

/-! ## The cycles of an instruction -/

/-- A run without a fault and without a halt word takes a cycle for each of its words (R114). -/
theorem runWords_cycles {ws : List ControlWord} (hws : ∀ w ∈ ws, w.halt = false) {p : Byte} {op k : Nat} {s : State}
    (h : (runWords p op k ws s).fault = none) : (runWords p op k ws s).cycles = k + ws.length := by
  induction ws generalizing k s with
  | nil => rfl
  | cons w ws ih =>
    obtain ⟨hw, hrest⟩ := List.forall_mem_cons.1 hws
    unfold runWords at h ⊢
    rw [hw, if_neg Bool.false_ne_true] at h ⊢
    split at h
    · cases h
    · split at h
      · cases h
      · next hop =>
        rw [if_neg hop, ih hrest h, List.length_cons]
        omega

/-- An instruction with a prologue that completes takes a cycle for each word of its sequence. -/
theorem runInstr_cycles {i : Instr} {s : State} {ex : List ControlWord} (hc : compile s.cfg i = .ok (framed ex))
    (hmid : ∀ w ∈ ex, MidWord w) (h : (runInstr i s).fault = none) :
    (runInstr i s).cycles = sequenceLength i.variant := by
  simp only [runInstr, hc] at h ⊢
  rw [runWords_cycles (fun w hw => (quiet_of_mem_framed hmid hw).left) h, compile_length hc, Nat.zero_add]

theorem m1CycleCount_of_ne_halt (cfg : Config) {v : Variant} (h : v ≠ .halt) : m1CycleCount cfg v = sequenceLength v := by
  cases v with
  | halt => exact absurd rfl h
  | _ => rfl

/-- Settles O49: as many cycles as words, but for halt, whose row runs to its end first. -/
theorem cyclesPerInstruction : Obligations.CyclesPerInstruction := by
  unfold Obligations.CyclesPerInstruction
  intro s i hbuilt hfetch hrow hkeep hpad hnone
  by_cases hi : i = .halt
  · subst hi
    obtain ⟨b, -, hmem, hv, -⟩ := hrow
    rw [m1Instruction_halt hbuilt hfetch (hpad rfl) hmem hv]
    rfl
  · obtain ⟨b, ex, -, -, -, hc, hex, -⟩ := rowAtPc_row hbuilt hrow hi
    have halike := m1Instruction_endsAlike hbuilt hfetch hrow hi hkeep
    rw [m1CycleCount_of_ne_halt s.cfg fun hv => hi ((variant_eq_halt_iff i).1 hv), halike.cycles]
    exact runInstr_cycles hc (fun w hw => (hex w hw).mid) (halike.fault ▸ hnone)

/-! ## M1 and M2 in step -/

/-- A completed instruction that is no halt leaves STEP and HALTED, and, unless it is a move to IR, the fetched byte in IR. -/
theorem Completes.sequencer {s t : State} {b : Byte} {i : Instr} (h : Completes s b i t) :
    t.stepCount = s.stepCount ∧ t.halted = s.halted
      ∧ ((∀ dst src, i = .mov dst src → dstComp s.cfg dst ≠ some .ir) → t.ir = b) := by
  cases h with
  | @move dst src d c v hdst hsrc hself hdrive =>
    obtain ⟨-, hstep, hhalted⟩ := movTarget_fixed s b v d
    exact ⟨hstep, hhalted, fun hkeep => movTarget_ir s b v fun hd => hkeep dst src rfl (hd ▸ hdst)⟩
  | alu | cmp | selfMove | jump | openPoint => exact ⟨rfl, rfl, fun _ => rfl⟩

/-- After an instruction whose row keeps IR, M1 stands at the start of an instruction again, on the row of the one before (R131). -/
theorem atFetch_of_exec_next {s t : State} {i : Instr} (hfetch : s.atFetch) (hrow : s.rowAtPc i) (hi : i ≠ .halt)
    (hkeep : i.variant = .mov → rowsKeepIr s.cfg) (h : exec i s = .next t) : t.atFetch := by
  obtain ⟨hcfg, -, -, -, hdriveEq⟩ := (exec_frame h).fixed
  have hkeepIr := mov_keeps_ir hrow hkeep
  obtain ⟨b, imm, hmem, hv, -⟩ := hrow
  obtain ⟨hhalt, -⟩ | ⟨b', hmem', -, hform⟩ := exec_next h
  · exact absurd hhalt hi
  · obtain rfl : b = b' := Option.some.inj (hmem.symm.trans hmem')
    obtain ⟨hstepEq, hhaltedEq, hir⟩ := hform.sequencer
    refine ⟨hdriveEq ▸ hfetch.drive_rom, hhaltedEq.trans hfetch.running, hstepEq.trans hfetch.stepCount_zero, i.variant, ?_,
      fun hhalt => hi ((variant_eq_halt_iff i).1 hhalt)⟩
    rwa [hir hkeepIr, ← hcfg]

theorem built_of_sameFixed {s t : State} (h : sameFixed s t) (hbuilt : s.built) : t.built := by
  obtain ⟨hcfg, hrom, -⟩ := h
  rwa [State.built, ← hcfg, ← hrom]

/-- Settles O51. Both steps are the same meaning, M2's state is M1's bench in M2's machine, and a meaning does the same in both. -/
theorem machinesAgreeOnRowInstances : Obligations.MachinesAgreeOnRowInstances := by
  unfold Obligations.MachinesAgreeOnRowInstances
  intro s1 s2 i hpaired hrow hi hkeep hprogram
  obtain ⟨hbuilt, hfetch, hdrive, hrunning, hcfg, hbench⟩ := hpaired
  have hsame : s1.benchInto s2 = s2 := benchInto_of_sameBench hbench (hfetch.running.trans hrunning.symm)
  have hstep1 : step s1 = exec i s1 := step_eq_exec_of_rowAtPc hbuilt hfetch hrow hi hkeep
  have hstep2 : step s2 = exec i (s1.benchInto s2) := by rw [hsame, step_of_programAt hdrive hrunning hprogram]
  have hpair (t : State) (h : exec i s1 = .next t) : Paired t (t.benchInto s2) := by
    have hfixed := (exec_frame h).fixed
    have hfetch' := atFetch_of_exec_next hfetch hrow hi hkeep h
    exact ⟨built_of_sameFixed hfixed hbuilt, hfetch', hdrive, hfetch'.running, hcfg.trans hfixed.left, sameBench_benchInto t s2⟩
  rw [hstep1, hstep2]
  refine ⟨fun t1 h => ⟨t1.benchInto s2, (exec_benchInto_next hcfg).2 ⟨t1, h, rfl⟩, hpair t1 h⟩, fun t2 h => ?_,
    fun f => (exec_benchInto_fault hcfg).symm⟩
  obtain ⟨t1, h1, rfl⟩ := (exec_benchInto_next hcfg).1 h
  exact ⟨t1, h1, hpair t1 h1⟩

end Sys2Proof.Machine
end

section
/-! PROOFS. Faults and the stop (60_exceptions.md R118, R124): which fault a cycle reports when several conditions hold, and
that a stopped machine stays stopped until reset. -/

namespace Sys2Proof.Machine

open Sys2Proof

/-! ## What the driver faults with, in its order (R118 step 5) -/

section

variable {s : State} {w : ControlWord}

theorem drive_of_reg {r : Reg} (h : w.readFrom = .reg r) : drive s w = need (.reg r) (readReg s.regs r) := by
  simp only [drive, h]

theorem drive_of_bank (h : w.readFrom = .bank) : drive s w = need .bank s.bank := by
  simp only [drive, h]

theorem drive_of_mem (h : w.readFrom = .mem) : drive s w = driveMem s := by
  simp only [drive, h]

theorem drive_of_acc (h : w.readFrom = .acc) : drive s w = driveAcc s w := by
  simp only [drive, h]

theorem driveMem_of_mar_unwritten (h : s.mar = none) : driveMem s = .error (.unwrittenRead .mar) := by
  simp only [driveMem, h, need_none]

theorem driveMem_of_mar {a : Byte} (h : s.mar = some a) : driveMem s = need (.mem a) (readMem s.mem a) := by
  simp only [driveMem, h, need_some]

theorem driveAcc_of_left_unwritten (h : readReg s.regs w.aluLeft = none) :
    driveAcc s w = .error (.unwrittenRead (.reg w.aluLeft)) := by
  simp only [driveAcc, h, need_none]

theorem driveAcc_of_right_unwritten {l : Byte} (hleft : readReg s.regs w.aluLeft = some l)
    (hright : readReg s.regs w.aluRight = none) : driveAcc s w = .error (.unwrittenRead (.reg w.aluRight)) := by
  simp only [driveAcc, hleft, hright, need_some, need_none]

theorem driveAcc_of_inputs {l r : Byte} (hleft : readReg s.regs w.aluLeft = some l)
    (hright : readReg s.regs w.aluRight = some r) : driveAcc s w = benchAlu w l r := by
  simp only [driveAcc, hleft, hright, need_some]

theorem latch_mem_of_mar_unwritten (v : Byte) (h : s.mar = none) : latch s .mem v = .error (.unwrittenRead .mar) := by
  simp only [latch, latchMem, h, need_none]

/-! ## What a cycle faults with, in its order (R118 steps 3 to 6) -/

theorem benchCycle_of_bankSelect (h : w.bankSelectEnable = true) : benchCycle s w = .error .bankSelectUnmodelled := by
  rw [benchCycle, if_pos h]

theorem benchCycle_of_pcConflict (hbank : w.bankSelectEnable = false)
    (hpc : (w.programCounterEnable && w.writeTo == .pc) = true) : benchCycle s w = .error .pcWriteConflict := by
  rw [benchCycle, hbank, if_neg Bool.false_ne_true, if_pos hpc]

/-- A word that the bench does not refuse, between different storage, drives the bus, then latches it, then increments the PC, and
the first of these to fault ends the cycle (R110). -/
theorem benchCycle_transfer (hbank : w.bankSelectEnable = false) (hpc : (w.programCounterEnable && w.writeTo == .pc) = false)
    (hself : selfTransfer w.readFrom w.writeTo = false) :
    benchCycle s w = (drive s w).bind fun v => (latch s w.writeTo v).map fun t => incPC t w := by
  rw [benchCycle, hbank, hpc, hself]
  simp only [Bool.false_eq_true, if_false]
  cases drive s w with
  | error f => rfl
  | ok v => cases hlatch : latch s w.writeTo v <;> simp only [hlatch, Except.bind, Except.map]

end

/-- Settles O24: the two refusals come first, then whatever the driver faults with, then the latch. -/
theorem benchFaultPriority : Obligations.BenchFaultPriority := by
  unfold Obligations.BenchFaultPriority
  intro s w
  refine ⟨benchCycle_of_bankSelect, fun hbank hpce hdst => benchCycle_of_pcConflict hbank (by simp [hpce, hdst]),
    fun hbank hpc hself => ?_⟩
  have htransfer := benchCycle_transfer (s := s) hbank (by simpa using hpc) hself
  have hdriver (f : Fault) (h : drive s w = .error f) : benchCycle s w = .error f := by
    rw [htransfer, h]
    rfl
  refine ⟨fun r hsrc hreg => hdriver _ ?reg, fun hsrc hunwritten => hdriver _ ?bank, fun hsrc hmar => hdriver _ ?mar,
    fun a hsrc hmar hcell => hdriver _ ?cell, fun hsrc hleft => hdriver _ ?left,
    fun l hsrc hleft hright => hdriver _ ?right, fun l r f hsrc hleft hright halu => hdriver _ ?alu, hdriver,
    fun v hdrive hdst hmar => ?latch⟩
  case reg => rw [drive_of_reg hsrc, hreg, need_none]
  case bank => rw [drive_of_bank hsrc, hunwritten, need_none]
  case mar => rw [drive_of_mem hsrc, driveMem_of_mar_unwritten hmar]
  case cell => rw [drive_of_mem hsrc, driveMem_of_mar hmar, hcell, need_none]
  case left => rw [drive_of_acc hsrc, driveAcc_of_left_unwritten hleft]
  case right => rw [drive_of_acc hsrc, driveAcc_of_right_unwritten hleft hright]
  case alu => rw [drive_of_acc hsrc, driveAcc_of_inputs hleft hright, halu]
  case latch =>
    rw [htransfer, hdrive, hdst, Except.bind, latch_mem_of_mar_unwritten v hmar]
    rfl

/-! ## The stop (R124) -/

/-- A halt word stops without its bench cycle, so it comes before every fault of the datapath (R112, R118). -/
theorem runCell_of_halt (s : State) {w : ControlWord} (h : w.halt = true) : runCell s w = .ok s.withHalted := by
  rw [runCell, if_pos h]

/-- No cycle of a stopped M1 runs or counts, however many it is given (R112). -/
theorem m1Cycles_of_halted (stop : Bool) (n k : Nat) {s : State} (h : s.halted = true) : m1Cycles stop n k s = ⟨s, k, none⟩ := by
  cases n with
  | zero => rfl
  | succ n => rw [m1Cycles, if_pos h]

/-- A step of a stopped machine, M1 or M2, is the identity (R112, R114). -/
theorem step_of_halted {s : State} (h : s.halted = true) : step s = .next s := by
  cases hdrive : s.drive with
  | rom => rw [step_of_rom hdrive, m1Instruction, m1Cycles_of_halted true _ 0 h, runOutcome]
  | sequence => exact (sequenceStepRunsProgram s hdrive).left h

/-- Only the state itself is reached from a stopped one, over any number of steps. -/
theorem eq_of_reaches_halted {s t : State} (h : s.halted = true) (hreach : Reaches s t) : t = s := by
  induction hreach with
  | refl => rfl
  | tail _ hstep ih =>
    subst ih
    rw [step_of_halted h] at hstep
    cases hstep
    rfl

/-- Settles O53. Of M1's cycles and of steps of either machine, a stopped state is a fixed point. -/
theorem haltedUntilReset : Obligations.HaltedUntilReset := by
  unfold Obligations.HaltedUntilReset
  exact ⟨fun s _ hw => runCell_of_halt s hw, fun s => (haltCompletes s).left,
    fun _ hs => ⟨m1Cycle_halted hs, fun _ => eq_of_reaches_halted hs⟩, restart_halted⟩

end Sys2Proof.Machine
end

section
/-! PROOFS. The rows of an image and what the machine does on them at the edges of an instruction (70_reset_and_hazards.md R131, R132,
R135): the prologue in every row but halt's, the run into halt's row, and the row that a write of IR leads to. -/

namespace Sys2Proof.Machine

open Sys2Proof Sys2Proof.Claims

/-! ## The cells of a row -/

/-- `built_row` of an image, apart from the state of a machine that holds it. -/
theorem build_row {cfg : Config} {image : List Byte} (hvalid : cfg.valid = true) (hbuild : build cfg = .ok image) {op : Nat}
    {v : Variant} (hv : cfg.decl[op]? = some v) :
    ∃ seq, compile cfg (cfg.rowInstance v) = .ok seq ∧ seq.length ≤ cfg.steps
      ∧ ∀ j, j < cfg.steps → unpackCell cfg image op j = .ok (rowWord cfg seq j) :=
  built_row (s := { State.reset with cfg := cfg, rom := image }) ⟨hvalid, hbuild⟩ hv

/-- A row with room for a framed sequence has room for the prologue (R66, R131). -/
theorem unpackCell_prologue {cfg : Config} {image : List Byte} (hvalid : cfg.valid = true) (hbuild : build cfg = .ok image)
    {op : Nat} {v : Variant} (hv : cfg.decl[op]? = some v) (hne : v ≠ .halt) :
    unpackCell cfg image op 0 = .ok fetch0 ∧ unpackCell cfg image op 1 = .ok fetch1 := by
  obtain ⟨seq, hc, hlength, hcells⟩ := build_row hvalid hbuild hv
  obtain ⟨ex, rfl⟩ := compile_framed hc fun hhalt => hne (rowInstance_variant cfg v ▸ (variant_eq_halt_iff _).2 hhalt)
  rw [length_framed] at hlength
  exact ⟨hcells 0 (by omega), hcells 1 (by omega)⟩

/-- Halt's row starts with the one word of its sequence (R65, R131). -/
theorem unpackCell_haltWord {cfg : Config} {image : List Byte} (hvalid : cfg.valid = true) (hbuild : build cfg = .ok image)
    {op : Nat} (hv : cfg.decl[op]? = some .halt) : unpackCell cfg image op 0 = .ok haltWord := by
  obtain ⟨seq, hc, hlength, hcells⟩ := build_row hvalid hbuild hv
  cases hc
  exact hcells 0 hlength

/-- Settles O21, by the two forms of a row's sequence. -/
theorem everyRowHoldsThePrologue : Obligations.EveryRowHoldsThePrologue := by
  unfold Obligations.EveryRowHoldsThePrologue
  intro cfg image op v hvalid hbuild hv
  refine ⟨unpackCell_prologue hvalid hbuild hv, ?_⟩
  rintro rfl
  exact unpackCell_haltWord hvalid hbuild hv

theorem build_builtImage {cfg : Config} (h : ∃ image, build cfg = .ok image) : build cfg = .ok (builtImage cfg) := by
  obtain ⟨image, hbuild⟩ := h
  rw [builtImage, hbuild]

/-- Settles O22. The fourth word of a row is the epilogue after one execute word, jmp's second one, or, after the three words of the
open point and the one of halt, padding. -/
theorem referenceImageStepThree : Obligations.ReferenceImageStepThree := by
  unfold Obligations.ReferenceImageStepThree
  intro op hop
  have hvalid : Config.legacy.valid = true := by decide
  have hbuild : build Config.legacy = .ok (builtImage Config.legacy) :=
    build_builtImage (build_legacyEmpty_of_five_le (by decide) rfl (by decide) (by decide))
  obtain ⟨v, rfl⟩ := exists_opcode_eq hvalid hop
  obtain ⟨seq, hc, -, hcells⟩ := build_row hvalid hbuild (getElem?_opcode hvalid v)
  rw [hcells 3 (by decide)]
  cases v <;> cases hc <;> rfl

/-! ## Into halt's row -/

/-- Settles O46: the padding of halt's row ends where the row begins again, at its halt word. -/
theorem stepRunsHaltAfterPrologue : Obligations.StepRunsHaltAfterPrologue := by
  unfold Obligations.StepRunsHaltAfterPrologue
  intro s b hbuilt hpad hfetch hmem hop
  have hrow : s.cfg.decl[b.toNat]? = some .halt := hop ▸ getElem?_opcode hbuilt.left .halt
  have hrun := m1Instruction_halt hbuilt hfetch hpad hmem hrow
  have hstep0 : (s.fetched b).withStep 0 = s.fetched b := by
    rw [← hfetch.stepCount_zero]
    rfl
  rw [hstep0] at hrun
  have hnext : step s = .next (s.fetched b).withHalted := by
    rw [step_of_rom hfetch.drive_rom, hrun]
    rfl
  obtain ⟨hexec, -⟩ := haltCompletes (s.fetched b)
  exact ⟨hnext.trans hexec.symm, hnext, by rw [hrun]⟩

/-! ## Out of mov's row -/

/-- A run for one instruction that has used all its cycles went as the clock goes: no end of the instruction came before them. -/
theorem m1Cycles_clock {n k : Nat} {s t : State} (h : m1Cycles true n k s = ⟨t, k + n, none⟩) :
    m1Cycles false n k s = ⟨t, k + n, none⟩ := by
  induction n generalizing k s with
  | zero => exact h
  | succ n ih =>
    rw [m1Cycles] at h ⊢
    split at h
    · next =>
      have hcycles : k = k + (n + 1) := congrArg Run.cycles h
      omega
    · next hrunning =>
      rw [if_neg hrunning]
      cases hcell : readCell s with
      | error f => simp [hcell] at h
      | ok w =>
        simp only [hcell] at h ⊢
        cases hrun : runCell s w with
        | error f => simp [hrun] at h
        | ok s' =>
          simp only [hrun, Bool.true_and, Bool.false_and, Bool.false_eq_true, if_false, ← Nat.add_assoc,
            Nat.add_right_comm k n] at h ⊢
          split at h
          · next =>
            have hcycles : k + 1 = k + 1 + n := congrArg Run.cycles h
            obtain rfl : n = 0 := by omega
            exact h
          · next => exact ih h

/-- The execute word of a mov row that writes IR: the bus value is in IR and STEP is 3 (R85, R135). -/
theorem m1Cycles_moveToIr {s : State} {b v : Byte} {c : ReadSrc} (hbuilt : s.built) (hfetch : s.atFetch)
    (hmem : readMem s.mem s.pc = some b) (hop : b.toNat = opcode s.cfg .mov)
    (hd : dstComp s.cfg s.cfg.rows.mov.1 = some .ir) (hc : srcComp s.cfg s.cfg.rows.mov.2 = some c)
    (hv : movSource s b c = some v) (n : Nat) :
    m1Cycles true (n + 3) 0 s = m1Cycles true n 3 (((s.fetched b).withIr v).withStep 3) := by
  have hsteps := built_steps hbuilt
  have hrow : s.cfg.decl[b.toNat]? = some .mov := hop ▸ getElem?_opcode hbuilt.left .mov
  obtain ⟨seq, hcompile, -, hcells⟩ := built_row hbuilt hrow
  obtain rfl := Except.ok.inj ((compile_mov hd hc).symm.trans hcompile)
  have hcell : readCell ((s.fetched b).withStep 2) = .ok (moveWord .ir c) :=
    (readCell_of_row (s := (s.fetched b).withStep 2) hrow).trans (hcells 2 (by omega))
  have hself : selfTransfer c .ir = false := by
    cases c <;> rfl
  have hcycle : benchCycle ((s.fetched b).withStep 2) (moveWord .ir c) = .ok (((s.fetched b).withIr v).withStep 2) := by
    rw [benchCycle_withStep, benchCycle_moveWord_fetched_eq hmem hself, hv]
    rfl
  have hthree : (((s.fetched b).withStep 2).stepCount + 1) % ((s.fetched b).withStep 2).cfg.steps = 3 :=
    Nat.mod_eq_of_lt (show 3 < s.cfg.steps by omega)
  rw [m1Cycles_fetch hbuilt hfetch hmem, m1Cycles_of_next n 2 true hcell hfetch.running rfl rfl hcycle, hthree]
  rfl

/-- Settles O50: the fourth cycle reads the row of the value that the third has moved to IR. -/
theorem moveToIrChangesRow : Obligations.MoveToIrChangesRow := by
  unfold Obligations.MoveToIrChangesRow
  intro s b v c hbuilt hfetch hmem hop hd hc hv
  have hsteps := built_steps hbuilt
  have hrun := m1Cycles_moveToIr hbuilt hfetch hmem hop hd hc hv
  have hinstr : m1Instruction s = m1Cycles true (s.cfg.steps - 2) 3 (((s.fetched b).withIr v).withStep 3) := by
    rw [m1Instruction, show s.cfg.steps + 1 = s.cfg.steps - 2 + 3 by omega, hrun]
  refine ⟨m1Cycles_clock (hrun 0), hinstr, fun x hx => ?_, fun hnone => ?_⟩
  · obtain ⟨seq, hcompile, -, hcells⟩ := built_row hbuilt hx
    exact ⟨seq, hcompile,
      (readCell_of_row (s := ((s.fetched b).withIr v).withStep 3) hx).trans (hcells 3 (by omega))⟩
  · have hfault : m1Instruction s = ⟨((s.fetched b).withIr v).withStep 3, 3, some (.opcodeOutOfImage v)⟩ := by
      rw [hinstr, show s.cfg.steps - 2 = s.cfg.steps - 3 + 1 by omega]
      exact m1Cycles_of_readCell_error _ 3 true (readCell_of_no_row hnone) hfetch.running
    refine ⟨hfault, ?_⟩
    rw [step_of_rom hfetch.drive_rom, runOutcome_fault, hfault]

end Sys2Proof.Machine
end

section
/-! PROOFS. What reset leaves of a run (70_reset_and_hazards.md R128, R129), the first cycle after it, and the wrap of the PC (R138). -/

namespace Sys2Proof.Machine

open Sys2Proof Sys2Proof.Claims

/-- A booted machine, M1 or M2, has in memory what the record of the loader's contents says (R114, R129). -/
theorem boot_loaded {cfg : Config} {program : List (Byte × Instr)} {l : Load} {s : State}
    (h : bootM1 cfg l = .ok s ∨ bootM2 cfg program l = .ok s) : s.mem = s.loaded := by
  obtain h | h := h
  · exact bootM1_loaded h
  · exact bootM2_loaded h

/-- Settles O58: no run writes what reset restores from. -/
theorem resetRestoresTheLoadedProgram : Obligations.ResetRestoresTheLoadedProgram := by
  unfold Obligations.ResetRestoresTheLoadedProgram
  intro cfg program l s t hboot hreach
  obtain ⟨hcfg, hrom, hloaded, hprog, -⟩ := (reaches_frame hreach).fixed
  exact ⟨hloaded.symm.trans (boot_loaded hboot).symm, hrom.symm, hprog.symm, hcfg.symm, rfl, rfl⟩

theorem m1Cycle_of_readCell {s : State} {w : ControlWord} (hrunning : s.halted = false) (hcell : readCell s = .ok w) :
    m1Cycle s = runCell s w := by
  simp only [m1Cycle, hrunning, hcell, Bool.false_eq_true, if_false]

/-- Settles O59: the reset values of IR and STEP choose the first cell of the first row, which holds the prologue. -/
theorem firstCycleAfterReset : Obligations.FirstCycleAfterReset := by
  unfold Obligations.FirstCycleAfterReset
  intro s hbuilt hfirst hir hstep hpc hrunning
  have hsteps := built_steps hbuilt
  obtain ⟨v, hv⟩ : ∃ v, s.cfg.decl[0]? = some v :=
    ⟨_, List.getElem?_eq_getElem (Nat.zero_lt_of_lt (opcode_lt_length hbuilt.left .halt))⟩
  obtain ⟨hunpack, -⟩ := unpackCell_prologue hbuilt.left hbuilt.right hv fun hhalt => hfirst (hhalt ▸ hv)
  have hrow : s.cfg.decl[s.ir.toNat]? = some v := by rwa [hir]
  have hcell : readCell s = .ok fetch0 := by rwa [readCell_of_row hrow, hir, hstep]
  have hone : nextStep s fetch0 = 1 := by
    show (s.stepCount + 1) % s.cfg.steps = 1
    rw [hstep, Nat.mod_eq_of_lt (by omega)]
  refine ⟨hunpack, hcell, ?_⟩
  rw [m1Cycle_of_readCell hrunning hcell, ← hone, ← hpc]
  rfl

/-- Settles O60. Which instructions write the PC is O44's list, and the byte after 0xFF is the one at 0x00. -/
theorem programCounterWraps : Obligations.ProgramCounterWraps := by
  unfold Obligations.ProgramCounterWraps
  intro s op hpc hmem
  have hwrap : s.pc + 1 = 0x00 := by
    rw [hpc]
    rfl
  refine ⟨fun i t hjmp hhalt hmov hexec => ?_, fun imm target hop htarget => ?_⟩
  · obtain ⟨hnext | hjump | ⟨hstop, -⟩ | ⟨dst, src, hi, hdst⟩, -⟩ := onlyNamedInstructionsWriteSpecialState i s t hexec
    · exact hnext.trans hwrap
    · exact absurd hjump hjmp
    · exact absurd hstop hhalt
    · exact absurd hdst (hmov dst src hi)
  · rw [← hwrap] at htarget ⊢
    rw [← hpc] at hmem
    exact ⟨_, jmpCompletes s imm target op hmem hop htarget, rfl, rfl⟩

end Sys2Proof.Machine
end
